-- ==== Sys2Proof/Word.lean ====
section
/-! DEFINITION. The plain word types of the block: operation words, bytes, host counter values and
binary32 bit patterns. The block has no memory, so there is no address type (spec 20_memory R41, R44). -/

namespace Sys2Proof

/-- An operation word: every one is 32 bits (R57). -/
abbrev Word := BitVec 32

/-- A wire byte, a command byte or a host pin identifier (`CMD_W` = `PIN_ID_W` = 8, R9). -/
abbrev Byte := BitVec 8

/-- A raw measurement code (`RAW_W` = 16, R9). -/
abbrev Raw := BitVec 16

/-- A value of the host's millisecond counter (`MILLIS_W` = 32, R9, R117). -/
abbrev Millis := BitVec 32

/-- The bit pattern of an IEEE 754 binary32 number (`FLOAT`, R9, R91). -/
abbrev F32 := BitVec 32

end Sys2Proof
end

