-- ==== Sys2Proof/Syntax.lean ====
section
/-! DEFINITION. The operations of the block and their operands: one constructor of `Instr` per row of
spec/opcode_table.json (R62), with the operand names of R59. -/

namespace Sys2Proof

/-- A line level: `L` is low (0), `H` is high (1) (R11, R59). -/
inductive Level where
  | lo
  | hi
deriving DecidableEq, Repr, Inhabited

/-- A logical pin: `DATA` is 0, `SCK` is 1 (R24, R59). -/
inductive Pin where
  | data
  | sck
deriving DecidableEq, Repr

/-- A pin mode an operation can name: `OUT` 0, `IN` 1, `IN_PU` 2 (R59). `UNKNOWN` is no member (R26). -/
inductive PinMode where
  | out
  | input
  | inputPullup
deriving DecidableEq, Repr

/-- The six supply-voltage classes in ordinal order 0 to 5; the sixth is unnamed (R21). -/
inductive VClass where
  | v5_0
  | v4_0
  | v3_5
  | v3_0
  | v2_5
  | vX
deriving DecidableEq, Repr

/-- The temperature resolution: 0 is 14-bit, 1 is 12-bit (R22). -/
inductive TRes where
  | t14
  | t12
deriving DecidableEq, Repr

/-- The humidity resolution: 0 is 12-bit, 1 is 8-bit (R22). -/
inductive HRes where
  | h12
  | h8
deriving DecidableEq, Repr

/-- The two members of the Command set (R61). -/
inductive Command where
  | measT
  | measRH
deriving DecidableEq, Repr

/-- One operation (R62). `sendcmd` and `readraw` keep the byte of their word: which bytes are commands is a
parameter of the block (R61), so that check stands in `WellFormed` and not in the type. -/
inductive Instr where
  /-- `SETMODE pin, mode` (R70). -/
  | setmode (pin : Pin) (mode : PinMode)
  /-- `WRITE pin, level` (R71). -/
  | write (pin : Pin) (level : Level)
  /-- `READ pin` (R72). -/
  | read (pin : Pin)
  /-- `DLY_US count` (R73). -/
  | dlyUs (count : BitVec 24)
  /-- `DLY_MS count` (R74). -/
  | dlyMs (count : BitVec 24)
  /-- `MILLIS` (R75). -/
  | millis
  /-- `START` (R77). -/
  | start
  /-- `SHIFTOUT8 cmd8` (R78). -/
  | shiftout8 (cmd8 : Byte)
  /-- `ACK` (R79). -/
  | ack
  /-- `SENDCMD cmd8` (R80). -/
  | sendcmd (cmd8 : Byte)
  /-- `WAIT` (R81). -/
  | wait
  /-- `SHIFTIN8` (R82). -/
  | shiftin8
  /-- `MIDACK` (R83). -/
  | midack
  /-- `READ16` (R84). -/
  | read16
  /-- `CRCSKIP` (R85). -/
  | crcskip
  /-- `READRAW cmd8` (R86). -/
  | readraw (cmd8 : Byte)
  /-- `CONV_C` (R92). -/
  | convC
  /-- `CONV_F` (R93). -/
  | convF
  /-- `CONV_RH` (R94). -/
  | convRh
  /-- `CONSTRUCT dpin, cpin, v, t, h` (R98). -/
  | construct (dpin cpin : Byte) (v : VClass) (t : TRes) (h : HRes)
  /-- `READ_C` (R100). -/
  | readC
  /-- `READ_F` (R101). -/
  | readF
  /-- `READ_RH` (R102). -/
  | readRh
deriving DecidableEq, Repr

/-- A pseudo-instruction of the assembler; none has an opcode (R66). -/
inductive Pseudo where
  | measureT
  | measureRh
  | inputData
  | outputData
  | pulse
  | constructDefault (dpin cpin : Byte)
deriving DecidableEq, Repr

end Sys2Proof
end

