-- ==== Sys2Proof/Config.lean ====
section
/-! DEFINITION. The implementation parameters of the block (spec 00_scope R9) and the free values.
A parameter with a value of the spec is a plain constant; a parameter the spec leaves OPEN is built from an
`opaque` constant with no body, so that no proof can see a value. The coefficient tables (`COEFF` and
`VCLASS5`, R90) are an argument of the run, held in `State.coeff`. -/

namespace Sys2Proof

/-- `CODE_MEAS_T`, the wire code of MeasureTemperature (R9, R61, D3; the spec takes it from general knowledge). -/
def Config.codeMeasT : Byte := 0x03#8

/-- `CODE_MEAS_RH`, the wire code of MeasureRelativeHumidity (R9, R61, D3; as above). -/
def Config.codeMeasRH : Byte := 0x05#8

/-- `POLL_MS`, the result-ready poll interval in milliseconds (R9, R81, D8). -/
def Config.pollMs : Nat := 10

/-- `TIMEOUT_MS`, the result-ready timeout in milliseconds (R9, R81, D8). -/
def Config.timeoutMs : Nat := 1000

/-- The free part of `T_EDGE_US`: nothing is known of it. -/
opaque Config.tEdgeAboveOne : Nat

/-- `T_EDGE_US`, OPEN, an integer number of microseconds, at least 1 (R9, R76, D7). Every such integer is one more
than some natural number, so the form admits all of them and no other. -/
def Config.tEdgeUs : Nat := Config.tEdgeAboveOne + 1

/-- The free part of `SENTINEL`: nothing is known of it but its range. -/
opaque Config.sentinelOffset : Fin 0xC000

/-- `SENTINEL`, OPEN, constrained to 0x4000..0xFFFF (R9, R103, D11). Used by the compatibility view only. -/
def Config.sentinel : Raw := BitVec.ofNat 16 (0x4000 + Config.sentinelOffset.val)

/-- `NAN_BITS`, the binary32 pattern of the compatibility view's NaN (R9, R103, D28). -/
def Config.nanBits : F32 := 0x7FC00000#32

/-- `DEFAULT_V`: the 3.5 V class (R9, R99, D16, C3). -/
def Config.defaultV : VClass := .v3_5

/-- `DEFAULT_TR`: 14-bit (R9, R99). -/
def Config.defaultTR : TRes := .t14

/-- `DEFAULT_HR`: 12-bit (R9, R99). -/
def Config.defaultHR : HRes := .h12

/-- The level the sensor agent answers at its n-th draw beyond the script of the run: a free value, under no law
(R38, R67, R68; log entry 2). -/
opaque Config.freeLevel : Nat → Level

/-- The value the host clock chooses at its n-th draw beyond the script of the run: a free value (R67, R75, R119;
log entry 2). -/
opaque Config.freeMillis : Nat → Millis

/-- The binary32 operations that can produce a NaN. -/
inductive FloatOp where
  | add
  | sub
  | mul
deriving DecidableEq, Repr

/-- Sign (top bit) and payload (22 bits) of the quiet NaN an operation makes of two operands: IEEE 754 leaves them
open and the spec gives none, so they are a free value (R91; log entry 9). -/
opaque Config.freeNaN : FloatOp → F32 → F32 → BitVec 23

end Sys2Proof
end

