-- ==== Sys2Proof/WellFormed.lean ====
section
/-! DEFINITION. Well-formed operations: the operand legality of R59 that the types of `Instr` do not already give.
A logical pin above 1, mode 3 and the voltage classes 6 and 7 cannot be written as a term of `Instr`; what is left is
that the byte of `SENDCMD` and `READRAW` is one of the two command codes (R59, R61). -/

namespace Sys2Proof

/-- The wire code of a command (R61). -/
def Command.code : Command → Byte
  | .measT => Config.codeMeasT
  | .measRH => Config.codeMeasRH

/-- The command a byte is the wire code of, if it is one (R61: exactly two bytes are). -/
def Command.ofCode? (b : Byte) : Option Command :=
  if b = Config.codeMeasT then some .measT
  else if b = Config.codeMeasRH then some .measRH
  else none

/-- The operand check (3) of R60, for the operand values an `Instr` can hold. -/
def Instr.wellFormed : Instr → Bool
  | .setmode _ _ => true
  | .write _ _ => true
  | .read _ => true
  | .dlyUs _ => true
  | .dlyMs _ => true
  | .millis => true
  | .start => true
  | .shiftout8 _ => true
  | .ack => true
  | .sendcmd c => (Command.ofCode? c).isSome
  | .wait => true
  | .shiftin8 => true
  | .midack => true
  | .read16 => true
  | .crcskip => true
  | .readraw c => (Command.ofCode? c).isSome
  | .convC => true
  | .convF => true
  | .convRh => true
  | .construct _ _ _ _ _ => true
  | .readC => true
  | .readF => true
  | .readRh => true

end Sys2Proof
end

