-- ==== Sys2Proof/Decode.lean ====
section
/-! DEFINITION. The operation word: opcode map, formats, decoder and encoder (spec 30_encoding R57 to R63).
The decoder is total on 32-bit words and rejects by name, in the check order of R60. -/

namespace Sys2Proof

/-- The 23 mnemonics of R62, spelled as spec/opcode_table.json spells them. -/
inductive Mnemonic where
  | SETMODE | WRITE | READ | DLY_US | DLY_MS | MILLIS
  | START | SHIFTOUT8 | ACK | SENDCMD | WAIT | SHIFTIN8 | MIDACK | READ16 | CRCSKIP | READRAW
  | CONV_C | CONV_F | CONV_RH
  | CONSTRUCT | READ_C | READ_F | READ_RH
deriving DecidableEq, Repr

/-- The seven formats of R58. -/
inductive Format where
  | N | C | PM | PL | P | D | K
deriving DecidableEq, Repr

/-- The opcode byte of a mnemonic (R62). -/
def Mnemonic.opc : Mnemonic → Byte
  | .SETMODE => 0x01#8
  | .WRITE => 0x02#8
  | .READ => 0x03#8
  | .DLY_US => 0x04#8
  | .DLY_MS => 0x05#8
  | .MILLIS => 0x06#8
  | .START => 0x10#8
  | .SHIFTOUT8 => 0x11#8
  | .ACK => 0x12#8
  | .SENDCMD => 0x13#8
  | .WAIT => 0x14#8
  | .SHIFTIN8 => 0x15#8
  | .MIDACK => 0x16#8
  | .READ16 => 0x17#8
  | .CRCSKIP => 0x18#8
  | .READRAW => 0x19#8
  | .CONV_C => 0x20#8
  | .CONV_F => 0x21#8
  | .CONV_RH => 0x22#8
  | .CONSTRUCT => 0x30#8
  | .READ_C => 0x31#8
  | .READ_F => 0x32#8
  | .READ_RH => 0x33#8

/-- The format of a mnemonic (R62). -/
def Mnemonic.format : Mnemonic → Format
  | .SETMODE => .PM
  | .WRITE => .PL
  | .READ => .P
  | .DLY_US | .DLY_MS => .D
  | .SHIFTOUT8 | .SENDCMD | .READRAW => .C
  | .CONSTRUCT => .K
  | .MILLIS | .START | .ACK | .WAIT | .SHIFTIN8 | .MIDACK | .READ16 | .CRCSKIP => .N
  | .CONV_C | .CONV_F | .CONV_RH | .READ_C | .READ_F | .READ_RH => .N

/-- The mnemonic an opcode byte is assigned to (R62); every other opcode is illegal (R63). -/
def Mnemonic.ofOpc? (opc : Byte) : Option Mnemonic :=
  match opc.toNat with
  | 0x01 => some .SETMODE
  | 0x02 => some .WRITE
  | 0x03 => some .READ
  | 0x04 => some .DLY_US
  | 0x05 => some .DLY_MS
  | 0x06 => some .MILLIS
  | 0x10 => some .START
  | 0x11 => some .SHIFTOUT8
  | 0x12 => some .ACK
  | 0x13 => some .SENDCMD
  | 0x14 => some .WAIT
  | 0x15 => some .SHIFTIN8
  | 0x16 => some .MIDACK
  | 0x17 => some .READ16
  | 0x18 => some .CRCSKIP
  | 0x19 => some .READRAW
  | 0x20 => some .CONV_C
  | 0x21 => some .CONV_F
  | 0x22 => some .CONV_RH
  | 0x30 => some .CONSTRUCT
  | 0x31 => some .READ_C
  | 0x32 => some .READ_F
  | 0x33 => some .READ_RH
  | _ => none

/-- The reserved bits of a format: the bits marked `0` in R58. -/
def Format.reservedMask : Format → Word
  | .N => 0x00FFFFFF#32
  | .C => 0x00FFFF00#32
  | .PM => 0x00FF00FC#32
  | .PL => 0x00FF00FE#32
  | .P => 0x00FF00FF#32
  | .D => 0x00000000#32
  | .K => 0x000000E0#32

/-- `pin`: 0 is `DATA`, 1 is `SCK`; the other codes name no pin (R59). -/
def Pin.ofCode? (c : Byte) : Option Pin :=
  match c.toNat with
  | 0 => some .data
  | 1 => some .sck
  | _ => none

/-- `mode`: 0 is `OUT`, 1 is `IN`, 2 is `IN_PU`; 3 names no mode (R59). -/
def PinMode.ofCode? (c : BitVec 2) : Option PinMode :=
  match c.toNat with
  | 0 => some .out
  | 1 => some .input
  | 2 => some .inputPullup
  | _ => none

/-- `level`: 0 is `L`, 1 is `H` (R59). -/
def Level.ofBit (b : Bool) : Level := if b then .hi else .lo

/-- `v`: the voltage classes 0 to 5; 6 and 7 are reserved (R21, R59). -/
def VClass.ofCode? (c : BitVec 3) : Option VClass :=
  match c.toNat with
  | 0 => some .v5_0
  | 1 => some .v4_0
  | 2 => some .v3_5
  | 3 => some .v3_0
  | 4 => some .v2_5
  | 5 => some .vX
  | _ => none

/-- `t`: 0 is 14-bit, 1 is 12-bit (R22, R59). -/
def TRes.ofBit (b : Bool) : TRes := if b then .t12 else .t14

/-- `h`: 0 is 12-bit, 1 is 8-bit (R22, R59). -/
def HRes.ofBit (b : Bool) : HRes := if b then .h8 else .h12

/-- Why a word is no operation (R60, R63). -/
inductive DecodeFault where
  | illegalOpcode
  | reservedBits
  | badOperand
deriving DecidableEq, Repr

/-- `opc = w[31:24]` (R57). -/
def opcodeField (w : Word) : Byte := w.extractLsb' 24 8

/-- `w[15:8]`: the logical pin of formats PM, PL and P, and `cpin` of format K (R58, R59). -/
def pinField (w : Word) : Byte := w.extractLsb' 8 8

/-- `w[7:0]`: `cmd8` of format C (R59). -/
def cmdField (w : Word) : Byte := w.extractLsb' 0 8

/-- `w[23:16]`: `dpin` of format K (R59). -/
def dpinField (w : Word) : Byte := w.extractLsb' 16 8

/-- `w[23:0]`: the count of format D (R59). -/
def countField (w : Word) : BitVec 24 := w.extractLsb' 0 24

/-- The command operand of `SENDCMD` and `READRAW`: the byte, if it is a command code (R59). -/
def commandOperand? (w : Word) : Option Byte :=
  if (Command.ofCode? (cmdField w)).isSome then some (cmdField w) else none

/-- The operation of a word whose opcode is known, or `none` where an operand value is illegal (R59). -/
def Mnemonic.operands? (m : Mnemonic) (w : Word) : Option Instr :=
  match m with
  | .SETMODE => (Pin.ofCode? (pinField w)).bind fun p => (PinMode.ofCode? (w.extractLsb' 0 2)).map fun d => .setmode p d
  | .WRITE => (Pin.ofCode? (pinField w)).map fun p => .write p (.ofBit (w.getLsbD 0))
  | .READ => (Pin.ofCode? (pinField w)).map fun p => .read p
  | .DLY_US => some (.dlyUs (countField w))
  | .DLY_MS => some (.dlyMs (countField w))
  | .MILLIS => some .millis
  | .START => some .start
  | .SHIFTOUT8 => some (.shiftout8 (cmdField w))
  | .ACK => some .ack
  | .SENDCMD => (commandOperand? w).map fun c => .sendcmd c
  | .WAIT => some .wait
  | .SHIFTIN8 => some .shiftin8
  | .MIDACK => some .midack
  | .READ16 => some .read16
  | .CRCSKIP => some .crcskip
  | .READRAW => (commandOperand? w).map fun c => .readraw c
  | .CONV_C => some .convC
  | .CONV_F => some .convF
  | .CONV_RH => some .convRh
  | .CONSTRUCT => (VClass.ofCode? (w.extractLsb' 2 3)).map fun v =>
      .construct (dpinField w) (pinField w) v (.ofBit (w.getLsbD 1)) (.ofBit (w.getLsbD 0))
  | .READ_C => some .readC
  | .READ_F => some .readF
  | .READ_RH => some .readRh

/-- The decoder, in the check order of R60: opcode, reserved bits, operand values. -/
def decode (w : Word) : Except DecodeFault Instr :=
  match Mnemonic.ofOpc? (opcodeField w) with
  | none => .error .illegalOpcode
  | some m =>
    if w &&& m.format.reservedMask ≠ 0#32 then .error .reservedBits
    else match m.operands? w with
      | none => .error .badOperand
      | some i => .ok i

/-- The mnemonic of an operation (R62). -/
def Instr.mnemonic : Instr → Mnemonic
  | .setmode _ _ => .SETMODE
  | .write _ _ => .WRITE
  | .read _ => .READ
  | .dlyUs _ => .DLY_US
  | .dlyMs _ => .DLY_MS
  | .millis => .MILLIS
  | .start => .START
  | .shiftout8 _ => .SHIFTOUT8
  | .ack => .ACK
  | .sendcmd _ => .SENDCMD
  | .wait => .WAIT
  | .shiftin8 => .SHIFTIN8
  | .midack => .MIDACK
  | .read16 => .READ16
  | .crcskip => .CRCSKIP
  | .readraw _ => .READRAW
  | .convC => .CONV_C
  | .convF => .CONV_F
  | .convRh => .CONV_RH
  | .construct _ _ _ _ _ => .CONSTRUCT
  | .readC => .READ_C
  | .readF => .READ_F
  | .readRh => .READ_RH

/-- The 8-bit code of a logical pin (R59). -/
def Pin.code : Pin → Byte
  | .data => 0#8
  | .sck => 1#8

/-- The 2-bit code of a mode (R59). -/
def PinMode.code : PinMode → BitVec 2
  | .out => 0#2
  | .input => 1#2
  | .inputPullup => 2#2

/-- The bit of a level (R59). -/
def Level.bit : Level → BitVec 1
  | .lo => 0#1
  | .hi => 1#1

/-- The 3-bit ordinal of a voltage class (R21). -/
def VClass.code : VClass → BitVec 3
  | .v5_0 => 0#3
  | .v4_0 => 1#3
  | .v3_5 => 2#3
  | .v3_0 => 3#3
  | .v2_5 => 4#3
  | .vX => 5#3

/-- The bit of a temperature resolution (R22). -/
def TRes.bit : TRes → BitVec 1
  | .t14 => 0#1
  | .t12 => 1#1

/-- The bit of a humidity resolution (R22). -/
def HRes.bit : HRes → BitVec 1
  | .h12 => 0#1
  | .h8 => 1#1

/-- Bits 23 to 0 of an operation's word, format by format as R58 draws them (`a ++ b` puts `a` in the more
significant place, R10). -/
def Instr.operandBits : Instr → BitVec 24
  | .setmode p m => 0#8 ++ p.code ++ (0#6 ++ m.code)
  | .write p l => 0#8 ++ p.code ++ (0#7 ++ l.bit)
  | .read p => 0#8 ++ p.code ++ 0#8
  | .dlyUs n => n
  | .dlyMs n => n
  | .shiftout8 c => 0#16 ++ c
  | .sendcmd c => 0#16 ++ c
  | .readraw c => 0#16 ++ c
  | .construct d k v t h => d ++ k ++ (0#3 ++ v.code ++ t.bit ++ h.bit)
  | .millis => 0#24
  | .start => 0#24
  | .ack => 0#24
  | .wait => 0#24
  | .shiftin8 => 0#24
  | .midack => 0#24
  | .read16 => 0#24
  | .crcskip => 0#24
  | .convC => 0#24
  | .convF => 0#24
  | .convRh => 0#24
  | .readC => 0#24
  | .readF => 0#24
  | .readRh => 0#24

/-- The encoder: opcode byte, then the operand bits (R57, R58). -/
def encode (i : Instr) : Word := i.mnemonic.opc ++ i.operandBits

/-- The instruction the decoder reads from an instruction of `nbits` bits `w`; the bits above `nbits` are zero. An
operation word is one 32-bit word fetched whole (R48, R57), so there is no byte order between words to choose. -/
def decodeTableWord (nbits w : Nat) : Option Instr :=
  match decode (BitVec.ofNat 32 (w % 2 ^ nbits)) with
  | .ok i => some i
  | .error _ => none

end Sys2Proof
end

