-- ==== Sys2Proof/Machine/Float32.lean ====
section
/-! DEFINITION. IEEE 754 binary32 arithmetic, round to nearest, ties to even (R13, R91). Operands are read as exact
integers in units of 2^-149 (every finite binary32 number is one), the operation is computed exactly, and `round32`
narrows once. -/

namespace Sys2Proof.Machine

/-- The sign bit. -/
def floatSign (x : F32) : Bool := x.getLsbD 31

/-- The biased exponent field. -/
def floatExp (x : F32) : Nat := (x.extractLsb' 23 8).toNat

/-- The trailing significand field. -/
def floatFrac (x : F32) : Nat := (x.extractLsb' 0 23).toNat

/-- A number that is neither infinite nor a NaN. -/
def floatFinite (x : F32) : Bool := floatExp x < 255

def floatInf (x : F32) : Bool := floatExp x == 255 && floatFrac x == 0

def floatNaN (x : F32) : Bool := floatExp x == 255 && floatFrac x != 0

/-- The magnitude of a finite number in units of 2^-149. -/
def floatUnits (x : F32) : Nat :=
  if floatExp x = 0 then floatFrac x else (2 ^ 23 + floatFrac x) * 2 ^ (floatExp x - 1)

/-- The value of a finite number in units of 2^-149. -/
def floatInt (x : F32) : Int := if floatSign x then -(floatUnits x : Int) else floatUnits x

/-- The integer nearest to `num / den`, the even one of two equally near. -/
def roundHalfEven (num den : Nat) : Nat :=
  let q := num / den
  let r := num % den
  if 2 * r < den then q else if den < 2 * r then q + 1 else q + q % 2

/-- Binary32 bits of a sign and a magnitude code, the magnitude code capped at infinity's. -/
def packFloat (neg : Bool) (magnitude : Nat) : F32 :=
  BitVec.ofNat 32 ((if neg then 2 ^ 31 else 0) + min magnitude 0x7F800000)

/-- `± num / den` rounded once to the nearest binary32, ties to even (R13, R91). The quantum is 2^(k-149), with `k`
the least exponent at which the quotient has at most 24 bits; a quotient that rounds up to 2^24 carries into the
exponent field by itself, and one beyond the largest finite number becomes infinity. -/
def round32 (neg : Bool) (num den : Nat) : F32 :=
  let k := Nat.log2 (num * 2 ^ 149 / den) - 23
  packFloat neg (k * 2 ^ 23 + roundHalfEven (num * 2 ^ 149) (den * 2 ^ k))

/-- The quiet NaN an operation answers: IEEE 754 fixes the exponent field and the quiet bit and leaves the rest open,
which is a free value (log entry 9). -/
def quietNaN (op : FloatOp) (x y : F32) : F32 :=
  (Config.freeNaN op x y).extractLsb' 22 1 ++ 0xFF#8 ++ 1#1 ++ (Config.freeNaN op x y).extractLsb' 0 22

/-- The negation of a number (its sign bit flipped). -/
def floatNeg (x : F32) : F32 := x ^^^ 0x80000000#32

/-- The sum of two numbers that are no NaN, with the NaN to answer where it has none (∞ - ∞). An exact zero sum is
-0 only when both operands are negative zeros or negative. -/
def addNumbers (nan x y : F32) : F32 :=
  if floatInf x then if floatInf y && (floatSign x != floatSign y) then nan else x
  else if floatInf y then y
  else
    let z := floatInt x + floatInt y
    if z = 0 then packFloat (floatSign x && floatSign y) 0
    else round32 (decide (z < 0)) z.natAbs (2 ^ 149)

/-- `fadd` (R13). -/
def fadd (x y : F32) : F32 :=
  if floatNaN x || floatNaN y then quietNaN .add x y else addNumbers (quietNaN .add x y) x y

/-- `fsub` (R13): the sum with the second operand negated. -/
def fsub (x y : F32) : F32 :=
  if floatNaN x || floatNaN y then quietNaN .sub x y else addNumbers (quietNaN .sub x y) x (floatNeg y)

/-- `fmul` (R13). ∞ times 0 has no value and answers a NaN. -/
def fmul (x y : F32) : F32 :=
  let neg := floatSign x != floatSign y
  if floatNaN x || floatNaN y then quietNaN .mul x y
  else if floatInf x || floatInf y then
    if (floatFinite x && floatUnits x == 0) || (floatFinite y && floatUnits y == 0) then quietNaN .mul x y
    else packFloat neg 0x7F800000
  else round32 neg (floatUnits x * floatUnits y) (2 ^ 149 * 2 ^ 149)

/-- `f32(n)`: an unsigned integer as a binary32 (R13; exact below 2^24). -/
def f32 (n : Nat) : F32 := round32 false n 1

/-- `lit` of the decimal `± digits / 10 ^ scale`: rounded once to the nearest binary32 (R13, R91). -/
def litDecimal (neg : Bool) (digits scale : Nat) : F32 := round32 neg digits (10 ^ scale)

end Sys2Proof.Machine
end

