-- ==== Sys2Proof/Machine/Coefficients.lean ====
section
/-! DEFINITION. The coefficient store: the nine read-only tables of R33 and R88, taken whole as a parameter of the run
(`COEFF` and `VCLASS5` of R9; R90), their default values (R90), and the formulas of R92 to R94 over them. An entry may be
unsupplied; a conversion that needs it is refused (R109; log entry 4). -/

namespace Sys2Proof.Machine

/-- A decimal literal `± digits / 10 ^ scale` (R33, R91). -/
structure Decimal where
  neg : Bool
  digits : Nat
  scale : Nat
deriving DecidableEq, Repr

/-- A table by `CFG_V` (R88); `none` is an unsupplied entry (R109). -/
structure ByVoltage where
  v5_0 : Option Decimal
  v4_0 : Option Decimal
  v3_5 : Option Decimal
  v3_0 : Option Decimal
  v2_5 : Option Decimal
  vX : Option Decimal
deriving DecidableEq, Repr

/-- A table by `CFG_TR` (R88). -/
structure ByTempRes where
  t14 : Option Decimal
  t12 : Option Decimal
deriving DecidableEq, Repr

/-- A table by `CFG_HR` (R88). -/
structure ByHumRes where
  h12 : Option Decimal
  h8 : Option Decimal
deriving DecidableEq, Repr

/-- The nine tables (R33, R88), under the names the spec gives them. -/
structure Coefficients where
  d1c : ByVoltage
  d1f : ByVoltage
  d2c : ByTempRes
  d2f : ByTempRes
  c1 : ByHumRes
  c2 : ByHumRes
  c3 : ByHumRes
  t1 : ByHumRes
  t2 : ByHumRes
deriving DecidableEq, Repr

/-- The entry of a voltage class (R21, R88). -/
def ByVoltage.get (table : ByVoltage) : VClass → Option Decimal
  | .v5_0 => table.v5_0
  | .v4_0 => table.v4_0
  | .v3_5 => table.v3_5
  | .v3_0 => table.v3_0
  | .v2_5 => table.v2_5
  | .vX => table.vX

/-- The entry of a temperature resolution (R22, R88). -/
def ByTempRes.get (table : ByTempRes) : TRes → Option Decimal
  | .t14 => table.t14
  | .t12 => table.t12

/-- The entry of a humidity resolution (R22, R88). -/
def ByHumRes.get (table : ByHumRes) : HRes → Option Decimal
  | .h12 => table.h12
  | .h8 => table.h8

/-- The default table of R90, `VCLASS5` unsupplied. Only `D1C[2]` and `D2C[0]` are the source's own (R89); the spec takes
the others from general knowledge (D14; log entry 6). -/
def defaultCoefficients : Coefficients where
  d1c := {
    v5_0 := some ⟨true, 401, 1⟩, v4_0 := some ⟨true, 398, 1⟩, v3_5 := some ⟨true, 397, 1⟩,
    v3_0 := some ⟨true, 396, 1⟩, v2_5 := some ⟨true, 394, 1⟩, vX := none }
  d1f := {
    v5_0 := some ⟨true, 402, 1⟩, v4_0 := some ⟨true, 396, 1⟩, v3_5 := some ⟨true, 395, 1⟩,
    v3_0 := some ⟨true, 393, 1⟩, v2_5 := some ⟨true, 389, 1⟩, vX := none }
  d2c := { t14 := some ⟨false, 1, 2⟩, t12 := some ⟨false, 4, 2⟩ }
  d2f := { t14 := some ⟨false, 18, 3⟩, t12 := some ⟨false, 72, 3⟩ }
  c1 := { h12 := some ⟨true, 20468, 4⟩, h8 := some ⟨true, 20468, 4⟩ }
  c2 := { h12 := some ⟨false, 367, 4⟩, h8 := some ⟨false, 5872, 4⟩ }
  c3 := { h12 := some ⟨true, 15955, 10⟩, h8 := some ⟨true, 40845, 8⟩ }
  t1 := { h12 := some ⟨false, 1, 2⟩, h8 := some ⟨false, 1, 2⟩ }
  t2 := { h12 := some ⟨false, 8, 5⟩, h8 := some ⟨false, 128, 5⟩ }

/-- What R89 asks of every coefficient parameter: the two values that are in the source. -/
def Coefficients.holdsSource (k : Coefficients) : Bool :=
  k.d1c.v3_5 == some ⟨true, 397, 1⟩ && k.d2c.t14 == some ⟨false, 1, 2⟩

/-- Every coefficient of the three classes is supplied. -/
def Coefficients.supplied (k : Coefficients) (v : VClass) (t : TRes) (h : HRes) : Bool :=
  (k.d1c.get v).isSome && (k.d1f.get v).isSome && (k.d2c.get t).isSome && (k.d2f.get t).isSome &&
    (k.c1.get h).isSome && (k.c2.get h).isSome && (k.c3.get h).isSome && (k.t1.get h).isSome && (k.t2.get h).isSome

/-- `lit(c)`: a decimal literal rounded once to the nearest binary32 (R13, R91). -/
def lit (c : Decimal) : F32 := litDecimal c.neg c.digits c.scale

/-- The constant 25.0 of the compensation term (R89, R94). -/
def compensationBase : Decimal := ⟨false, 250, 1⟩

/-- `fadd(lit(d1), fmul(lit(d2), f32(raw)))`: the affine formula of R92 and R93. -/
def affine (d1 d2 : Decimal) (raw : Raw) : F32 := fadd (lit d1) (fmul (lit d2) (f32 raw.toNat))

/-- The Celsius formula of R92, `none` where a coefficient is unsupplied (R109). -/
def celsius (k : Coefficients) (v : VClass) (t : TRes) (raw : Raw) : Option F32 := do
  return affine (← k.d1c.get v) (← k.d2c.get t) raw

/-- The Fahrenheit formula of R93, with its own tables. -/
def fahrenheit (k : Coefficients) (v : VClass) (t : TRes) (raw : Raw) : Option F32 := do
  return affine (← k.d1f.get v) (← k.d2f.get t) raw

/-- `lin` of R94: `(C1 + C2 * r) + (C3 * r) * r`. -/
def linearHumidity (c1 c2 c3 : Decimal) (raw : Raw) : F32 :=
  let r := f32 raw.toNat
  fadd (fadd (lit c1) (fmul (lit c2) r)) (fmul (fmul (lit c3) r) r)

/-- `cmp` of R94: `(tc - 25.0) * (T1 + T2 * r)`. -/
def compensation (t1 t2 : Decimal) (raw : Raw) (tc : F32) : F32 :=
  fmul (fsub tc (lit compensationBase)) (fadd (lit t1) (fmul (lit t2) (f32 raw.toNat)))

/-- The humidity formula of R94, `none` where a coefficient is unsupplied (R109). Nothing is clamped (R95). -/
def humidity (k : Coefficients) (h : HRes) (raw : Raw) (tc : F32) : Option F32 := do
  let lin := linearHumidity (← k.c1.get h) (← k.c2.get h) (← k.c3.get h) raw
  let cmp := compensation (← k.t1.get h) (← k.t2.get h) raw tc
  return fadd cmp lin

end Sys2Proof.Machine
end

