-- ==== Sys2Proof/Machine/State.lean ====
section
/-! DEFINITION. The state of the block (spec 10_state R16 to R40), the model faults and refusals (60_exceptions
R108, R109) and the state right after reset (R40). `none` in a register, in a pin mode or in a latch is a value the
spec itself gives: `⊥` (R11, R27) or `UNKNOWN` (R25, R26). -/

namespace Sys2Proof.Machine

/-- The model faults of R108, in the order of their codes. Each is recorded in `State.fault` and stops the machine. -/
inductive ModelFault where
  | illegalOpcode
  | reservedBits
  | badOperand
  | noHandle
  | reconstruct
  | unwritten
  | pinNotOutput
deriving DecidableEq, Repr

/-- The numeric code of a model fault (R108). -/
def ModelFault.code : ModelFault → Nat
  | .illegalOpcode => 1
  | .reservedBits => 2
  | .badOperand => 3
  | .noHandle => 4
  | .reconstruct => 5
  | .unwritten => 6
  | .pinNotOutput => 7

/-- How the pseudocode of an operation breaks off (R106 (b) and (c)). -/
inductive Stop where
  /-- `raise F_x` (R14, R108). -/
  | fault (f : ModelFault)
  /-- The refusal `REF_OPEN_PARAM` (R109). -/
  | refuse
deriving DecidableEq, Repr

/-- Why `step` has no next state. A model fault of R108 is first RECORDED in a next state (R34, R106, R111): it is
the step after it that answers here. Both are safe: the spec gives neither of these states a move. -/
inductive Fault where
  /-- Raised by `step` in a state whose `FAULT` record is set: no later operation runs, nothing clears it (R34, R115). -/
  | stopped (f : ModelFault)
  /-- Raised by `step` when there is no word at `pc`: the run has ended, it is final and has no further move
  (R32, R128; 93_implementation_defined I28). -/
  | runEnded
deriving DecidableEq, Repr

/-- Why `step` has no meaning to give. Both are safe: nothing is claimed of the machine then. -/
inductive Refusal where
  /-- Raised by an arm of `exec` whose instruction has no meaning yet; no arm is in that case. -/
  | notModelled (mnemonic : String)
  /-- Raised by `step` in a state whose `REFUSED` mark is set by `REF_OPEN_PARAM` (R34, R106 (c), R109). -/
  | openParam
deriving DecidableEq, Repr

/-- An in-band status: the codes of R30. -/
inductive Status where
  | ok
  | eAck0
  | eAck1
  | eTimeout
deriving DecidableEq, Repr

/-- The numeric code of a status (R30). -/
def Status.code : Status → BitVec 2
  | .ok => 0#2
  | .eAck0 => 1#2
  | .eAck1 => 2#2
  | .eTimeout => 3#2

/-- The transmission status of `TXST`: 0 OK, 1 E_ACK0, 2 E_ACK1 (R27). -/
inductive TxStatus where
  | ok
  | eAck0
  | eAck1
deriving DecidableEq, Repr

/-- The wait status of `WST`: 0 READY, 1 TIMEOUT (R27). -/
inductive WaitStatus where
  | ready
  | timeout
deriving DecidableEq, Repr

/-- A conversion result: `Val(f)` or `Invalid` (R13, R27). -/
inductive Reading where
  | val (f : F32)
  | invalid
deriving DecidableEq, Repr

/-- One call of a host capability (R12, R37). A pin is the HOST pin identifier the logical pin maps to. -/
inductive Event where
  | setMode (pin : Byte) (mode : PinMode)
  | write (pin : Byte) (level : Level)
  | read (pin : Byte) (level : Level)
  | delayUs (count : Nat)
  | delayMs (count : Nat)
  | millis (count : Millis)
deriving DecidableEq, Repr

/-- The Device Handle (R19, R20): `CFG_DPIN`, `CFG_CPIN`, `CFG_V`, `CFG_TR`, `CFG_HR`. -/
structure Handle where
  dpin : Byte
  cpin : Byte
  v : VClass
  t : TRes
  h : HRes
deriving DecidableEq, Repr

/-- The pin interface state (R25): what the engine last told the host. `none` is `UNKNOWN`. -/
structure Pins where
  modeD : Option PinMode
  modeC : Option PinMode
  latD : Option Level
  latC : Option Level
deriving DecidableEq, Repr

/-- The fourteen result registers (R27). `none` is `⊥`. -/
structure Regs where
  /-- `SMP` -/
  smp : Option Level
  /-- `MS` -/
  ms : Option Millis
  /-- `A0` -/
  a0 : Option Level
  /-- `A1` -/
  a1 : Option Level
  /-- `TXST` -/
  txst : Option TxStatus
  /-- `WST` -/
  wst : Option WaitStatus
  /-- `BYTE` -/
  byte : Option Byte
  /-- `D16` -/
  d16 : Option Raw
  /-- `RAW_T` -/
  rawT : Option Raw
  /-- `RST_T` -/
  rstT : Option Status
  /-- `RAW_H` -/
  rawH : Option Raw
  /-- `RST_H` -/
  rstH : Option Status
  /-- `TC` -/
  tc : Option Reading
  /-- `OUT` -/
  out : Option Reading
deriving DecidableEq, Repr

/-- The answers of the two environment agents, still to come (R17, R38, R119). A level or a count is drawn from the
script while it lasts, and is a free value of `Config` at the draw's number after that. The MODEL's own field. -/
structure Env where
  levels : List Level
  levelDraws : Nat
  counts : List Millis
  countDraws : Nat
deriving DecidableEq, Repr

/-- The machine. `program`, `coeff` and `env` are arguments of a run (R18, R90, R17), held here because a step is a
function of the state; the rest is the state the spec names. -/
structure State where
  /-- `pc` (R32). -/
  pc : Nat
  /-- `FAULT` (R34). -/
  fault : Option ModelFault
  /-- `REFUSED` (R34). -/
  refused : Bool
  /-- The configuration registers (R20): `CFG_VALID` is 1 exactly when a handle is there, and the others are `⊥`
  exactly when it is not. -/
  handle : Option Handle
  /-- `MODE_D`, `MODE_C`, `LAT_D`, `LAT_C` (R25). -/
  pins : Pins
  /-- The engine registers (R27). -/
  regs : Regs
  /-- The trace, oldest event first (R37). -/
  trace : List Event
  /-- The program (R18): no operation writes it. -/
  program : List Word
  /-- The coefficient store (R33, R90): no operation writes it. -/
  coeff : Coefficients
  /-- The environment's answers to come (R17). -/
  env : Env
deriving DecidableEq, Repr

/-- Every engine register `⊥` (R27, R40). -/
def Regs.unwritten : Regs where
  smp := none
  ms := none
  a0 := none
  a1 := none
  txst := none
  wst := none
  byte := none
  d16 := none
  rawT := none
  rstT := none
  rawH := none
  rstH := none
  tc := none
  out := none

/-- Every mode and latch `UNKNOWN` (R25, R40). -/
def Pins.unknown : Pins := { modeD := none, modeC := none, latD := none, latC := none }

/-- No script: every draw is a free value. -/
def Env.free : Env := { levels := [], levelDraws := 0, counts := [], countDraws := 0 }

/-- The state before the first operation word (R40, R124), with no program loaded. -/
def State.reset : State where
  pc := 0
  fault := none
  refused := false
  handle := none
  pins := Pins.unknown
  regs := Regs.unwritten
  trace := []
  program := []
  coeff := defaultCoefficients
  env := Env.free

end Sys2Proof.Machine
end

