-- ==== Sys2Proof/Machine/Flags.lean ====
section
/-! DEFINITION. How the status registers are computed (R30, R79, R81, R86, R112). The block has no condition codes. -/

namespace Sys2Proof.Machine

/-- `TXST` of the two acknowledgment samples; the first failing phase wins (R79, R112). -/
def ackStatus (a0 a1 : Level) : TxStatus :=
  if a0 ≠ .lo then .eAck0 else if a1 ≠ .hi then .eAck1 else .ok

/-- The exchange status of a transmission status (R30, R86). -/
def statusOfTx : TxStatus → Status
  | .ok => .ok
  | .eAck0 => .eAck0
  | .eAck1 => .eAck1

/-- The timeout test of `WAIT`: `(t - t0) mod 2^32 >= TIMEOUT_MS` (R81, R117). -/
def timedOut (t0 t : Millis) : Bool := Config.timeoutMs ≤ (t - t0).toNat

end Sys2Proof.Machine
end

