-- ==== Sys2Proof/Machine/Operands.lean ====
section
/-! DEFINITION. Operand forms at execution: logical pins and their host identifiers (R42, R67), the pin state of one
logical pin, bytes as bit sequences most significant first (R45, R46), and the environment's draws (R17, R67). -/

namespace Sys2Proof.Machine

/-- `hp(p)`: the host identifier of a logical pin (R42, R67). -/
def hostPin (h : Handle) : Pin → Byte
  | .data => h.dpin
  | .sck => h.cpin

/-- `MODE_p` (R67). -/
def pinMode (s : Pins) : Pin → Option PinMode
  | .data => s.modeD
  | .sck => s.modeC

/-- `LAT_p` (R67). -/
def pinLatch (s : Pins) : Pin → Option Level
  | .data => s.latD
  | .sck => s.latC

/-- `MODE_p <- m` (R67). -/
def putMode (s : Pins) (p : Pin) (m : PinMode) : Pins :=
  match p with
  | .data => { s with modeD := some m }
  | .sck => { s with modeC := some m }

/-- `LAT_p <- l` (R67). -/
def putLatch (s : Pins) (p : Pin) (l : Level) : Pins :=
  match p with
  | .data => { s with latD := some l }
  | .sck => { s with latC := some l }

/-- The level of a bit: 0 is `L`, 1 is `H` (R11). -/
def levelOfBit (b : Bool) : Level := if b then .hi else .lo

/-- The bit of a level (R11). -/
def bitOfLevel : Level → Nat
  | .lo => 0
  | .hi => 1

/-- The bits of a byte as levels, `b[7]` first (R46, R78). -/
def bitsMsbFirst (b : Byte) : List Level :=
  [levelOfBit (b.getLsbD 7), levelOfBit (b.getLsbD 6), levelOfBit (b.getLsbD 5), levelOfBit (b.getLsbD 4),
   levelOfBit (b.getLsbD 3), levelOfBit (b.getLsbD 2), levelOfBit (b.getLsbD 1), levelOfBit (b.getLsbD 0)]

/-- `acc <- (acc * 2 + b) mod 2^8` (R82). -/
def shiftInBit (acc : Byte) (b : Level) : Byte := BitVec.ofNat 8 (acc.toNat * 2 + bitOfLevel b)

/-- `hi ++ lo`, that is `hi * 256 + lo` (R45, R84). -/
def rawOfBytes (hi lo : Byte) : Raw := hi ++ lo

/-- `draw_level()`: the sensor agent's next answer (R67; log entry 2). -/
def drawLevel (e : Env) : Level × Env :=
  match e.levels with
  | l :: rest => (l, { e with levels := rest, levelDraws := e.levelDraws + 1 })
  | [] => (Config.freeLevel e.levelDraws, { e with levelDraws := e.levelDraws + 1 })

/-- The next `n` answers of the sensor agent, in order. -/
def drawLevels : Nat → Env → List Level × Env
  | 0, e => ([], e)
  | n + 1, e => ((drawLevel e).1 :: (drawLevels n (drawLevel e).2).1, (drawLevels n (drawLevel e).2).2)

/-- The host clock's next choice, before host duty HD2 bounds it (R67; log entry 2). -/
def drawCount (e : Env) : Millis × Env :=
  match e.counts with
  | t :: rest => (t, { e with counts := rest, countDraws := e.countDraws + 1 })
  | [] => (Config.freeMillis e.countDraws, { e with countDraws := e.countDraws + 1 })

/-- Host duty HD2 (R118) for a draw of a `WAIT` that follows a draw `elapsed` milliseconds after its first, one
`DelayMs(POLL_MS)` between them: the counter has advanced by `gain`, at least the delay, and in all by less than
2^32 - TIMEOUT_MS. -/
def hd2Allows (elapsed gain : Nat) : Bool :=
  Config.pollMs ≤ gain && elapsed + gain < 2 ^ 32 - Config.timeoutMs

/-- The value a `WAIT` draws when the host clock's choice is `choice`: the choice itself where HD2 allows it, and
otherwise one that HD2 allows (log entry 3). Every allowed value is so drawn, and no other. -/
def hd2Draw (first last choice : Millis) : Millis :=
  let elapsed := (last - first).toNat
  let gain := (choice - last).toNat
  if hd2Allows elapsed gain then choice
  else last + BitVec.ofNat 32
    (Config.pollMs + choice.toNat % (2 ^ 32 - Config.timeoutMs - elapsed - Config.pollMs))

end Sys2Proof.Machine
end

