-- ==== Sys2Proof/Machine/Ops.lean ====
section
/-! DEFINITION. The shared operations: the helpers of R67 and R76, register access (R11), raising a model fault or the
refusal and what each leaves (R106, R111, R114), the state check (R110), and fetching a word (R48, R56).
An operation in progress is an `Op`: it changes the state event by event and may break off, keeping the state it has
reached (R111). -/

namespace Sys2Proof.Machine

/-- An operation in progress: a result and a state, or a stop and the state reached (R111). -/
abbrev Op := EStateM Stop State

/-- `raise F_x` (R14): the operation breaks off where it stands. -/
def raiseFault {α : Type} (f : ModelFault) : Op α := fun s => .error (.fault f) s

/-- The refusal `REF_OPEN_PARAM` (R109). -/
def refuseOpenParam {α : Type} : Op α := fun s => .error .refuse s

/-- Append one event to the trace (R37, R67). -/
def emit (e : Event) : Op Unit := fun s => .ok () { s with trace := s.trace ++ [e] }

/-- Write engine registers: `x[r] <- v` (R11). -/
def writeRegs (f : Regs → Regs) : Op Unit := fun s => .ok () { s with regs := f s.regs }

/-- Read an engine register as an operand: `⊥` raises `F_UNWRITTEN` (R11, R27). -/
def operandReg {α : Type} (r : Regs → Option α) : Op α := fun s =>
  match r s.regs with
  | some v => .ok v s
  | none => .error (.fault .unwritten) s

/-- `setmode(p, m)` (R67). -/
def setMode (h : Handle) (p : Pin) (m : PinMode) : Op Unit := fun s =>
  .ok () { s with trace := s.trace ++ [.setMode (hostPin h p) m], pins := putMode s.pins p m }

/-- `write(p, l)`: faults before the event unless the pin's mode is `OUT` (R67, R69). -/
def writePin (h : Handle) (p : Pin) (l : Level) : Op Unit := fun s =>
  if pinMode s.pins p = some .out then
    .ok () { s with trace := s.trace ++ [.write (hostPin h p) l], pins := putLatch s.pins p l }
  else .error (.fault .pinNotOutput) s

/-- `read(p)`: never looks at the pin's mode or latch (R67, R68). -/
def readPin (h : Handle) (p : Pin) : Op Level := fun s =>
  .ok (drawLevel s.env).1
    { s with trace := s.trace ++ [.read (hostPin h p) (drawLevel s.env).1], env := (drawLevel s.env).2 }

/-- `dlyus(n)` (R67). -/
def delayUs (n : Nat) : Op Unit := emit (.delayUs n)

/-- `dlyms(n)` (R67). -/
def delayMs (n : Nat) : Op Unit := emit (.delayMs n)

/-- A `Millis()` call whose answer is `bound` of the host clock's choice (R67, R118 HD2). -/
def millisBounded (bound : Millis → Millis) : Op Millis := fun s =>
  .ok (bound (drawCount s.env).1)
    { s with trace := s.trace ++ [.millis (bound (drawCount s.env).1)], env := (drawCount s.env).2 }

/-- `millis()`: any count (R67). -/
def readMillis : Op Millis := millisBounded id

/-- `edge(p, l)`: drive a line, then wait `T_EDGE_US` (R76). -/
def edge (h : Handle) (p : Pin) (l : Level) : Op Unit := do
  writePin h p l
  delayUs Config.tEdgeUs

/-- The state check of every operation but `CONSTRUCT` (R110 (2)): its handle, or `F_NO_HANDLE`. -/
def requireHandle : Op Handle := fun s =>
  match s.handle with
  | some h => .ok h s
  | none => .error (.fault .noHandle) s

/-- The operand check of `SENDCMD` and `READRAW` (R59, R110 (1)): the command of a byte, or `F_BAD_OPERAND`. A decoded
word always passes it (R60). -/
def requireCommand (b : Byte) : Op Command :=
  match Command.ofCode? b with
  | some c => pure c
  | none => raiseFault .badOperand

/-- Taking a model fault: `FAULT` is set, `pc` does not advance, all else stays as it stood (R106 (b), R111, R114). -/
def takeFault (f : ModelFault) (s : State) : State := { s with fault := some f }

/-- Taking the refusal: `REFUSED` is set, `pc` does not advance, all else stays as it stood (R106 (c), R111). -/
def takeRefusal (s : State) : State := { s with refused := true }

/-- Completion: `pc <- pc + 1` (R32, R106 (a)). -/
def advance (s : State) : State := { s with pc := s.pc + 1 }

/-- The end of an operation, one of the three ways of R106. A fault or a refusal is recorded in a NEXT state: it keeps
everything the operation did before it stopped (R111). -/
def finish (op : Op Unit) (s : State) : Host.Outcome State Fault Refusal :=
  match op s with
  | .ok _ t => .next (advance t)
  | .error (.fault f) t => .next (takeFault f t)
  | .error .refuse t => .next (takeRefusal t)

/-- An operation that needs a handle: the state check, then its pseudocode (R110 (2), (3)). -/
def withHandle (body : Handle → Op Unit) : Op Unit := do
  let h ← requireHandle
  body h

/-- The word at `pc`, if the run has not ended (R18, R32, R48, R128). -/
def fetch (s : State) : Option Word := s.program[s.pc]?

/-- The model fault of a decode rejection (R60, R108). -/
def faultOfDecode : DecodeFault → ModelFault
  | .illegalOpcode => .illegalOpcode
  | .reservedBits => .reservedBits
  | .badOperand => .badOperand

/-- A program with the word at one index replaced; shorter programs are filled up to it with zero words. -/
def putWord : List Word → Nat → Word → List Word
  | [], 0, w => [w]
  | _ :: rest, 0, w => w :: rest
  | [], n + 1, w => 0#32 :: putWord [] n w
  | x :: rest, n + 1, w => x :: putWord rest n w

end Sys2Proof.Machine
end

