-- ==== Sys2Proof/Machine/Calibration.lean ====
section
/-! DEFINITION. The calibration engine (spec 42_calibration_engine R92 to R97). No conversion emits an event, masks,
clamps or range-checks (R95, R97); a failed input exchange gives `Invalid` (R96). -/

namespace Sys2Proof.Machine

/-- A formula's value, or the refusal where a coefficient is unsupplied (R109). -/
def valueOrRefuse : Option F32 → Op F32
  | some v => pure v
  | none => refuseOpenParam

/-- The coefficient store (R33, R90). -/
def readCoefficients : Op Coefficients := fun s => .ok s.coeff s

/-- `CONV_C()` (R92). -/
def convCelsius (h : Handle) : Op Unit := do
  let st ← operandReg (·.rstT)
  if st ≠ .ok then writeRegs fun r => { r with out := some .invalid, tc := some .invalid }
  else do
    let raw ← operandReg (·.rawT)
    let k ← readCoefficients
    let v ← valueOrRefuse (celsius k h.v h.t raw)
    writeRegs fun r => { r with out := some (.val v), tc := some (.val v) }

/-- `CONV_F()` (R93): `TC` is not written. -/
def convFahrenheit (h : Handle) : Op Unit := do
  let st ← operandReg (·.rstT)
  if st ≠ .ok then writeRegs fun r => { r with out := some .invalid }
  else do
    let raw ← operandReg (·.rawT)
    let k ← readCoefficients
    let v ← valueOrRefuse (fahrenheit k h.v h.t raw)
    writeRegs fun r => { r with out := some (.val v) }

/-- `CONV_RH()` (R94). -/
def convHumidity (h : Handle) : Op Unit := do
  let st ← operandReg (·.rstH)
  let tc ← operandReg (·.tc)
  match st, tc with
  | .ok, .val f => do
    let raw ← operandReg (·.rawH)
    let k ← readCoefficients
    let v ← valueOrRefuse (humidity k h.h raw f)
    writeRegs fun r => { r with out := some (.val v) }
  | _, _ => writeRegs fun r => { r with out := some .invalid }

/-- `CONV_C` (R92). -/
def execConvC (s : State) : Host.Outcome State Fault Refusal :=
  finish (withHandle fun h => convCelsius h) s

/-- `CONV_F` (R93). -/
def execConvF (s : State) : Host.Outcome State Fault Refusal :=
  finish (withHandle fun h => convFahrenheit h) s

/-- `CONV_RH` (R94). -/
def execConvRh (s : State) : Host.Outcome State Fault Refusal :=
  finish (withHandle fun h => convHumidity h) s

end Sys2Proof.Machine
end

