-- ==== Sys2Proof/Machine/Protocol.lean ====
section
/-! DEFINITION. The protocol engine (spec 41_protocol_engine R76 to R86). Each sub-operation stands once, as an `Op`
that a composite operation runs in place (R15), and each operation has a meaning of its own over it. -/

namespace Sys2Proof.Machine

/-- `START()` (R77). -/
def startSeq (h : Handle) : Op Unit := do
  setMode h .data .out
  setMode h .sck .out
  edge h .data .hi
  edge h .sck .hi
  edge h .data .lo
  edge h .sck .lo
  edge h .sck .hi
  edge h .data .hi
  edge h .sck .lo

/-- The loop of `SHIFTOUT8` over the bits still to send (R78). -/
def shiftOutBits (h : Handle) : List Level → Op Unit
  | [] => pure ()
  | b :: rest => do
    edge h .data b
    edge h .sck .hi
    edge h .sck .lo
    shiftOutBits h rest

/-- `SHIFTOUT8(b)` (R46, R78). -/
def shiftOut8 (h : Handle) (b : Byte) : Op Unit := shiftOutBits h (bitsMsbFirst b)

/-- `ACK()`; the result is `x[TXST]` as it has just been written (R79). -/
def ackClock (h : Handle) : Op TxStatus := do
  setMode h .data .inputPullup
  edge h .sck .hi
  let a0 ← readPin h .data
  edge h .sck .lo
  let a1 ← readPin h .data
  writeRegs fun r => { r with a0 := some a0, a1 := some a1, txst := some (ackStatus a0 a1) }
  pure (ackStatus a0 a1)

/-- `SENDCMD(c)`; the result is `x[TXST]` (R80). -/
def sendCommand (h : Handle) (c : Command) : Op TxStatus := do
  startSeq h
  shiftOut8 h c.code
  ackClock h

/-- The loop of `WAIT` (R81): `t0` is the first count, `last` the latest. HD2 (R118) makes every poll that does not see
`L` add at least `POLL_MS`, so the wait ends within the polls given by `maxPolls` and the bound is never met
(R81; Laws/Wait.lean proves it). -/
def waitPolls (h : Handle) (t0 : Millis) : Nat → Millis → Op WaitStatus
  | 0, _ => pure .timeout
  | n + 1, last => do
    delayMs Config.pollMs
    let v ← readPin h .data
    if v = .lo then pure .ready
    else do
      let t ← millisBounded (hd2Draw t0 last)
      if timedOut t0 t then pure .timeout else waitPolls h t0 n t

/-- `ceil(TIMEOUT_MS / POLL_MS)` (R81). -/
def maxPolls : Nat := (Config.timeoutMs + Config.pollMs - 1) / Config.pollMs

/-- `WAIT()`; the result is `x[WST]` (R81). -/
def waitReady (h : Handle) : Op WaitStatus := do
  setMode h .data .inputPullup
  let t0 ← readMillis
  let w ← waitPolls h t0 maxPolls t0
  writeRegs fun r => { r with wst := some w }
  pure w

/-- The loop of `SHIFTIN8` for the clocks still to come (R82). -/
def shiftInBits (h : Handle) : Nat → Byte → Op Byte
  | 0, acc => pure acc
  | n + 1, acc => do
    edge h .sck .hi
    let b ← readPin h .data
    edge h .sck .lo
    shiftInBits h n (shiftInBit acc b)

/-- `SHIFTIN8()`; the result is `x[BYTE]` (R82). -/
def shiftIn8 (h : Handle) : Op Byte := do
  let acc ← shiftInBits h 8 0#8
  writeRegs fun r => { r with byte := some acc }
  pure acc

/-- `MIDACK()` (R83). -/
def midAck (h : Handle) : Op Unit := do
  setMode h .data .out
  edge h .data .lo
  edge h .sck .hi
  edge h .sck .lo

/-- `READ16()`; the result is `x[D16]` (R45, R84). -/
def shiftIn16 (h : Handle) : Op Raw := do
  setMode h .data .inputPullup
  let hi ← shiftIn8 h
  midAck h
  setMode h .data .inputPullup
  let lo ← shiftIn8 h
  writeRegs fun r => { r with d16 := some (rawOfBytes hi lo) }
  pure (rawOfBytes hi lo)

/-- `CRCSKIP()` (R85). -/
def crcSkip (h : Handle) : Op Unit := do
  setMode h .data .out
  edge h .data .hi
  edge h .sck .hi
  edge h .sck .lo

/-- The end of `READRAW` (R86): the raw/status pair of the command, the raw code `⊥` unless the status is OK. -/
def recordExchange (c : Command) (st : Status) (raw : Option Raw) : Op Status := do
  match c with
  | .measT => writeRegs fun r => { r with rstT := some st, rawT := raw }
  | .measRH => writeRegs fun r => { r with rstH := some st, rawH := raw }
  pure st

/-- `READRAW(c)`; the result is the exchange's status (R86). -/
def readRaw (h : Handle) (c : Command) : Op Status := do
  let tx ← sendCommand h c
  if tx ≠ .ok then recordExchange c (statusOfTx tx) none
  else do
    let w ← waitReady h
    if w = .timeout then recordExchange c .eTimeout none
    else do
      let d ← shiftIn16 h
      crcSkip h
      recordExchange c .ok (some d)

/-- `START` (R77). -/
def execStart (s : State) : Host.Outcome State Fault Refusal :=
  finish (withHandle fun h => startSeq h) s

/-- `SHIFTOUT8 cmd8` (R78): any byte. -/
def execShiftout8 (cmd8 : Byte) (s : State) : Host.Outcome State Fault Refusal :=
  finish (withHandle fun h => shiftOut8 h cmd8) s

/-- `ACK` (R79). -/
def execAck (s : State) : Host.Outcome State Fault Refusal :=
  finish (withHandle fun h => do let _ ← ackClock h) s

/-- `SENDCMD cmd8` (R80). -/
def execSendcmd (cmd8 : Byte) (s : State) : Host.Outcome State Fault Refusal :=
  finish (do
    let c ← requireCommand cmd8
    withHandle fun h => do let _ ← sendCommand h c) s

/-- `WAIT` (R81). -/
def execWait (s : State) : Host.Outcome State Fault Refusal :=
  finish (withHandle fun h => do let _ ← waitReady h) s

/-- `SHIFTIN8` (R82). -/
def execShiftin8 (s : State) : Host.Outcome State Fault Refusal :=
  finish (withHandle fun h => do let _ ← shiftIn8 h) s

/-- `MIDACK` (R83). -/
def execMidack (s : State) : Host.Outcome State Fault Refusal :=
  finish (withHandle fun h => midAck h) s

/-- `READ16` (R84). -/
def execRead16 (s : State) : Host.Outcome State Fault Refusal :=
  finish (withHandle fun h => do let _ ← shiftIn16 h) s

/-- `CRCSKIP` (R85). -/
def execCrcskip (s : State) : Host.Outcome State Fault Refusal :=
  finish (withHandle fun h => crcSkip h) s

/-- `READRAW cmd8` (R86). -/
def execReadraw (cmd8 : Byte) (s : State) : Host.Outcome State Fault Refusal :=
  finish (do
    let c ← requireCommand cmd8
    withHandle fun h => do let _ ← readRaw h c) s

end Sys2Proof.Machine
end

