-- ==== Sys2Proof/Machine/Api.lean ====
section
/-! DEFINITION. The public operations (spec 43_public_api R98 to R105). -/

namespace Sys2Proof.Machine

/-- `CONSTRUCT` (R98): the one operation that needs no handle; it writes the six configuration registers, once. -/
def constructHandle (h : Handle) : Op Unit := fun s =>
  match s.handle with
  | some _ => .error (.fault .reconstruct) s
  | none => .ok () { s with handle := some h }

/-- `READ_RH()` (R102): the humidity exchange first, no temperature exchange after it has failed. -/
def readHumidity (h : Handle) : Op Unit := do
  let st ← readRaw h .measRH
  if st ≠ .ok then writeRegs fun r => { r with out := some .invalid }
  else do
    let _ ← readRaw h .measT
    convCelsius h
    convHumidity h

/-- `CONSTRUCT dpin, cpin, v, t, h` (R98). -/
def execConstruct (dpin cpin : Byte) (v : VClass) (t : TRes) (h : HRes) (s : State) :
    Host.Outcome State Fault Refusal :=
  finish (constructHandle { dpin := dpin, cpin := cpin, v := v, t := t, h := h }) s

/-- `READ_C` (R100). -/
def execReadC (s : State) : Host.Outcome State Fault Refusal :=
  finish (withHandle fun h => do
    let _ ← readRaw h .measT
    convCelsius h) s

/-- `READ_F` (R101). -/
def execReadF (s : State) : Host.Outcome State Fault Refusal :=
  finish (withHandle fun h => do
    let _ ← readRaw h .measT
    convFahrenheit h) s

/-- `READ_RH` (R102). -/
def execReadRh (s : State) : Host.Outcome State Fault Refusal :=
  finish (withHandle fun h => readHumidity h) s

end Sys2Proof.Machine
end

