-- ==== Sys2Proof/Machine/Primitives.lean ====
section
/-! DEFINITION. The pin primitives as operations (spec 40_pin_primitives R70 to R75). -/

namespace Sys2Proof.Machine

/-- `SETMODE pin, mode` (R70). -/
def execSetmode (p : Pin) (m : PinMode) (s : State) : Host.Outcome State Fault Refusal :=
  finish (withHandle fun h => setMode h p m) s

/-- `WRITE pin, level` (R71). -/
def execWrite (p : Pin) (l : Level) (s : State) : Host.Outcome State Fault Refusal :=
  finish (withHandle fun h => writePin h p l) s

/-- `READ pin` (R72). -/
def execRead (p : Pin) (s : State) : Host.Outcome State Fault Refusal :=
  finish (withHandle fun h => do
    let l ← readPin h p
    writeRegs fun r => { r with smp := some l }) s

/-- `DLY_US count` (R73); the count is zero-extended (R59). -/
def execDlyUs (count : BitVec 24) (s : State) : Host.Outcome State Fault Refusal :=
  finish (withHandle fun _ => delayUs count.toNat) s

/-- `DLY_MS count` (R74). -/
def execDlyMs (count : BitVec 24) (s : State) : Host.Outcome State Fault Refusal :=
  finish (withHandle fun _ => delayMs count.toNat) s

/-- `MILLIS` (R75). -/
def execMillis (s : State) : Host.Outcome State Fault Refusal :=
  finish (withHandle fun _ => do
    let t ← readMillis
    writeRegs fun r => { r with ms := some t }) s

end Sys2Proof.Machine
end

