-- ==== Sys2Proof/Machine/Dispatch.lean ====
section
/-! DEFINITION. The dispatch: one arm per operation of spec/opcode_table.json (R62). -/

namespace Sys2Proof.Machine

def exec (i : Instr) (s : State) : Host.Outcome State Fault Refusal :=
  match i with
  | .setmode p m => Sys2Proof.Machine.execSetmode p m s
  | .write p l => Sys2Proof.Machine.execWrite p l s
  | .read p => Sys2Proof.Machine.execRead p s
  | .dlyUs n => Sys2Proof.Machine.execDlyUs n s
  | .dlyMs n => Sys2Proof.Machine.execDlyMs n s
  | .millis => Sys2Proof.Machine.execMillis s
  | .start => Sys2Proof.Machine.execStart s
  | .shiftout8 c => Sys2Proof.Machine.execShiftout8 c s
  | .ack => Sys2Proof.Machine.execAck s
  | .sendcmd c => Sys2Proof.Machine.execSendcmd c s
  | .wait => Sys2Proof.Machine.execWait s
  | .shiftin8 => Sys2Proof.Machine.execShiftin8 s
  | .midack => Sys2Proof.Machine.execMidack s
  | .read16 => Sys2Proof.Machine.execRead16 s
  | .crcskip => Sys2Proof.Machine.execCrcskip s
  | .readraw c => Sys2Proof.Machine.execReadraw c s
  | .convC => Sys2Proof.Machine.execConvC s
  | .convF => Sys2Proof.Machine.execConvF s
  | .convRh => Sys2Proof.Machine.execConvRh s
  | .construct d k v t h => Sys2Proof.Machine.execConstruct d k v t h s
  | .readC => Sys2Proof.Machine.execReadC s
  | .readF => Sys2Proof.Machine.execReadF s
  | .readRh => Sys2Proof.Machine.execReadRh s

end Sys2Proof.Machine
end

