-- ==== Sys2Proof/Machine/Step.lean ====
section
/-! DEFINITION. One step of the engine: one operation, fetched by index, run to its end (R16, R32, R106). -/

namespace Sys2Proof.Machine

/-- A stopped machine does not move (R34, R115), nor does one whose run has ended (R128). Otherwise the word at `pc` is
decoded, a rejected word takes its model fault (R60, R110 (1)), and an operation is executed. -/
def step (s : State) : Host.Outcome State Fault Refusal :=
  match s.fault, s.refused, fetch s with
  | some f, _, _ => .fault (.stopped f)
  | none, true, _ => .refused .openParam
  | none, false, none => .fault .runEnded
  | none, false, some w =>
    match decode w with
    | .error d => .next (takeFault (faultOfDecode d) s)
    | .ok i => exec i s

/-- `s` with the word of an instruction at `pc`, so that the next step fetches it (log entry 5). -/
def State.withFetchWord (s : State) (nbits w : Nat) : State :=
  { s with program := putWord s.program s.pc (BitVec.ofNat 32 (w % 2 ^ nbits)) }

end Sys2Proof.Machine
end

