-- ==== Sys2Proof/Machine/Assembler.lean ====
section
/-! DEFINITION. The assembler syntax and the pseudo-instructions (R65, R66, R99). One operation per line: the mnemonic,
a space, then the operands separated by commas. The block itself never sees this text. -/

namespace Sys2Proof.Machine

/-- The operations a pseudo-instruction stands for (R66); `CONSTRUCT_DEFAULT` takes the defaults of R99. -/
def expandPseudo : Pseudo → List Instr
  | .measureT => [.readraw Config.codeMeasT]
  | .measureRh => [.readraw Config.codeMeasRH]
  | .inputData => [.setmode .data .inputPullup]
  | .outputData => [.setmode .data .out]
  | .pulse => [.write .sck .hi, .write .sck .lo]
  | .constructDefault d k => [.construct d k Config.defaultV Config.defaultTR Config.defaultHR]

/-- The text cut at every occurrence of a character. -/
def splitChars (c : Char) : List Char → List (List Char)
  | [] => [[]]
  | x :: rest =>
    if x = c then [] :: splitChars c rest
    else match splitChars c rest with
      | [] => [[x]]
      | first :: more => (x :: first) :: more

/-- The text without the spaces around it. -/
def trimChars (t : List Char) : List Char :=
  ((t.dropWhile (· = ' ')).reverse.dropWhile (· = ' ')).reverse

/-- The value of a digit in a base up to 16. -/
def digitValue (base : Nat) (c : Char) : Option Nat :=
  let n := c.toNat
  let v := if 48 ≤ n && n ≤ 57 then n - 48
    else if 65 ≤ n && n ≤ 70 then n - 55
    else if 97 ≤ n && n ≤ 102 then n - 87
    else 16
  if v < base then some v else none

/-- A run of digits read after a value. -/
def digitsValue (base acc : Nat) : List Char → Option Nat
  | [] => some acc
  | c :: rest => (digitValue base c).bind fun v => digitsValue base (acc * base + v) rest

/-- A decimal number, or a hexadecimal one with `0x` (R65). -/
def parseNumber : List Char → Option Nat
  | [] => none
  | '0' :: 'x' :: c :: rest => digitsValue 16 0 (c :: rest)
  | c :: rest => digitsValue 10 0 (c :: rest)

/-- A number below a bound. -/
def parseBelow (bound : Nat) (t : List Char) : Option Nat :=
  (parseNumber t).bind fun n => if n < bound then some n else none

/-- The first entry of a table whose spelling is the text. -/
def parseName {α : Type} (table : List (String × α)) (t : List Char) : Option α :=
  (table.find? fun e => e.1.toList == t).map (·.2)

/-- pin (R65). -/
def parsePin : List Char → Option Pin := parseName [("DATA", .data), ("SCK", .sck)]

/-- mode (R65). -/
def parseMode : List Char → Option PinMode := parseName [("OUT", .out), ("IN", .input), ("IN_PU", .inputPullup)]

/-- level (R65). -/
def parseLevel : List Char → Option Level := parseName [("L", .lo), ("H", .hi)]

/-- count (R59, R65). -/
def parseCount (t : List Char) : Option (BitVec 24) := (parseBelow (2 ^ 24) t).map (BitVec.ofNat 24)

/-- A byte literal, `dpin` or `cpin`: a number 0 to 255 (R65). -/
def parseByte (t : List Char) : Option Byte := (parseBelow 256 t).map (BitVec.ofNat 8)

/-- cmd8: `MEAS_T`, `MEAS_RH` or a byte literal (R65). -/
def parseCmd8 (t : List Char) : Option Byte :=
  (parseName [("MEAS_T", Config.codeMeasT), ("MEAS_RH", Config.codeMeasRH)] t).orElse fun _ => parseByte t

/-- voltage class (R65). -/
def parseVClass : List Char → Option VClass :=
  parseName [("V5_0", .v5_0), ("V4_0", .v4_0), ("V3_5", .v3_5), ("V3_0", .v3_0), ("V2_5", .v2_5), ("V_X", .vX)]

/-- temperature resolution (R65). -/
def parseTRes : List Char → Option TRes := parseName [("T14", .t14), ("T12", .t12)]

/-- humidity resolution (R65). -/
def parseHRes : List Char → Option HRes := parseName [("H12", .h12), ("H8", .h8)]

/-- The mnemonics as the table spells them (R62). -/
def mnemonicTable : List (String × Mnemonic) :=
  [("SETMODE", .SETMODE), ("WRITE", .WRITE), ("READ", .READ), ("DLY_US", .DLY_US), ("DLY_MS", .DLY_MS),
   ("MILLIS", .MILLIS), ("START", .START), ("SHIFTOUT8", .SHIFTOUT8), ("ACK", .ACK), ("SENDCMD", .SENDCMD),
   ("WAIT", .WAIT), ("SHIFTIN8", .SHIFTIN8), ("MIDACK", .MIDACK), ("READ16", .READ16), ("CRCSKIP", .CRCSKIP),
   ("READRAW", .READRAW), ("CONV_C", .CONV_C), ("CONV_F", .CONV_F), ("CONV_RH", .CONV_RH),
   ("CONSTRUCT", .CONSTRUCT), ("READ_C", .READ_C), ("READ_F", .READ_F), ("READ_RH", .READ_RH)]

/-- An operation from its mnemonic and the texts of its operands (R65). -/
def parseInstr (m : Mnemonic) (ops : List (List Char)) : Option Instr :=
  match m, ops with
  | .SETMODE, [p, d] => do return .setmode (← parsePin p) (← parseMode d)
  | .WRITE, [p, l] => do return .write (← parsePin p) (← parseLevel l)
  | .READ, [p] => do return .read (← parsePin p)
  | .DLY_US, [n] => do return .dlyUs (← parseCount n)
  | .DLY_MS, [n] => do return .dlyMs (← parseCount n)
  | .SHIFTOUT8, [c] => do return .shiftout8 (← parseCmd8 c)
  | .SENDCMD, [c] => do return .sendcmd (← parseCmd8 c)
  | .READRAW, [c] => do return .readraw (← parseCmd8 c)
  | .CONSTRUCT, [d, k, v, t, h] => do
    return .construct (← parseByte d) (← parseByte k) (← parseVClass v) (← parseTRes t) (← parseHRes h)
  | .MILLIS, [] => some .millis
  | .START, [] => some .start
  | .ACK, [] => some .ack
  | .WAIT, [] => some .wait
  | .SHIFTIN8, [] => some .shiftin8
  | .MIDACK, [] => some .midack
  | .READ16, [] => some .read16
  | .CRCSKIP, [] => some .crcskip
  | .CONV_C, [] => some .convC
  | .CONV_F, [] => some .convF
  | .CONV_RH, [] => some .convRh
  | .READ_C, [] => some .readC
  | .READ_F, [] => some .readF
  | .READ_RH, [] => some .readRh
  | _, _ => none

/-- A pseudo-instruction from its name and the texts of its operands (R66). -/
def parsePseudo (name : List Char) (ops : List (List Char)) : Option Pseudo :=
  match ops with
  | [] => parseName [("MEASURE_T", .measureT), ("MEASURE_RH", .measureRh), ("INPUT_DATA", .inputData),
      ("OUTPUT_DATA", .outputData), ("PULSE", .pulse)] name
  | [d, k] => if name == "CONSTRUCT_DEFAULT".toList then do return .constructDefault (← parseByte d) (← parseByte k)
      else none
  | _ => none

/-- The name at the head of a line and the texts of its operands. -/
def splitLine (line : List Char) : List Char × List (List Char) :=
  let name := line.takeWhile (· ≠ ' ')
  match trimChars (line.dropWhile (· ≠ ' ')) with
  | [] => (name, [])
  | rest => (name, (splitChars ',' rest).map trimChars)

/-- The operations of one line: a mnemonic's, or a pseudo-instruction's expansion (R65, R66). -/
def parseLine (line : String) : Option (List Instr) :=
  let parts := splitLine (trimChars line.toList)
  match parseName mnemonicTable parts.1 with
  | some m => (parseInstr m parts.2).map fun i => [i]
  | none => (parsePseudo parts.1 parts.2).map expandPseudo

/-- The words of one line (R65, R66). A byte literal that is no command code still assembles; its word is rejected by
the decoder (R59, R60). -/
def assembleLine (line : String) : Option (List Word) := (parseLine line).map fun is => is.map encode

end Sys2Proof.Machine
end

