-- ==== Sys2Proof/Machine/Compat.lean ====
section
/-! DEFINITION. The compatibility view of the source's original API (R103, R105; 90_conflicts C8): a function of the
state and no state of its own. -/

namespace Sys2Proof.Machine

/-- The float a result reads as: `Val(f)` is `f`, `Invalid` is the NaN of pattern `NAN_BITS` (R103). -/
def compatFloat : Reading → F32
  | .val f => f
  | .invalid => Config.nanBits

/-- The float `OUT` reads as, once something has been converted (R103). -/
def compatOut (s : State) : Option F32 := s.regs.out.map compatFloat

/-- `rawc(x)`: the raw code where the exchange's status is OK, and `SENTINEL` otherwise (R103). -/
def compatRaw (st : Option Status) (raw : Option Raw) : Raw :=
  if st = some .ok then raw.getD Config.sentinel else Config.sentinel

/-- The raw temperature code in the compatibility view (R103). -/
def compatRawT (s : State) : Raw := compatRaw s.regs.rstT s.regs.rawT

/-- The raw humidity code in the compatibility view (R103). -/
def compatRawH (s : State) : Raw := compatRaw s.regs.rstH s.regs.rawH

end Sys2Proof.Machine
end

