-- ==== Sys2Proof/Machine/Sensor.lean ====
section
/-! DEFINITION. The scripts of R87: what a conforming and what a silent sensor answers. They are data a state's
`env.levels` may hold, for tests and for statements that name them; the machine itself assumes nothing of the sensor
(R38). -/

namespace Sys2Proof.Machine

/-- The answers of a conforming sensor to one `READRAW`: the acknowledgment, `k` polls of which the last is ready
(`k` at least 1), then the two bytes of its code, most significant bit first (R87). -/
def conformingScript (hi lo : Byte) (k : Nat) : List Level :=
  [.lo, .hi] ++ List.replicate (k - 1) .hi ++ [.lo] ++ bitsMsbFirst hi ++ bitsMsbFirst lo

/-- The answers of an absent or silent sensor, which the pull-up reads as `H` (R87). -/
def silentScript (n : Nat) : List Level := List.replicate n .hi

end Sys2Proof.Machine
end

