-- ==== Sys2Proof/Machine/Frames.lean ====
section
/-! DEFINITION. The wire frames of one transaction as event lists (R64), written from the rules of the
sub-operations R76 to R85. The machine does not call these: statements and laws compare what it emits with them. -/

namespace Sys2Proof.Machine

/-- One line change and its delay (R76). -/
def edgeEvents (h : Handle) (p : Pin) (l : Level) : List Event :=
  [.write (hostPin h p) l, .delayUs Config.tEdgeUs]

/-- Frame (1), transmission start: DATA and SCK to `OUT`; DATA H, SCK H, DATA L, SCK L, SCK H, DATA H, SCK L (R77). -/
def startEvents (h : Handle) : List Event :=
  [.setMode h.dpin .out, .setMode h.cpin .out]
    ++ edgeEvents h .data .hi ++ edgeEvents h .sck .hi ++ edgeEvents h .data .lo ++ edgeEvents h .sck .lo
    ++ edgeEvents h .sck .hi ++ edgeEvents h .data .hi ++ edgeEvents h .sck .lo

/-- One driven bit: the DATA level, then one SCK pulse (R78). -/
def driveBitEvents (h : Handle) (l : Level) : List Event :=
  edgeEvents h .data l ++ edgeEvents h .sck .hi ++ edgeEvents h .sck .lo

/-- Driven bits, in the order given (R78). -/
def driveEvents (h : Handle) (ls : List Level) : List Event := ls.flatMap (driveBitEvents h)

/-- Frame (2), command: 8 clocks, most significant bit first (R46, R78). -/
def commandEvents (h : Handle) (b : Byte) : List Event := driveEvents h (bitsMsbFirst b)

/-- Frame (3), command ack: DATA released, sampled with SCK high and after SCK has fallen (R79). -/
def ackEvents (h : Handle) (a0 a1 : Level) : List Event :=
  [.setMode h.dpin .inputPullup] ++ edgeEvents h .sck .hi ++ [.read h.dpin a0] ++ edgeEvents h .sck .lo
    ++ [.read h.dpin a1]

/-- Frames (1) to (3) (R80). -/
def sendEvents (h : Handle) (b : Byte) (a0 a1 : Level) : List Event :=
  startEvents h ++ commandEvents h b ++ ackEvents h a0 a1

/-- A poll that does not see `L`, with the count drawn after it (R81). -/
def busyPollEvents (h : Handle) (t : Millis) : List Event :=
  [.delayMs Config.pollMs, .read h.dpin .hi, .millis t]

/-- A poll that sees `L` (R81). -/
def readyPollEvents (h : Handle) : List Event := [.delayMs Config.pollMs, .read h.dpin .lo]

/-- One sampled bit: SCK high, the sample, SCK low (R82). -/
def sampleBitEvents (h : Handle) (l : Level) : List Event :=
  edgeEvents h .sck .hi ++ [.read h.dpin l] ++ edgeEvents h .sck .lo

/-- Frames (5) and (7): sampled bits, in the order read (R82). -/
def sampleEvents (h : Handle) (ls : List Level) : List Event := ls.flatMap (sampleBitEvents h)

/-- Frame (6), byte ack: one clock with DATA driven low (R83). -/
def midAckEvents (h : Handle) : List Event :=
  [.setMode h.dpin .out] ++ edgeEvents h .data .lo ++ edgeEvents h .sck .hi ++ edgeEvents h .sck .lo

/-- Frames (5) to (7): the two bytes (R84). -/
def read16Events (h : Handle) (first second : List Level) : List Event :=
  [.setMode h.dpin .inputPullup] ++ sampleEvents h first ++ midAckEvents h
    ++ [.setMode h.dpin .inputPullup] ++ sampleEvents h second

/-- Frame (8), CRC skip: one clock with DATA driven high, no CRC bit (R85). -/
def crcSkipEvents (h : Handle) : List Event :=
  [.setMode h.dpin .out] ++ edgeEvents h .data .hi ++ edgeEvents h .sck .hi ++ edgeEvents h .sck .lo

/-- The levels of the `Read` events of an event list, in order. -/
def readLevels (es : List Event) : List Level :=
  es.filterMap fun e => match e with
    | .read _ l => some l
    | _ => none

/-- The counts of the `Millis` events of an event list, in order. -/
def millisCounts (es : List Event) : List Millis :=
  es.filterMap fun e => match e with
    | .millis t => some t
    | _ => none

/-- The sum of the `DelayMs` counts of an event list (R118 HD2). -/
def delaySum (es : List Event) : Nat :=
  (es.map fun e => match e with
    | .delayMs n => n
    | _ => 0).sum

end Sys2Proof.Machine
end

