-- ==== Sys2Proof/Machine/Run.lean ====
section
/-! DEFINITION. The end of a run and what is observed of a final one (R128). -/

namespace Sys2Proof.Machine

/-- Final: `pc` equals the program length, no fault, no refusal (R128). -/
def isFinal (s : State) : Bool := s.pc == s.program.length && s.fault.isNone && !s.refused

/-- Faulted: `FAULT` is set; never final (R34, R128). -/
def isFaulted (s : State) : Bool := s.fault.isSome

/-- Refused: `REFUSED` is 1; never final (R34, R128). -/
def isRefused (s : State) : Bool := s.refused

/-- The observation of a final run: the registers of R20 and R27, the pin state of R25 and the trace of R37 (R128). -/
structure Observation where
  handle : Option Handle
  regs : Regs
  pins : Pins
  trace : List Event
deriving DecidableEq, Repr

/-- What is observed of a final state (R128). -/
def observe (s : State) : Option Observation :=
  if isFinal s then some { handle := s.handle, regs := s.regs, pins := s.pins, trace := s.trace } else none

end Sys2Proof.Machine
end

