-- ==== Sys2Proof/Safety.lean ====
section
/-! DEFINITION. What a good state of the machine is: the relations between the parts of the state that the rules give
and every step keeps, and host duty HD2 read off an event list. -/

namespace Sys2Proof

open Machine

/-- The relations between the parts of a state. -/
structure Inv (s : State) : Prop where
  /-- A raw temperature code is there exactly when its status is OK (R29, R86). -/
  rawT : s.regs.rawT.isSome = true ↔ s.regs.rstT = some .ok
  /-- A raw humidity code is there exactly when its status is OK (R29, R86). -/
  rawH : s.regs.rawH.isSome = true ↔ s.regs.rstH = some .ok
  /-- `TXST` is what the two samples say, and the three are written together (R79). -/
  ack : (s.regs.a0 = none ∧ s.regs.a1 = none ∧ s.regs.txst = none) ∨
    ∃ a0 a1, s.regs.a0 = some a0 ∧ s.regs.a1 = some a1 ∧ s.regs.txst = some (ackStatus a0 a1)
  /-- `TC` is written only together with `OUT` (R92). -/
  result : s.regs.tc.isSome = true → s.regs.out.isSome = true
  /-- A pin with a latched level has had its mode set (R69). -/
  latch : ∀ p, (pinLatch s.pins p).isSome = true → (pinMode s.pins p).isSome = true
  /-- Before `CONSTRUCT` nothing has been done (R110, R126). -/
  noHandle : s.handle = none → s.regs = Regs.unwritten ∧ s.pins = Pins.unknown ∧ s.trace = []
  /-- The handle faults happen on their own side of `CONSTRUCT` (R110). -/
  handleFaults : (s.fault = some .noHandle → s.handle = none) ∧ (s.fault = some .reconstruct → s.handle ≠ none)
  /-- A machine is not both faulted and refused (R34, R106). -/
  oneStop : s.fault = none ∨ s.refused = false
  /-- A refused machine's handle has a class with an unsupplied coefficient (R109). -/
  refusal : s.refused = true → ∃ h, s.handle = some h ∧ s.coeff.supplied h.v h.t h.h = false
  /-- The coefficient parameter holds the two values of the source (R89). -/
  source : s.coeff.holdsSource = true
  /-- `pc` ranges from 0 to the program length (R32). -/
  pc : s.pc ≤ s.program.length

/-- Host duty HD2 (R118), read off the events of one `WAIT`: of two counts, the later is ahead modulo 2^32 by at least
the delays between them, and by less than 2^32 - TIMEOUT_MS. -/
def HostDuty2 (es : List Event) : Prop :=
  ∀ before between after ta tb, es = before ++ .millis ta :: (between ++ .millis tb :: after) →
    delaySum between ≤ (tb - ta).toNat ∧ (tb - ta).toNat < 2 ^ 32 - Config.timeoutMs

end Sys2Proof
end

