-- ==== Sys2Proof/Certificates/Slice0/Obligations.lean ====
section
/-! DEFINITION. The statements for the provers, by the rules of spec/. A statement about a draw (`drawLevel`,
`drawLevels`, `drawCount`: the environment's answers, held as log entry 2 says) holds for every script and every free
value; a statement about a delay holds for every `T_EDGE_US`. -/

section Statements

open Sys2Proof Sys2Proof.Machine

/-! ## Words the statements share -/

/-- The state an operation leaves when the `write` helper breaks it off (R69, R111). -/
def Sys2Proof.Claims.notOutput (s : State) (events : List Event) (pins : Pins) : State :=
  { s with fault := some .pinNotOutput, trace := s.trace ++ events, pins := pins }

/-- The raw/status pair that a `READRAW` of a command writes (R86). -/
def Sys2Proof.Claims.withExchange (c : Command) (st : Status) (raw : Option Raw) (s : State) : State :=
  match c with
  | .measT => { s with regs := { s.regs with rstT := some st, rawT := raw } }
  | .measRH => { s with regs := { s.regs with rstH := some st, rawH := raw } }

/-- The opcodes of R62. -/
def Sys2Proof.Claims.assignedOpcodes : List Nat :=
  [0x01, 0x02, 0x03, 0x04, 0x05, 0x06, 0x10, 0x11, 0x12, 0x13, 0x14, 0x15, 0x16, 0x17, 0x18, 0x19,
   0x20, 0x21, 0x22, 0x30, 0x31, 0x32, 0x33]

/-- The reserved bits of an assigned opcode's format (R58, R62). -/
def Sys2Proof.Claims.reservedBits (opc : Nat) : Word :=
  if opc = 0x01 then 0x00FF00FC#32
  else if opc = 0x02 then 0x00FF00FE#32
  else if opc = 0x03 then 0x00FF00FF#32
  else if opc = 0x04 ∨ opc = 0x05 then 0#32
  else if opc = 0x11 ∨ opc = 0x13 ∨ opc = 0x19 then 0x00FFFF00#32
  else if opc = 0x30 then 0x000000E0#32
  else 0x00FFFFFF#32

/-- An operand value is illegal, by the opcode, `w[15:8]` and `w[7:0]` (R59). -/
def Sys2Proof.Claims.IllegalFields (opc middle low : Nat) : Prop :=
  ((opc = 0x01 ∨ opc = 0x02 ∨ opc = 0x03) ∧ 2 ≤ middle) ∨
  (opc = 0x01 ∧ low % 4 = 3) ∨
  ((opc = 0x13 ∨ opc = 0x19) ∧ low ≠ 0x03 ∧ low ≠ 0x05) ∨
  (opc = 0x30 ∧ 6 ≤ low / 4 % 8)

/-- An operand value of the word is illegal (R59). -/
def Sys2Proof.Claims.IllegalOperand (w : Word) : Prop :=
  IllegalFields (w.toNat / 2 ^ 24) (w.toNat / 2 ^ 8 % 2 ^ 8) (w.toNat % 2 ^ 8)

/-- The decode faults of the words of one opcode: a reserved bit first, then an illegal operand value (R60 (2), (3)). -/
def Sys2Proof.Claims.RejectsBadWords (opc : Nat) : Prop :=
  ∀ x : Word, x.toNat / 2 ^ 24 = opc →
    (x &&& reservedBits opc ≠ 0#32 → decode x = .error .reservedBits) ∧
    (x &&& reservedBits opc = 0#32 → IllegalOperand x → decode x = .error .badOperand)

/-- An operation has this word (its rule's "Encoding"), the decoder reads it back and rejects the opcode's bad words,
and without a handle it takes `F_NO_HANDLE` with the state as it stood (its rule's "Exceptions"; R60, R110, R111). -/
def Sys2Proof.Claims.SpelledAndGuarded (i : Instr) (w : Word) : Prop :=
  encode i = w ∧ decode w = .ok i ∧ RejectsBadWords (w.toNat / 2 ^ 24) ∧
    ∀ s : State, s.handle = none → exec i s = .next { s with fault := some .noHandle }

/-- The events of one exchange that ended with a status (R86, R136). -/
def Sys2Proof.Claims.exchangeCount (st : Option Status) (m : Nat) : Prop :=
  ((st = some .eAck0 ∨ st = some .eAck1) ∧ m = 71) ∨
  (st = some .eTimeout ∧ ∃ n, 1 ≤ n ∧ n ≤ 100 ∧ m = 3 * n + 73) ∨
  (st = some .ok ∧ ∃ k, 1 ≤ k ∧ k ≤ 100 ∧ m = 3 * k + 168)

/-- The five humidity coefficients of the handle's class are supplied (R94, R109). -/
def Sys2Proof.Claims.humiditySupplied (s : State) (h : Handle) : Bool :=
  (s.coeff.c1.get h.h).isSome && (s.coeff.c2.get h.h).isSome && (s.coeff.c3.get h.h).isSome &&
    (s.coeff.t1.get h.h).isSome && (s.coeff.t2.get h.h).isSome

/-- `r` is the number `exact / scale`, in units of 2^-149, rounded to nearest, ties to even: finite below the midpoint
above the largest finite number, no finite number nearer, an even significand where another is as near; and from the
midpoint on the infinity of its sign (R13, R91; the infinity by IEEE 754, log entry 19). -/
def Sys2Proof.Claims.RoundedNearestEven (exact : Int) (scale : Nat) (r : F32) : Prop :=
  (exact.natAbs < (2 ^ 128 - 2 ^ 103) * 2 ^ 149 * scale →
    floatFinite r = true ∧ ∀ z : F32, floatFinite z = true →
      (exact - floatInt r * scale).natAbs ≤ (exact - floatInt z * scale).natAbs ∧
      ((exact - floatInt r * scale).natAbs = (exact - floatInt z * scale).natAbs →
        floatInt z ≠ floatInt r → floatFrac r % 2 = 0)) ∧
  ((2 ^ 128 - 2 ^ 103) * 2 ^ 149 * scale ≤ exact.natAbs → floatInf r = true ∧ floatSign r = decide (exact < 0))

/-- The operations that emit protocol events: those of 41_protocol_engine and the public reads built from them. -/
def Sys2Proof.Claims.isProtocol : Instr → Bool
  | .start | .shiftout8 _ | .ack | .sendcmd _ | .wait | .shiftin8 | .midack | .read16 | .crcskip | .readraw _
  | .readC | .readF | .readRh => true
  | _ => false

open Sys2Proof.Claims

/-! ## Encoding -/

/-- Decoding an encoded well-formed operation gives it back: no operand bit is dropped (R57 to R62). -/
def Obligations.DecodeOfEncode : Prop :=
  ∀ i : Instr, i.wellFormed = true → decode (encode i) = .ok i

/-- A word that decodes is the encoding of what it decodes to, and that is well formed: no two words are one operation
and no reserved bit is ignored (R58, R60, R63). -/
def Obligations.DecodedWordIsItsEncoding : Prop :=
  ∀ (w : Word) (i : Instr), decode w = .ok i → i.wellFormed = true ∧ encode i = w

/-- R60: the three checks, in their order, and a word that passes all three is well formed. -/
def Obligations.DecodeChecksInOrder : Prop :=
  ∀ w : Word,
    (w.toNat / 2 ^ 24 ∉ assignedOpcodes → decode w = .error .illegalOpcode) ∧
    (w.toNat / 2 ^ 24 ∈ assignedOpcodes →
      (w &&& reservedBits (w.toNat / 2 ^ 24) ≠ 0#32 → decode w = .error .reservedBits) ∧
      (w &&& reservedBits (w.toNat / 2 ^ 24) = 0#32 →
        (IllegalOperand w → decode w = .error .badOperand) ∧
        (¬ IllegalOperand w → ∃ i, decode w = .ok i ∧ i.wellFormed = true)))

/-- Words written out from the formats of R58 and the examples of R65, one or more of each family, decode to the
operation they stand for. -/
def Obligations.WrittenOutWordsDecode : Prop :=
  decode 0x01000002#32 = .ok (.setmode .data .inputPullup) ∧
  decode 0x02000101#32 = .ok (.write .sck .hi) ∧
  decode 0x03000100#32 = .ok (.read .sck) ∧
  decode 0x04FFFFFF#32 = .ok (.dlyUs 0xFFFFFF#24) ∧
  decode 0x0500000A#32 = .ok (.dlyMs 10#24) ∧
  decode 0x11000080#32 = .ok (.shiftout8 0x80#8) ∧
  decode 0x19000003#32 = .ok (.readraw 0x03#8) ∧
  decode 0x22000000#32 = .ok .convRh ∧
  decode 0x300A0B08#32 = .ok (.construct 10#8 11#8 .v3_5 .t14 .h12) ∧
  decode 0x30FF0017#32 = .ok (.construct 255#8 0#8 .vX .t12 .h8) ∧
  decode 0x33000000#32 = .ok .readRh

/-- R66: every pseudo-instruction assembles to the words of its expansion. -/
def Obligations.PseudoInstructionsExpand : Prop :=
  (expandPseudo .measureT).map encode = [0x19000003#32] ∧
  (expandPseudo .measureRh).map encode = [0x19000005#32] ∧
  (expandPseudo .inputData).map encode = [0x01000002#32] ∧
  (expandPseudo .outputData).map encode = [0x01000000#32] ∧
  (expandPseudo .pulse).map encode = [0x02000101#32, 0x02000100#32] ∧
  (∀ d k : Byte, (expandPseudo (.constructDefault d k)).map encode = [0x30#8 ++ (d ++ k ++ 0x08#8)])

/-! ## Reset, and the machine as a whole -/

/-- The state at reset (R40). -/
def Obligations.ResetState : Prop :=
  State.reset.pc = 0 ∧ State.reset.fault = none ∧ State.reset.refused = false ∧ State.reset.handle = none ∧
  State.reset.regs = ⟨none, none, none, none, none, none, none, none, none, none, none, none, none, none⟩ ∧
  State.reset.pins = ⟨none, none, none, none⟩ ∧ State.reset.trace = []

/-- The relations of `Inv` hold at reset. -/
def Obligations.ResetMeetsInvariant : Prop := Inv State.reset

/-- Every step keeps the relations of `Inv`: R29 (a raw code is there exactly when its status is OK) among them. -/
def Obligations.StepKeepsInvariant : Prop :=
  ∀ s t : State, Inv s → step s = .next t → Inv t

/-- A step runs the decoded operation: fetch, decode, and then `exec` at that very state. -/
def Obligations.StepRunsTheDecodedOperation : Prop :=
  ∀ (s : State) (w : Word) (i : Instr), s.fault = none → s.refused = false →
    s.program[s.pc]? = some w → decode w = .ok i → step s = exec i s

/-- A rejected word takes its model fault with the state as it stood (R110 (1), R111). -/
def Obligations.RejectedWordTakesItsFault : Prop :=
  ∀ (s : State) (w : Word), s.fault = none → s.refused = false → s.program[s.pc]? = some w →
    (decode w = .error .illegalOpcode → step s = .next { s with fault := some .illegalOpcode }) ∧
    (decode w = .error .reservedBits → step s = .next { s with fault := some .reservedBits }) ∧
    (decode w = .error .badOperand → step s = .next { s with fault := some .badOperand })

/-- R106: an operation ends in exactly one of three ways, and it always ends: completed with `pc` advanced, faulted
with `pc` at the word, or refused with `pc` at the word; after the last two no operation runs. -/
def Obligations.OperationEndsInOneOfThreeWays : Prop :=
  ∀ (s : State) (w : Word), s.fault = none → s.refused = false → s.program[s.pc]? = some w →
    ∃ t, step s = .next t ∧
      ((t.pc = s.pc + 1 ∧ t.fault = none ∧ t.refused = false) ∨
       (t.pc = s.pc ∧ t.fault ≠ none ∧ t.refused = false ∧ ∀ u, step t ≠ .next u) ∨
       (t.pc = s.pc ∧ t.fault = none ∧ t.refused = true ∧ ∀ u, step t ≠ .next u))

/-- A faulted or a refused machine never moves again, nor does one whose run has ended (R34, R115, R128). R128 speaks of
`pc` equal to the program length; that a `pc` beyond it does not move either is the model's choice (log entry 17). -/
def Obligations.StoppedMachineNeverMoves : Prop :=
  ∀ s t : State, s.fault ≠ none ∨ s.refused = true ∨ s.program.length ≤ s.pc → step s ≠ .next t

/-- R20: only `CONSTRUCT` writes the configuration, once, with its operands. -/
def Obligations.OnlyConstructWritesTheHandle : Prop :=
  ∀ (i : Instr) (s t : State), exec i s = .next t → t.handle ≠ s.handle →
    ∃ d k v tr hr, i = .construct d k v tr hr ∧ s.handle = none ∧ t.handle = some ⟨d, k, v, tr, hr⟩

/-- No operation writes the program (R56), and none writes the coefficient store (R33, R88). That the two arguments of a
run are fields of the state is the model's choice (log entries 4 and 5). -/
def Obligations.NoOperationWritesTheProgram : Prop :=
  ∀ (i : Instr) (s t : State), exec i s = .next t → t.program = s.program ∧ t.coeff = s.coeff

/-- R37: every event is appended and none is removed, also by an operation that faults in its middle (R111). -/
def Obligations.TraceOnlyGrows : Prop :=
  ∀ (i : Instr) (s t : State), exec i s = .next t → ∃ events, t.trace = s.trace ++ events

/-- The frame of the registers: each of the fourteen is changed only by the operations R27 lists as its writers and
the composite operations that run them (R31). -/
def Obligations.EachRegisterHasItsWriters : Prop :=
  ∀ (i : Instr) (s t : State), exec i s = .next t →
    (t.regs.smp ≠ s.regs.smp → ∃ p, i = .read p) ∧
    (t.regs.ms ≠ s.regs.ms → i = .millis) ∧
    (t.regs.a0 ≠ s.regs.a0 ∨ t.regs.a1 ≠ s.regs.a1 ∨ t.regs.txst ≠ s.regs.txst →
      i = .ack ∨ (∃ c, i = .sendcmd c) ∨ (∃ c, i = .readraw c) ∨ i = .readC ∨ i = .readF ∨ i = .readRh) ∧
    (t.regs.wst ≠ s.regs.wst → i = .wait ∨ (∃ c, i = .readraw c) ∨ i = .readC ∨ i = .readF ∨ i = .readRh) ∧
    (t.regs.byte ≠ s.regs.byte →
      i = .shiftin8 ∨ i = .read16 ∨ (∃ c, i = .readraw c) ∨ i = .readC ∨ i = .readF ∨ i = .readRh) ∧
    (t.regs.d16 ≠ s.regs.d16 →
      i = .read16 ∨ (∃ c, i = .readraw c) ∨ i = .readC ∨ i = .readF ∨ i = .readRh) ∧
    (t.regs.rawT ≠ s.regs.rawT ∨ t.regs.rstT ≠ s.regs.rstT →
      i = .readraw Config.codeMeasT ∨ i = .readC ∨ i = .readF ∨ i = .readRh) ∧
    (t.regs.rawH ≠ s.regs.rawH ∨ t.regs.rstH ≠ s.regs.rstH → i = .readraw Config.codeMeasRH ∨ i = .readRh) ∧
    (t.regs.tc ≠ s.regs.tc → i = .convC ∨ i = .readC ∨ i = .readRh) ∧
    (t.regs.out ≠ s.regs.out →
      i = .convC ∨ i = .convF ∨ i = .convRh ∨ i = .readC ∨ i = .readF ∨ i = .readRh)

/-- R17, R38: the sensor answers every `Read` and nothing else draws a level: the levels in the appended events are the
next answers of the sensor's stream, and the stream stands right after them. -/
def Obligations.SensorAnswersEveryRead : Prop :=
  ∀ (i : Instr) (s t : State), exec i s = .next t →
    ∃ events, t.trace = s.trace ++ events ∧
      readLevels events = (drawLevels (readLevels events).length s.env).1 ∧
      t.env.levels = (drawLevels (readLevels events).length s.env).2.levels ∧
      t.env.levelDraws = s.env.levelDraws + (readLevels events).length

/-- R76: in a protocol operation every `Write` is followed at once by one `DelayUs(T_EDGE_US)`, and there is no other
microsecond delay. -/
def Obligations.ProtocolWritesAreEdges : Prop :=
  ∀ (i : Instr) (s t : State), isProtocol i = true → exec i s = .next t →
    ∃ events, t.trace = s.trace ++ events ∧
      (∀ before p l after, events = before ++ .write p l :: after →
        ∃ rest, after = .delayUs Config.tEdgeUs :: rest) ∧
      (∀ before n after, events = before ++ .delayUs n :: after →
        n = Config.tEdgeUs ∧ ∃ rest p l, before = rest ++ [.write p l])

/-- R24: only the primitive `SETMODE` can take SCK out of output; every other operation leaves its mode or sets `OUT`. -/
def Obligations.ClockLineStaysOutput : Prop :=
  ∀ (i : Instr) (s t : State), exec i s = .next t → (∀ m, i ≠ .setmode .sck m) →
    t.pins.modeC = s.pins.modeC ∨ t.pins.modeC = some .out

/-! ## Pin primitives -/

/-- R70: `SETMODE`. -/
def Obligations.SetmodeSetsTheMode : Prop :=
  ∀ (p : Pin) (m : PinMode),
    SpelledAndGuarded (.setmode p m) (0x01#8 ++ (0x00#8 ++ p.code ++ (0b000000#6 ++ m.code))) ∧
    ∀ (s : State) (h : Handle), s.handle = some h →
      exec (.setmode p m) s = .next { s with
        pc := s.pc + 1, trace := s.trace ++ [.setMode (hostPin h p) m], pins := putMode s.pins p m }

/-- R71, R69: `WRITE` of a pin in `OUT` mode emits and latches; of a pin in any other mode it faults before the event. -/
def Obligations.WriteDrivesAnOutputPin : Prop :=
  ∀ (p : Pin) (l : Level),
    SpelledAndGuarded (.write p l) (0x02#8 ++ (0x00#8 ++ p.code ++ (0b0000000#7 ++ l.bit))) ∧
    ∀ (s : State) (h : Handle), s.handle = some h →
      (pinMode s.pins p = some .out → exec (.write p l) s = .next { s with
        pc := s.pc + 1, trace := s.trace ++ [.write (hostPin h p) l], pins := putLatch s.pins p l }) ∧
      (pinMode s.pins p ≠ some .out → exec (.write p l) s = .next { s with fault := some .pinNotOutput })

/-- R72, R68: `READ` samples a pin in whatever mode. -/
def Obligations.ReadSamplesInAnyMode : Prop :=
  ∀ p : Pin,
    SpelledAndGuarded (.read p) (0x03#8 ++ (0x00#8 ++ p.code ++ 0x00#8)) ∧
    ∀ (s : State) (h : Handle), s.handle = some h →
      exec (.read p) s = .next { s with
        pc := s.pc + 1, trace := s.trace ++ [.read (hostPin h p) (drawLevel s.env).1],
        regs := { s.regs with smp := some (drawLevel s.env).1 }, env := (drawLevel s.env).2 }

/-- R73, R74: the two delays emit their event and nothing else. -/
def Obligations.DelaysEmitTheirEvent : Prop :=
  ∀ n : BitVec 24,
    SpelledAndGuarded (.dlyUs n) (0x04#8 ++ n) ∧ SpelledAndGuarded (.dlyMs n) (0x05#8 ++ n) ∧
    ∀ (s : State) (h : Handle), s.handle = some h →
      exec (.dlyUs n) s = .next { s with pc := s.pc + 1, trace := s.trace ++ [.delayUs n.toNat] } ∧
      exec (.dlyMs n) s = .next { s with pc := s.pc + 1, trace := s.trace ++ [.delayMs n.toNat] }

/-- R75: `MILLIS` records the count it draws. -/
def Obligations.MillisRecordsTheCount : Prop :=
  SpelledAndGuarded .millis 0x06000000#32 ∧
  ∀ (s : State) (h : Handle), s.handle = some h →
    exec .millis s = .next { s with
      pc := s.pc + 1, trace := s.trace ++ [.millis (drawCount s.env).1],
      regs := { s.regs with ms := some (drawCount s.env).1 }, env := (drawCount s.env).2 }

/-! ## Protocol operations -/

/-- R77: `START` emits the transmission-start pattern from any pin state. -/
def Obligations.StartEmitsThePattern : Prop :=
  SpelledAndGuarded .start 0x10000000#32 ∧
  ∀ (s : State) (h : Handle), s.handle = some h →
    exec .start s = .next { s with
      pc := s.pc + 1, trace := s.trace ++ startEvents h,
      pins := { modeD := some .out, modeC := some .out, latD := some .hi, latC := some .lo } }

/-- R78: `SHIFTOUT8` drives any byte, bit 7 first, one SCK pulse a bit; it faults at its first edge on DATA, or on SCK
after the first DATA edge. -/
def Obligations.Shiftout8DrivesMsbFirst : Prop :=
  ∀ b : Byte,
    SpelledAndGuarded (.shiftout8 b) (0x11#8 ++ (0x0000#16 ++ b)) ∧
    ∀ (s : State) (h : Handle), s.handle = some h →
      (s.pins.modeD = some .out → s.pins.modeC = some .out →
        exec (.shiftout8 b) s = .next { s with
          pc := s.pc + 1,
          trace := s.trace ++ [7, 6, 5, 4, 3, 2, 1, 0].flatMap fun i => driveBitEvents h (levelOfBit (b.getLsbD i)),
          pins := { s.pins with latD := some (levelOfBit (b.getLsbD 0)), latC := some .lo } }) ∧
      (s.pins.modeD ≠ some .out → exec (.shiftout8 b) s = .next (notOutput s [] s.pins)) ∧
      (s.pins.modeD = some .out → s.pins.modeC ≠ some .out →
        exec (.shiftout8 b) s = .next (notOutput s (edgeEvents h .data (levelOfBit (b.getLsbD 7)))
          { s.pins with latD := some (levelOfBit (b.getLsbD 7)) }))

/-- R79: `ACK` takes both samples, completes the clock, and reports the first failing phase. -/
def Obligations.AckReportsTheFirstFailingPhase : Prop :=
  SpelledAndGuarded .ack 0x12000000#32 ∧
  ∀ (s : State) (h : Handle), s.handle = some h →
    (s.pins.modeC = some .out →
      ∃ a0 a1 st, a0 = (drawLevel s.env).1 ∧ a1 = (drawLevel (drawLevel s.env).2).1 ∧
        (a0 ≠ .lo → st = TxStatus.eAck0) ∧ (a0 = .lo → a1 ≠ .hi → st = TxStatus.eAck1) ∧
        (a0 = .lo → a1 = .hi → st = TxStatus.ok) ∧
        exec .ack s = .next { s with
          pc := s.pc + 1, trace := s.trace ++ ackEvents h a0 a1,
          pins := { s.pins with modeD := some .inputPullup, latC := some .lo },
          regs := { s.regs with a0 := some a0, a1 := some a1, txst := some st },
          env := (drawLevel (drawLevel s.env).2).2 }) ∧
    (s.pins.modeC ≠ some .out →
      exec .ack s = .next (notOutput s [.setMode h.dpin .inputPullup] { s.pins with modeD := some .inputPullup }))

/-- R80: `SENDCMD` is the start, the command byte and the acknowledgment, from any pin state; a word whose byte is not a
command code is rejected. That the meaning takes the same fault for such a byte, which no decoded word gives it, is the
model's choice (log entry 14). -/
def Obligations.SendcmdSendsACommand : Prop :=
  (∀ c : Command,
    SpelledAndGuarded (.sendcmd c.code) (0x13#8 ++ (0x0000#16 ++ c.code)) ∧
    ∀ (s : State) (h : Handle), s.handle = some h →
      ∃ a0 a1, a0 = (drawLevel s.env).1 ∧ a1 = (drawLevel (drawLevel s.env).2).1 ∧
        exec (.sendcmd c.code) s = .next { s with
          pc := s.pc + 1, trace := s.trace ++ startEvents h ++ commandEvents h c.code ++ ackEvents h a0 a1,
          pins := { modeD := some .inputPullup, modeC := some .out,
                    latD := some (levelOfBit (c.code.getLsbD 0)), latC := some .lo },
          regs := { s.regs with a0 := some a0, a1 := some a1, txst := some (ackStatus a0 a1) },
          env := (drawLevel (drawLevel s.env).2).2 }) ∧
  (∀ (b : Byte) (s : State), b ≠ 0x03#8 → b ≠ 0x05#8 →
    decode (0x13#8 ++ (0x0000#16 ++ b)) = .error .badOperand ∧
    exec (.sendcmd b) s = .next { s with fault := some .badOperand })

/-- R81: `WAIT` polls until it sees `L` or the clock is `TIMEOUT_MS` past its first count; DATA is read before the clock
is checked; it needs no pin mode; and it ends within 100 polls. -/
def Obligations.WaitPollsUntilReadyOrTimeout : Prop :=
  SpelledAndGuarded .wait 0x14000000#32 ∧
  ∀ (s : State) (h : Handle), s.handle = some h →
    ∃ (t0 : Millis) (busy : List Millis) (env : Env),
      t0 = (drawCount s.env).1 ∧ busy.length ≤ 100 ∧ env.countDraws = s.env.countDraws + 1 + busy.length ∧
      ((busy.length < 100 ∧ (∀ t ∈ busy, (t - t0).toNat < 1000) ∧
        exec .wait s = .next { s with
          pc := s.pc + 1,
          trace := s.trace ++ [.setMode h.dpin .inputPullup, .millis t0] ++ busy.flatMap (busyPollEvents h)
            ++ readyPollEvents h,
          pins := { s.pins with modeD := some .inputPullup },
          regs := { s.regs with wst := some .ready }, env := env }) ∨
       (∃ (early : List Millis) (last : Millis), busy = early ++ [last] ∧
        (∀ t ∈ early, (t - t0).toNat < 1000) ∧ 1000 ≤ (last - t0).toNat ∧
        exec .wait s = .next { s with
          pc := s.pc + 1,
          trace := s.trace ++ [.setMode h.dpin .inputPullup, .millis t0] ++ busy.flatMap (busyPollEvents h),
          pins := { s.pins with modeD := some .inputPullup },
          regs := { s.regs with wst := some .timeout }, env := env }))

/-- Every run of a `WAIT` keeps host duty HD2: what a host that breaks it does has no move (R118). The form in which
the model admits exactly those runs is its own choice (log entry 3). -/
def Obligations.WaitKeepsHostDutyTwo : Prop :=
  ∀ (s t : State), s.handle ≠ none → exec .wait s = .next t →
    ∃ events, t.trace = s.trace ++ events ∧ HostDuty2 events

/-- Every clock HD2 allows is admitted (R119): counts in the host clock's script that keep HD2 are the counts drawn,
both where the sensor becomes ready before any of them times out and where the last of them, and no earlier one, times
out with the sensor at `H` throughout. Every wait is one of the two. The scripts are log entry 2's, the form of HD2 is
log entry 3's. -/
def Obligations.EveryAllowedClockIsAdmitted : Prop :=
  ∀ (s : State) (h : Handle) (t0 : Millis) (early : List Millis) (moreCounts : List Millis) (moreLevels : List Level),
    s.handle = some h → (∀ t ∈ early, (t - t0).toNat < 1000) →
    (s.env.counts = t0 :: (early ++ moreCounts) →
      s.env.levels = List.replicate early.length .hi ++ .lo :: moreLevels →
      HostDuty2 (.millis t0 :: early.flatMap (busyPollEvents h)) →
      ∃ t, exec .wait s = .next t ∧ t.pc = s.pc + 1 ∧ t.regs.wst = some .ready ∧
        t.trace = s.trace ++ [.setMode h.dpin .inputPullup, .millis t0] ++ early.flatMap (busyPollEvents h)
          ++ readyPollEvents h ∧
        t.env.counts = moreCounts ∧ t.env.levels = moreLevels) ∧
    (∀ last : Millis, 1000 ≤ (last - t0).toNat →
      s.env.counts = t0 :: (early ++ last :: moreCounts) →
      s.env.levels = List.replicate (early.length + 1) .hi ++ moreLevels →
      HostDuty2 (.millis t0 :: (early ++ [last]).flatMap (busyPollEvents h)) →
      ∃ t, exec .wait s = .next t ∧ t.pc = s.pc + 1 ∧ t.regs.wst = some .timeout ∧
        t.trace = s.trace ++ [.setMode h.dpin .inputPullup, .millis t0]
          ++ (early ++ [last]).flatMap (busyPollEvents h) ∧
        t.env.counts = moreCounts ∧ t.env.levels = moreLevels)

/-- R82: `SHIFTIN8` shifts in the next eight levels, the first in bit 7. -/
def Obligations.Shiftin8AssemblesMsbFirst : Prop :=
  SpelledAndGuarded .shiftin8 0x15000000#32 ∧
  ∀ (s : State) (h : Handle), s.handle = some h →
    (s.pins.modeC = some .out →
      ∃ b : Byte, bitsMsbFirst b = (drawLevels 8 s.env).1 ∧
        exec .shiftin8 s = .next { s with
          pc := s.pc + 1, trace := s.trace ++ sampleEvents h (drawLevels 8 s.env).1,
          pins := { s.pins with latC := some .lo },
          regs := { s.regs with byte := some b }, env := (drawLevels 8 s.env).2 }) ∧
    (s.pins.modeC ≠ some .out → exec .shiftin8 s = .next (notOutput s [] s.pins))

/-- R83: `MIDACK` pulses SCK with DATA driven low. -/
def Obligations.MidackDrivesDataLow : Prop :=
  SpelledAndGuarded .midack 0x16000000#32 ∧
  ∀ (s : State) (h : Handle), s.handle = some h →
    (s.pins.modeC = some .out →
      exec .midack s = .next { s with
        pc := s.pc + 1, trace := s.trace ++ midAckEvents h,
        pins := { s.pins with modeD := some .out, latD := some .lo, latC := some .lo } }) ∧
    (s.pins.modeC ≠ some .out →
      exec .midack s = .next (notOutput s ([.setMode h.dpin .out] ++ edgeEvents h .data .lo)
        { s.pins with modeD := some .out, latD := some .lo }))

/-- R84, R45: `READ16` reads sixteen levels, the first in bit 15, with a `MIDACK` between the bytes. -/
def Obligations.Read16IsBigEndian : Prop :=
  SpelledAndGuarded .read16 0x17000000#32 ∧
  ∀ (s : State) (h : Handle), s.handle = some h →
    (s.pins.modeC = some .out →
      ∃ hi lo : Byte, bitsMsbFirst hi ++ bitsMsbFirst lo = (drawLevels 16 s.env).1 ∧
        exec .read16 s = .next { s with
          pc := s.pc + 1, trace := s.trace ++ read16Events h (bitsMsbFirst hi) (bitsMsbFirst lo),
          pins := { s.pins with modeD := some .inputPullup, latD := some .lo, latC := some .lo },
          regs := { s.regs with byte := some lo, d16 := some (BitVec.ofNat 16 (hi.toNat * 256 + lo.toNat)) },
          env := (drawLevels 16 s.env).2 }) ∧
    (s.pins.modeC ≠ some .out →
      exec .read16 s = .next (notOutput s [.setMode h.dpin .inputPullup] { s.pins with modeD := some .inputPullup }))

/-- R85: `CRCSKIP` pulses SCK with DATA driven high and reads nothing. -/
def Obligations.CrcskipReadsNothing : Prop :=
  SpelledAndGuarded .crcskip 0x18000000#32 ∧
  ∀ (s : State) (h : Handle), s.handle = some h →
    (s.pins.modeC = some .out →
      exec .crcskip s = .next { s with
        pc := s.pc + 1, trace := s.trace ++ crcSkipEvents h,
        pins := { s.pins with modeD := some .out, latD := some .hi, latC := some .lo } }) ∧
    (s.pins.modeC ≠ some .out →
      exec .crcskip s = .next (notOutput s ([.setMode h.dpin .out] ++ edgeEvents h .data .hi)
        { s.pins with modeD := some .out, latD := some .hi }))

/-- R86: `READRAW` is `SENDCMD`, then `WAIT`, then `READ16` and `CRCSKIP`, each run at the state the one before left,
and it ends at the first failing phase with the raw code `⊥`. It completes from every state with a handle, under host
duty HD2 (R118) in the model's form (log entry 3). That the meaning takes `F_BAD_OPERAND` for a byte that no decoded word
gives it is the model's choice (log entry 14). -/
def Obligations.ReadrawIsItsSubOperations : Prop :=
  (∀ c : Command,
    SpelledAndGuarded (.readraw c.code) (0x19#8 ++ (0x0000#16 ++ c.code)) ∧
    ∀ (s : State) (h : Handle), s.handle = some h →
      ∃ u tx, exec (.sendcmd c.code) s = .next u ∧ u.regs.txst = some tx ∧
        (tx ≠ .ok →
          exec (.readraw c.code) s = .next (withExchange c (if tx = .eAck0 then .eAck0 else .eAck1) none u)) ∧
        (tx = .ok →
          ∃ v w, exec .wait u = .next v ∧ v.regs.wst = some w ∧
            (w = .timeout →
              exec (.readraw c.code) s = .next { withExchange c .eTimeout none v with pc := s.pc + 1 }) ∧
            (w = .ready →
              ∃ x y d, exec .read16 v = .next x ∧ exec .crcskip x = .next y ∧ y.regs.d16 = some d ∧
                exec (.readraw c.code) s = .next { withExchange c .ok (some d) y with pc := s.pc + 1 }))) ∧
  (∀ (b : Byte) (s : State), b ≠ 0x03#8 → b ≠ 0x05#8 →
    decode (0x19#8 ++ (0x0000#16 ++ b)) = .error .badOperand ∧
    exec (.readraw b) s = .next { s with fault := some .badOperand })

/-- A sensor that does not pull DATA low ends the exchange at the acknowledgment: 71 events, no wait, no shift-in
(R86, and the source's handshake scenario it quotes). -/
def Obligations.UnacknowledgedExchangeStops : Prop :=
  ∀ (c : Command) (s : State) (h : Handle), s.handle = some h → (drawLevel s.env).1 = .hi →
    ∃ t a1, exec (.readraw c.code) s = .next t ∧ t.pc = s.pc + 1 ∧
      t.trace = s.trace ++ startEvents h ++ commandEvents h c.code ++ ackEvents h .hi a1 ∧
      t.trace.length = s.trace.length + 71 ∧
      t.regs.wst = s.regs.wst ∧ t.regs.byte = s.regs.byte ∧ t.regs.d16 = s.regs.d16 ∧
      (c = .measT → t.regs.rstT = some .eAck0 ∧ t.regs.rawT = none) ∧
      (c = .measRH → t.regs.rstH = some .eAck0 ∧ t.regs.rawH = none)

/-- Against a conforming sensor (R87) whose code is `hi ++ lo`, ready at poll `k`, and a clock that does not time out
before that, `READRAW` succeeds with that code after `3k + 168` events (R86). It names a script; it assumes nothing of
a sensor. -/
def Obligations.ConformingSensorIsRead : Prop :=
  ∀ (c : Command) (s : State) (h : Handle) (hi lo : Byte) (t0 : Millis) (busy : List Millis)
    (moreCounts : List Millis) (moreLevels : List Level),
    s.handle = some h →
    s.env.levels = conformingScript hi lo (busy.length + 1) ++ moreLevels →
    s.env.counts = t0 :: (busy ++ moreCounts) → (∀ t ∈ busy, (t - t0).toNat < 1000) →
    HostDuty2 (.millis t0 :: busy.flatMap (busyPollEvents h)) →
    ∃ t, exec (.readraw c.code) s = .next t ∧ t.pc = s.pc + 1 ∧ t.fault = s.fault ∧ t.refused = s.refused ∧
      t.trace.length = s.trace.length + (3 * (busy.length + 1) + 168) ∧
      t.env.levels = moreLevels ∧ t.env.counts = moreCounts ∧
      t.regs.d16 = some (hi ++ lo) ∧ t.regs.byte = some lo ∧
      t.pins = { modeD := some .out, modeC := some .out, latD := some .hi, latC := some .lo } ∧
      (c = .measT → t.regs.rstT = some .ok ∧ t.regs.rawT = some (hi ++ lo) ∧
        t.regs.rstH = s.regs.rstH ∧ t.regs.rawH = s.regs.rawH) ∧
      (c = .measRH → t.regs.rstH = some .ok ∧ t.regs.rawH = some (hi ++ lo) ∧
        t.regs.rstT = s.regs.rstT ∧ t.regs.rawT = s.regs.rawT)

/-- R136: the event counts of the operations that complete. A wait that ends ready has `k` polls, one that times out
has `n`. That each is at most 100 is R81's derivation under host duty HD2 (R118), in the model's form (log entry 3). -/
def Obligations.EventCounts : Prop :=
  ∀ (i : Instr) (s t : State), exec i s = .next t → t.pc = s.pc + 1 →
    ∃ m, t.trace.length = s.trace.length + m ∧
      match i with
      | .setmode _ _ | .write _ _ | .read _ | .dlyUs _ | .dlyMs _ | .millis => m = 1
      | .start => m = 16
      | .shiftout8 _ => m = 48
      | .ack => m = 7
      | .sendcmd _ => m = 71
      | .wait => (t.regs.wst = some .ready ∧ ∃ k, 1 ≤ k ∧ k ≤ 100 ∧ m = 3 * k + 1) ∨
          (t.regs.wst = some .timeout ∧ ∃ n, 1 ≤ n ∧ n ≤ 100 ∧ m = 3 * n + 2)
      | .shiftin8 => m = 40
      | .midack | .crcskip => m = 7
      | .read16 => m = 89
      | .readraw c => exchangeCount (if c = Config.codeMeasT then t.regs.rstT else t.regs.rstH) m
      | .readC | .readF => exchangeCount t.regs.rstT m
      | .readRh => (t.regs.rstH ≠ some .ok ∧ exchangeCount t.regs.rstH m) ∨
          (t.regs.rstH = some .ok ∧ ∃ a b, exchangeCount (some .ok) a ∧ exchangeCount t.regs.rstT b ∧ m = a + b)
      | .convC | .convF | .convRh | .construct _ _ _ _ _ => m = 0

/-! ## Conversions -/

/-- R92: `CONV_C`, in every case of its pseudocode, for every coefficient parameter (R90), the refusal by R109. -/
def Obligations.ConvCComputesCelsius : Prop :=
  SpelledAndGuarded .convC 0x20000000#32 ∧
  ∀ (s : State) (h : Handle), s.handle = some h →
    (s.regs.rstT = none → exec .convC s = .next { s with fault := some .unwritten }) ∧
    (∀ st, s.regs.rstT = some st → st ≠ .ok →
      exec .convC s = .next { s with
        pc := s.pc + 1, regs := { s.regs with out := some .invalid, tc := some .invalid } }) ∧
    (∀ raw, s.regs.rstT = some .ok → s.regs.rawT = some raw →
      (∀ d1 d2, s.coeff.d1c.get h.v = some d1 → s.coeff.d2c.get h.t = some d2 →
        let v := fadd (lit d1) (fmul (lit d2) (f32 raw.toNat))
        exec .convC s = .next { s with
          pc := s.pc + 1, regs := { s.regs with out := some (.val v), tc := some (.val v) } }) ∧
      (s.coeff.d1c.get h.v = none ∨ s.coeff.d2c.get h.t = none →
        exec .convC s = .next { s with refused := true }))

/-- R93: `CONV_F`, with its own tables, for every coefficient parameter (R90); `TC` is not written. -/
def Obligations.ConvFComputesFahrenheit : Prop :=
  SpelledAndGuarded .convF 0x21000000#32 ∧
  ∀ (s : State) (h : Handle), s.handle = some h →
    (s.regs.rstT = none → exec .convF s = .next { s with fault := some .unwritten }) ∧
    (∀ st, s.regs.rstT = some st → st ≠ .ok →
      exec .convF s = .next { s with pc := s.pc + 1, regs := { s.regs with out := some .invalid } }) ∧
    (∀ raw, s.regs.rstT = some .ok → s.regs.rawT = some raw →
      (∀ d1 d2, s.coeff.d1f.get h.v = some d1 → s.coeff.d2f.get h.t = some d2 →
        exec .convF s = .next { s with
          pc := s.pc + 1,
          regs := { s.regs with out := some (.val (fadd (lit d1) (fmul (lit d2) (f32 raw.toNat)))) } }) ∧
      (s.coeff.d1f.get h.v = none ∨ s.coeff.d2f.get h.t = none →
        exec .convF s = .next { s with refused := true }))

/-- R94: `CONV_RH`, in every case of its pseudocode and with its evaluation order, for every coefficient parameter
(R90). The refusal for want of a coefficient is R109's; R94's own exceptions do not list it (log entry 4). -/
def Obligations.ConvRhComputesHumidity : Prop :=
  SpelledAndGuarded .convRh 0x22000000#32 ∧
  ∀ (s : State) (h : Handle), s.handle = some h →
    (s.regs.rstH = none ∨ s.regs.tc = none → exec .convRh s = .next { s with fault := some .unwritten }) ∧
    (∀ st tc, s.regs.rstH = some st → s.regs.tc = some tc → st ≠ .ok ∨ tc = .invalid →
      exec .convRh s = .next { s with pc := s.pc + 1, regs := { s.regs with out := some .invalid } }) ∧
    (∀ raw tc, s.regs.rstH = some .ok → s.regs.tc = some (.val tc) → s.regs.rawH = some raw →
      (∀ c1 c2 c3 t1 t2, s.coeff.c1.get h.h = some c1 → s.coeff.c2.get h.h = some c2 → s.coeff.c3.get h.h = some c3 →
        s.coeff.t1.get h.h = some t1 → s.coeff.t2.get h.h = some t2 →
        let r := f32 raw.toNat
        let lin := fadd (fadd (lit c1) (fmul (lit c2) r)) (fmul (fmul (lit c3) r) r)
        let cmp := fmul (fsub tc 0x41C80000#32) (fadd (lit t1) (fmul (lit t2) r))
        exec .convRh s = .next { s with
          pc := s.pc + 1, regs := { s.regs with out := some (.val (fadd cmp lin)) } }) ∧
      (humiditySupplied s h = false → exec .convRh s = .next { s with refused := true }))

/-- R89: at the mid-range voltage class and 14-bit resolution `T_C = -39.7 + 0.01 * R`, with the two literals of the
source rounded once to binary32 (their bits are in 95_test_vectors W1), for every raw code and every coefficient
parameter that holds those two values. -/
def Obligations.MidRangeCelsiusIsTheSourceFormula : Prop :=
  ∀ (s : State) (h : Handle) (raw : Raw), s.handle = some h → h.v = .v3_5 → h.t = .t14 →
    s.coeff.d1c.v3_5 = some ⟨true, 397, 1⟩ → s.coeff.d2c.t14 = some ⟨false, 1, 2⟩ →
    s.regs.rstT = some .ok → s.regs.rawT = some raw →
    let v := fadd 0xC21ECCCD#32 (fmul 0x3C23D70A#32 (f32 raw.toNat))
    exec .convC s = .next { s with
      pc := s.pc + 1, regs := { s.regs with out := some (.val v), tc := some (.val v) } }

/-- R97: a conversion emits no event, reads no pin and is a function of the registers and the configuration alone. -/
def Obligations.ConversionsArePure : Prop :=
  ∀ (i : Instr) (s s' t t' : State), i = .convC ∨ i = .convF ∨ i = .convRh →
    exec i s = .next t → exec i s' = .next t' →
    (t.trace = s.trace ∧ t.pins = s.pins ∧ t.env = s.env) ∧
    (s.regs = s'.regs → s.handle = s'.handle → s.coeff = s'.coeff → t.regs = t'.regs)

/-- Error contagion (R96) over the six functions of R104: one whose exchange, or whose temperature sub-reading, failed
ends with `Invalid`, never with a number. -/
def Obligations.FailuresAreContagious : Prop :=
  ∀ (i : Instr) (s t : State), exec i s = .next t → t.pc = s.pc + 1 →
    (i = .convC ∨ i = .convF ∨ i = .readC ∨ i = .readF →
      t.regs.rstT ≠ some .ok → t.regs.out = some .invalid) ∧
    (i = .convRh ∨ i = .readRh → t.regs.rstH ≠ some .ok ∨ t.regs.tc = some .invalid →
      t.regs.out = some .invalid) ∧
    (i = .readRh → t.regs.rstH = some .ok → t.regs.rstT ≠ some .ok → t.regs.out = some .invalid)

/-! ## Binary32 arithmetic -/

/-- R13: an integer below 2^24 converts exactly. -/
def Obligations.IntegersConvertExactly : Prop :=
  ∀ n : Nat, n < 2 ^ 24 → floatFinite (f32 n) = true ∧ floatInt (f32 n) = n * 2 ^ 149

/-- R91: the one rounding is to nearest, ties to even: no finite number is nearer to `num / den` than the result, and a
result that is exactly as near as another number has an even significand. It is infinite exactly from the midpoint above
the largest finite number on, and its sign is the one given, of a zero too: both as IEEE 754 has it (log entry 19). -/
def Obligations.RoundingIsNearestEven : Prop :=
  ∀ (neg : Bool) (num den : Nat), 0 < den →
    let r := round32 neg num den
    floatSign r = neg ∧
    (floatInf r = true ↔ (2 ^ 128 - 2 ^ 103) * den ≤ num) ∧
    (floatInf r = false → floatFinite r = true ∧ ∀ y : F32, floatFinite y = true →
      ((num * 2 ^ 149 : Int) - floatUnits r * den).natAbs ≤ ((num * 2 ^ 149 : Int) - floatUnits y * den).natAbs ∧
      (((num * 2 ^ 149 : Int) - floatUnits r * den).natAbs = ((num * 2 ^ 149 : Int) - floatUnits y * den).natAbs →
        floatUnits y ≠ floatUnits r → floatFrac r % 2 = 0))

/-- R13: the sum or difference of two finite numbers is the exact one rounded to nearest, ties to even. Where it
overflows, and the sign of an exact zero, are as IEEE 754 has it (log entry 19). -/
def Obligations.SumsAreNearest : Prop :=
  ∀ x y : F32, floatFinite x = true → floatFinite y = true →
    RoundedNearestEven (floatInt x + floatInt y) 1 (fadd x y) ∧
    RoundedNearestEven (floatInt x - floatInt y) 1 (fsub x y) ∧
    (floatInt x + floatInt y = 0 → floatSign (fadd x y) = (floatSign x && floatSign y)) ∧
    (floatInt x - floatInt y = 0 → floatSign (fsub x y) = (floatSign x && !floatSign y))

/-- R13: the product of two finite numbers is the exact one rounded to nearest, ties to even. Where it overflows, and the
sign of a zero, are as IEEE 754 has it (log entry 19). -/
def Obligations.ProductsAreNearest : Prop :=
  ∀ x y : F32, floatFinite x = true → floatFinite y = true →
    RoundedNearestEven (floatInt x * floatInt y) (2 ^ 149) (fmul x y) ∧
    floatSign (fmul x y) = (floatSign x != floatSign y)

/-! ## Public operations -/

/-- R98: `CONSTRUCT` writes the handle once and touches nothing else. -/
def Obligations.ConstructCreatesTheHandle : Prop :=
  ∀ (d k : Byte) (v : VClass) (t : TRes) (r : HRes),
    encode (.construct d k v t r) = 0x30#8 ++ (d ++ k ++ (0b000#3 ++ v.code ++ t.bit ++ r.bit)) ∧
    decode (0x30#8 ++ (d ++ k ++ (0b000#3 ++ v.code ++ t.bit ++ r.bit))) = .ok (.construct d k v t r) ∧
    RejectsBadWords 0x30 ∧
    ∀ s : State,
      (s.handle = none → exec (.construct d k v t r) s = .next { s with
        pc := s.pc + 1, handle := some { dpin := d, cpin := k, v := v, t := t, h := r } }) ∧
      (s.handle ≠ none → exec (.construct d k v t r) s = .next { s with fault := some .reconstruct })

/-- R100: `READ_C` is `READRAW MEAS_T` and then `CONV_C`; it completes where its coefficients are supplied (under host
duty HD2, R118, in the form of log entry 3). -/
def Obligations.ReadCIsExchangeThenConversion : Prop :=
  SpelledAndGuarded .readC 0x31000000#32 ∧
  ∀ (s : State) (h : Handle), s.handle = some h →
    (∃ u, exec (.readraw 0x03#8) s = .next u ∧ exec .readC s = exec .convC { u with pc := s.pc }) ∧
    (∀ d1 d2, s.coeff.d1c.get h.v = some d1 → s.coeff.d2c.get h.t = some d2 →
      ∃ t st, exec .readC s = .next t ∧ t.pc = s.pc + 1 ∧ t.fault = s.fault ∧ t.refused = s.refused ∧
        t.regs.rstT = some st ∧ (st ≠ .ok → t.regs.out = some .invalid ∧ t.regs.tc = some .invalid) ∧
        (st = .ok → ∃ raw, t.regs.rawT = some raw ∧
          t.regs.out = some (.val (fadd (lit d1) (fmul (lit d2) (f32 raw.toNat)))) ∧ t.regs.tc = t.regs.out))

/-- R101: `READ_F` is `READRAW MEAS_T` and then `CONV_F`; `TC` keeps its value. It completes where its coefficients are
supplied (under host duty HD2, R118, in the form of log entry 3). -/
def Obligations.ReadFIsExchangeThenConversion : Prop :=
  SpelledAndGuarded .readF 0x32000000#32 ∧
  ∀ (s : State) (h : Handle), s.handle = some h →
    (∃ u, exec (.readraw 0x03#8) s = .next u ∧ exec .readF s = exec .convF { u with pc := s.pc }) ∧
    (∀ d1 d2, s.coeff.d1f.get h.v = some d1 → s.coeff.d2f.get h.t = some d2 →
      ∃ t st, exec .readF s = .next t ∧ t.pc = s.pc + 1 ∧ t.fault = s.fault ∧ t.refused = s.refused ∧
        t.regs.tc = s.regs.tc ∧
        t.regs.rstT = some st ∧ (st ≠ .ok → t.regs.out = some .invalid) ∧
        (st = .ok → ∃ raw, t.regs.rawT = some raw ∧
          t.regs.out = some (.val (fadd (lit d1) (fmul (lit d2) (f32 raw.toNat))))))

/-- R102: `READ_RH` is the humidity exchange, and only after its success the temperature exchange, `CONV_C` and
`CONV_RH`; it completes where its coefficients are supplied (under host duty HD2, R118, in the form of log entry 3). -/
def Obligations.ReadRhIsTwoExchangesThenConversions : Prop :=
  SpelledAndGuarded .readRh 0x33000000#32 ∧
  ∀ (s : State) (h : Handle), s.handle = some h → s.refused = false →
    (∃ u, exec (.readraw 0x05#8) s = .next u ∧
      (u.regs.rstH ≠ some .ok →
        exec .readRh s = .next { u with regs := { u.regs with out := some .invalid } }) ∧
      (u.regs.rstH = some .ok →
        ∃ v w, exec (.readraw 0x03#8) u = .next v ∧ exec .convC v = .next w ∧
          (w.refused = true → exec .readRh s = .next { w with pc := s.pc }) ∧
          (w.refused = false → exec .readRh s = exec .convRh { w with pc := s.pc }))) ∧
    (s.coeff.d1c.get h.v ≠ none → s.coeff.d2c.get h.t ≠ none → humiditySupplied s h = true →
      ∃ t, exec .readRh s = .next t ∧ t.pc = s.pc + 1 ∧ t.fault = s.fault ∧ t.refused = false ∧
        t.regs.out ≠ none ∧ t.regs.rstH ≠ none)

/-- R103: the compatibility view. That a status never written reads as `SENTINEL` too is the model's reading (log
entry 13). -/
def Obligations.CompatibilityView : Prop :=
  ∀ s : State,
    (s.regs.out = some .invalid → compatOut s = some 0x7FC00000#32) ∧
    (∀ f, s.regs.out = some (.val f) → compatOut s = some f) ∧
    (∀ r, s.regs.rstT = some .ok → s.regs.rawT = some r → compatRawT s = r) ∧
    (∀ r, s.regs.rstH = some .ok → s.regs.rawH = some r → compatRawH s = r) ∧
    (s.regs.rstT ≠ some .ok → compatRawT s = Config.sentinel) ∧
    (s.regs.rstH ≠ some .ok → compatRawH s = Config.sentinel) ∧
    0x4000 ≤ Config.sentinel.toNat ∧ Config.sentinel.toNat ≤ 0xFFFF

/-! ## The coefficient store -/

/-- The coefficient parameter at reset holds the values of R90's table, entry by entry, with `VCLASS5` unsupplied: only
the sixth voltage class lacks a coefficient. The values other than R89's are the spec's from general knowledge (log
entry 6), and that the run starts with them is the model's choice (log entry 4). -/
def Obligations.CoefficientStoreHoldsTheDefaults : Prop :=
  (∀ v d, (State.reset.coeff.d1c.get v = some d ↔ (v, d) ∈
    [(.v5_0, ⟨true, 401, 1⟩), (.v4_0, ⟨true, 398, 1⟩), (.v3_5, ⟨true, 397, 1⟩), (.v3_0, ⟨true, 396, 1⟩),
     (.v2_5, ⟨true, 394, 1⟩)]) ∧
    (State.reset.coeff.d1f.get v = some d ↔ (v, d) ∈
    [(.v5_0, ⟨true, 402, 1⟩), (.v4_0, ⟨true, 396, 1⟩), (.v3_5, ⟨true, 395, 1⟩), (.v3_0, ⟨true, 393, 1⟩),
     (.v2_5, ⟨true, 389, 1⟩)])) ∧
  (State.reset.coeff.d2c.get .t14 = some ⟨false, 1, 2⟩ ∧ State.reset.coeff.d2c.get .t12 = some ⟨false, 4, 2⟩) ∧
  (State.reset.coeff.d2f.get .t14 = some ⟨false, 18, 3⟩ ∧ State.reset.coeff.d2f.get .t12 = some ⟨false, 72, 3⟩) ∧
  (State.reset.coeff.c1.get .h12 = some ⟨true, 20468, 4⟩ ∧ State.reset.coeff.c1.get .h8 = some ⟨true, 20468, 4⟩) ∧
  (State.reset.coeff.c2.get .h12 = some ⟨false, 367, 4⟩ ∧ State.reset.coeff.c2.get .h8 = some ⟨false, 5872, 4⟩) ∧
  (State.reset.coeff.c3.get .h12 = some ⟨true, 15955, 10⟩ ∧ State.reset.coeff.c3.get .h8 = some ⟨true, 40845, 8⟩) ∧
  (State.reset.coeff.t1.get .h12 = some ⟨false, 1, 2⟩ ∧ State.reset.coeff.t1.get .h8 = some ⟨false, 1, 2⟩) ∧
  (State.reset.coeff.t2.get .h12 = some ⟨false, 8, 5⟩ ∧ State.reset.coeff.t2.get .h8 = some ⟨false, 128, 5⟩)

end Statements
end

