-- ==== Sys2Proof/Laws/State.lean ====
section
/-! SUPPORT. The field laws of the shared state updates, one per field per update, and the laws of the pin accessors
and of the program cell that fetch reads. -/

namespace Sys2Proof.Machine

@[simp] theorem takeFault_pc (f : ModelFault) (s : State) : (takeFault f s).pc = s.pc := rfl
@[simp] theorem takeFault_fault (f : ModelFault) (s : State) : (takeFault f s).fault = some f := rfl
@[simp] theorem takeFault_refused (f : ModelFault) (s : State) : (takeFault f s).refused = s.refused := rfl
@[simp] theorem takeFault_handle (f : ModelFault) (s : State) : (takeFault f s).handle = s.handle := rfl
@[simp] theorem takeFault_pins (f : ModelFault) (s : State) : (takeFault f s).pins = s.pins := rfl
@[simp] theorem takeFault_regs (f : ModelFault) (s : State) : (takeFault f s).regs = s.regs := rfl
@[simp] theorem takeFault_trace (f : ModelFault) (s : State) : (takeFault f s).trace = s.trace := rfl
@[simp] theorem takeFault_program (f : ModelFault) (s : State) : (takeFault f s).program = s.program := rfl
@[simp] theorem takeFault_coeff (f : ModelFault) (s : State) : (takeFault f s).coeff = s.coeff := rfl
@[simp] theorem takeFault_env (f : ModelFault) (s : State) : (takeFault f s).env = s.env := rfl

@[simp] theorem takeRefusal_pc (s : State) : (takeRefusal s).pc = s.pc := rfl
@[simp] theorem takeRefusal_fault (s : State) : (takeRefusal s).fault = s.fault := rfl
@[simp] theorem takeRefusal_refused (s : State) : (takeRefusal s).refused = true := rfl
@[simp] theorem takeRefusal_handle (s : State) : (takeRefusal s).handle = s.handle := rfl
@[simp] theorem takeRefusal_pins (s : State) : (takeRefusal s).pins = s.pins := rfl
@[simp] theorem takeRefusal_regs (s : State) : (takeRefusal s).regs = s.regs := rfl
@[simp] theorem takeRefusal_trace (s : State) : (takeRefusal s).trace = s.trace := rfl
@[simp] theorem takeRefusal_program (s : State) : (takeRefusal s).program = s.program := rfl
@[simp] theorem takeRefusal_coeff (s : State) : (takeRefusal s).coeff = s.coeff := rfl
@[simp] theorem takeRefusal_env (s : State) : (takeRefusal s).env = s.env := rfl

@[simp] theorem advance_pc (s : State) : (advance s).pc = s.pc + 1 := rfl
@[simp] theorem advance_fault (s : State) : (advance s).fault = s.fault := rfl
@[simp] theorem advance_refused (s : State) : (advance s).refused = s.refused := rfl
@[simp] theorem advance_handle (s : State) : (advance s).handle = s.handle := rfl
@[simp] theorem advance_pins (s : State) : (advance s).pins = s.pins := rfl
@[simp] theorem advance_regs (s : State) : (advance s).regs = s.regs := rfl
@[simp] theorem advance_trace (s : State) : (advance s).trace = s.trace := rfl
@[simp] theorem advance_program (s : State) : (advance s).program = s.program := rfl
@[simp] theorem advance_coeff (s : State) : (advance s).coeff = s.coeff := rfl
@[simp] theorem advance_env (s : State) : (advance s).env = s.env := rfl

@[simp] theorem withFetchWord_pc (n w : Nat) (s : State) : (s.withFetchWord n w).pc = s.pc := rfl
@[simp] theorem withFetchWord_fault (n w : Nat) (s : State) : (s.withFetchWord n w).fault = s.fault := rfl
@[simp] theorem withFetchWord_refused (n w : Nat) (s : State) : (s.withFetchWord n w).refused = s.refused := rfl
@[simp] theorem withFetchWord_handle (n w : Nat) (s : State) : (s.withFetchWord n w).handle = s.handle := rfl
@[simp] theorem withFetchWord_pins (n w : Nat) (s : State) : (s.withFetchWord n w).pins = s.pins := rfl
@[simp] theorem withFetchWord_regs (n w : Nat) (s : State) : (s.withFetchWord n w).regs = s.regs := rfl
@[simp] theorem withFetchWord_trace (n w : Nat) (s : State) : (s.withFetchWord n w).trace = s.trace := rfl
@[simp] theorem withFetchWord_program (n w : Nat) (s : State) : (s.withFetchWord n w).program = putWord s.program s.pc (BitVec.ofNat 32 (w % 2 ^ n)) := rfl
@[simp] theorem withFetchWord_coeff (n w : Nat) (s : State) : (s.withFetchWord n w).coeff = s.coeff := rfl
@[simp] theorem withFetchWord_env (n w : Nat) (s : State) : (s.withFetchWord n w).env = s.env := rfl

@[simp] theorem pinMode_putLatch (s : Pins) (p q : Pin) (l : Level) : pinMode (putLatch s p l) q = pinMode s q := by
  cases p <;> cases q <;> rfl

@[simp] theorem pinLatch_putMode (s : Pins) (p q : Pin) (m : PinMode) : pinLatch (putMode s p m) q = pinLatch s q := by
  cases p <;> cases q <;> rfl

@[simp] theorem pinMode_putMode (s : Pins) (p q : Pin) (m : PinMode) :
    pinMode (putMode s p m) q = if p = q then some m else pinMode s q := by
  cases p <;> cases q <;> rfl

@[simp] theorem pinLatch_putLatch (s : Pins) (p q : Pin) (l : Level) :
    pinLatch (putLatch s p l) q = if p = q then some l else pinLatch s q := by
  cases p <;> cases q <;> rfl

/-- The word stored for a fetch is the word fetched. -/
theorem putWord_get (ws : List Word) (n : Nat) (w : Word) : (putWord ws n w)[n]? = some w := by
  fun_induction putWord ws n w with
  | case1 => rfl
  | case2 => rfl
  | case3 n w ih => simpa using ih
  | case4 n w x rest ih => simpa using ih

/-- Storing a word leaves the words at other indexes that were there. -/
theorem putWord_get_of_ne (ws : List Word) (n k : Nat) (w : Word) (hk : k < ws.length) (h : k ≠ n) :
    (putWord ws n w)[k]? = ws[k]? := by
  induction ws generalizing n k with
  | nil => simp at hk
  | cons x rest ih =>
    cases n with
    | zero => cases k with
      | zero => exact absurd rfl h
      | succ k => rfl
    | succ n => cases k with
      | zero => rfl
      | succ k =>
        simp only [putWord, List.getElem?_cons_succ]
        exact ih n k (by simpa using hk) (by omega)

/-- `withFetchWord` puts the word where `step` fetches. -/
theorem fetch_withFetchWord (s : State) (n w : Nat) :
    fetch (s.withFetchWord n w) = some (BitVec.ofNat 32 (w % 2 ^ n)) := by
  simp [fetch, putWord_get]

end Sys2Proof.Machine
end

