-- ==== Sys2Proof/Laws/Ops.lean ====
section
/-! SUPPORT. What each shared operation can do, said once: sequencing, the helpers of R67 and R76, the checks, the draws
of the environment, and the end of an operation. -/

namespace Sys2Proof.Machine

/-- Sequencing: the second operation runs only where the first completes. -/
theorem op_bind {α β : Type} (x : Op α) (f : α → Op β) (s : State) :
    (x >>= f) s = match x s with
      | .ok a t => f a t
      | .error e t => .error e t := by
  simp only [bind, EStateM.bind]
  cases x s <;> rfl

theorem op_pure {α : Type} (a : α) (s : State) : (pure a : Op α) s = .ok a s := rfl

/-- A result passed through a function, the state as the operation leaves it. -/
theorem op_map {α β : Type} (f : α → β) (x : Op α) (s : State) :
    (f <$> x) s = match x s with
      | .ok a t => .ok (f a) t
      | .error e t => .error e t := by
  simp only [Functor.map, EStateM.map]
  cases x s <;> rfl

theorem op_bind_ok {α β : Type} {x : Op α} {f : α → Op β} {s t : State} {a : α} (h : x s = .ok a t) :
    (x >>= f) s = f a t := by rw [op_bind, h]

theorem op_bind_error {α β : Type} {x : Op α} {f : α → Op β} {s t : State} {e : Stop} (h : x s = .error e t) :
    (x >>= f) s = .error e t := by rw [op_bind, h]

theorem setMode_run (h : Handle) (p : Pin) (m : PinMode) (s : State) :
    setMode h p m s = .ok ()
      { s with trace := s.trace ++ [.setMode (hostPin h p) m], pins := putMode s.pins p m } := rfl

theorem writePin_out (h : Handle) (p : Pin) (l : Level) (s : State) (hm : pinMode s.pins p = some .out) :
    writePin h p l s = .ok ()
      { s with trace := s.trace ++ [.write (hostPin h p) l], pins := putLatch s.pins p l } := by
  simp [writePin, hm]

theorem writePin_notOut (h : Handle) (p : Pin) (l : Level) (s : State) (hm : pinMode s.pins p ≠ some .out) :
    writePin h p l s = .error (.fault .pinNotOutput) s := by
  simp [writePin, hm]

theorem readPin_run (h : Handle) (p : Pin) (s : State) :
    readPin h p s = .ok (drawLevel s.env).1
      { s with trace := s.trace ++ [.read (hostPin h p) (drawLevel s.env).1], env := (drawLevel s.env).2 } := rfl

theorem millisBounded_run (b : Millis → Millis) (s : State) :
    millisBounded b s = .ok (b (drawCount s.env).1)
      { s with trace := s.trace ++ [.millis (b (drawCount s.env).1)], env := (drawCount s.env).2 } := rfl

theorem emit_run (e : Event) (s : State) : emit e s = .ok () { s with trace := s.trace ++ [e] } := rfl

theorem writeRegs_run (f : Regs → Regs) (s : State) : writeRegs f s = .ok () { s with regs := f s.regs } := rfl

theorem operandReg_some {α : Type} (r : Regs → Option α) (s : State) (v : α) (h : r s.regs = some v) :
    operandReg r s = .ok v s := by simp [operandReg, h]

theorem operandReg_none {α : Type} (r : Regs → Option α) (s : State) (h : r s.regs = none) :
    operandReg r s = .error (.fault .unwritten) s := by simp [operandReg, h]

/-- An edge of a pin in `OUT` mode: its two events and the latch (R76). -/
theorem edge_out (h : Handle) (p : Pin) (l : Level) (s : State) (hm : pinMode s.pins p = some .out) :
    edge h p l s = .ok ()
      { s with trace := s.trace ++ edgeEvents h p l, pins := putLatch s.pins p l } := by
  simp [edge, op_bind, writePin_out h p l s hm, delayUs, emit, edgeEvents]

/-- An edge of a pin in another mode: the fault, and nothing else (R69). -/
theorem edge_notOut (h : Handle) (p : Pin) (l : Level) (s : State) (hm : pinMode s.pins p ≠ some .out) :
    edge h p l s = .error (.fault .pinNotOutput) s := by
  simp [edge, op_bind, writePin_notOut h p l s hm]

/-- What an edge can do: its two events in `OUT` mode, the fault in any other (R69, R76). -/
theorem edge_run (h : Handle) (p : Pin) (l : Level) (s : State) :
    edge h p l s =
      if pinMode s.pins p = some .out then
        .ok () { s with trace := s.trace ++ edgeEvents h p l, pins := putLatch s.pins p l }
      else .error (.fault .pinNotOutput) s := by
  split
  · next hm => exact edge_out h p l s hm
  · next hm => exact edge_notOut h p l s hm

theorem requireHandle_some (s : State) (h : Handle) (hh : s.handle = some h) : requireHandle s = .ok h s := by
  simp [requireHandle, hh]

theorem requireHandle_none (s : State) (hh : s.handle = none) :
    requireHandle s = .error (.fault .noHandle) s := by
  simp [requireHandle, hh]

/-- With a handle, an operation is its pseudocode (R110 (3)). -/
theorem withHandle_some (body : Handle → Op Unit) (s : State) (h : Handle) (hh : s.handle = some h) :
    withHandle body s = body h s := by
  simp [withHandle, op_bind, requireHandle_some s h hh]

/-- Without one, it is the fault of the state check (R110 (2)). -/
theorem withHandle_none (body : Handle → Op Unit) (s : State) (hh : s.handle = none) :
    withHandle body s = .error (.fault .noHandle) s := by
  simp [withHandle, op_bind, requireHandle_none s hh]

@[simp] theorem ofCode_code (c : Command) : Command.ofCode? c.code = some c := by
  cases c <;> decide

/-- A byte is a command's code exactly when the check finds that command (R61). -/
theorem ofCode_eq_some (b : Byte) (c : Command) : Command.ofCode? b = some c ↔ b = c.code := by
  constructor
  · intro h
    unfold Command.ofCode? at h
    split at h
    · next hb => cases h; exact hb
    · split at h
      · next hb => cases h; exact hb
      · cases h
  · rintro rfl; exact ofCode_code c

theorem requireCommand_code (c : Command) (s : State) : requireCommand c.code s = .ok c s := by
  simp [requireCommand, op_pure]

theorem requireCommand_none (b : Byte) (s : State) (h : Command.ofCode? b = none) :
    requireCommand b s = .error (.fault .badOperand) s := by
  simp [requireCommand, h, raiseFault]

theorem finish_ok {op : Op Unit} {s t : State} (h : op s = .ok () t) : finish op s = .next (advance t) := by
  simp [finish, h]

theorem finish_fault {op : Op Unit} {s t : State} {f : ModelFault} (h : op s = .error (.fault f) t) :
    finish op s = .next (takeFault f t) := by
  simp [finish, h]

theorem finish_refuse {op : Op Unit} {s t : State} (h : op s = .error .refuse t) :
    finish op s = .next (takeRefusal t) := by
  simp [finish, h]

/-- The three ways an operation ends (R106): every next state of `finish` is one of them. -/
theorem finish_cases {op : Op Unit} {s u : State} (h : finish op s = .next u) :
    (∃ t, op s = .ok () t ∧ u = advance t) ∨
    (∃ f t, op s = .error (.fault f) t ∧ u = takeFault f t) ∨
    (∃ t, op s = .error .refuse t ∧ u = takeRefusal t) := by
  unfold finish at h
  split at h
  · next t ht => cases h; exact .inl ⟨t, ht, rfl⟩
  · next f t ht => cases h; exact .inr (.inl ⟨f, t, ht, rfl⟩)
  · next t ht => cases h; exact .inr (.inr ⟨t, ht, rfl⟩)

/-- An operation always answers a next state: a fault or a refusal is recorded in it. -/
theorem finish_next (op : Op Unit) (s : State) : ∃ u, finish op s = .next u := by
  unfold finish
  split <;> exact ⟨_, rfl⟩

@[simp] theorem drawLevel_counts (e : Env) : (drawLevel e).2.counts = e.counts := by
  unfold drawLevel; split <;> rfl

@[simp] theorem drawLevel_countDraws (e : Env) : (drawLevel e).2.countDraws = e.countDraws := by
  unfold drawLevel; split <;> rfl

@[simp] theorem drawLevel_levelDraws (e : Env) : (drawLevel e).2.levelDraws = e.levelDraws + 1 := by
  unfold drawLevel; split <;> rfl

@[simp] theorem drawCount_levels (e : Env) : (drawCount e).2.levels = e.levels := by
  unfold drawCount; split <;> rfl

@[simp] theorem drawCount_levelDraws (e : Env) : (drawCount e).2.levelDraws = e.levelDraws := by
  unfold drawCount; split <;> rfl

@[simp] theorem drawCount_countDraws (e : Env) : (drawCount e).2.countDraws = e.countDraws + 1 := by
  unfold drawCount; split <;> rfl

@[simp] theorem drawLevels_length (n : Nat) (e : Env) : (drawLevels n e).1.length = n := by
  induction n generalizing e with
  | zero => rfl
  | succ n ih => simp [drawLevels, ih]

/-- Drawing `m` levels and then `n` is drawing `m + n`. -/
theorem drawLevels_add (m n : Nat) (e : Env) :
    drawLevels (m + n) e =
      ((drawLevels m e).1 ++ (drawLevels n (drawLevels m e).2).1, (drawLevels n (drawLevels m e).2).2) := by
  induction m generalizing e with
  | zero => simp [drawLevels]
  | succ m ih => rw [Nat.succ_add]; simp [drawLevels, ih]

end Sys2Proof.Machine
end

