-- ==== Sys2Proof/Laws/Protocol.lean ====
section
/-! SUPPORT. What each sub-operation of the protocol engine does, as one equation on the state it answers (R77 to R85).
The waiting loop is in Laws/Wait.lean. -/

namespace Sys2Proof.Machine

/-- `START` from any pin state: its 16 events, both pins driven, DATA high and SCK low (R77). -/
theorem startSeq_run (h : Handle) (s : State) :
    startSeq h s = .ok () { s with
      trace := s.trace ++ startEvents h,
      pins := { modeD := some .out, modeC := some .out, latD := some .hi, latC := some .lo } } := by
  simp [startSeq, op_bind, setMode_run, edge_run, putMode, putLatch, pinMode, startEvents, edgeEvents, hostPin]

/-- Clocking out bits, both pins in `OUT` mode (R78). The DATA latch ends at the last bit. -/
theorem shiftOutBits_run (h : Handle) (ls : List Level) (s : State)
    (hd : s.pins.modeD = some .out) (hc : s.pins.modeC = some .out) :
    shiftOutBits h ls s = .ok () { s with
      trace := s.trace ++ driveEvents h ls,
      pins := { s.pins with
        latD := if ls = [] then s.pins.latD else ls.getLast?,
        latC := if ls = [] then s.pins.latC else some .lo } } := by
  induction ls generalizing s with
  | nil => simp [shiftOutBits, op_pure, driveEvents]
  | cons b rest ih =>
    simp only [shiftOutBits, op_bind]
    rw [edge_out _ _ _ _ (by simpa [pinMode] using hd)]
    simp only []
    rw [edge_out _ _ _ _ (by simpa [pinMode, putLatch] using hc)]
    simp only []
    rw [edge_out _ _ _ _ (by simpa [pinMode, putLatch] using hc)]
    simp only []
    rw [ih _ (by simpa [putLatch] using hd) (by simpa [putLatch] using hc)]
    cases rest with
    | nil => simp [putLatch, driveEvents, driveBitEvents, List.append_assoc]
    | cons c r => simp [putLatch, driveEvents, driveBitEvents, List.append_assoc]

/-- `SHIFTOUT8` with both pins in `OUT` mode (R78). -/
theorem shiftOut8_run (h : Handle) (b : Byte) (s : State)
    (hd : s.pins.modeD = some .out) (hc : s.pins.modeC = some .out) :
    shiftOut8 h b s = .ok () { s with
      trace := s.trace ++ commandEvents h b,
      pins := { s.pins with latD := some (levelOfBit (b.getLsbD 0)), latC := some .lo } } := by
  rw [shiftOut8, shiftOutBits_run h _ s hd hc]
  simp [bitsMsbFirst, commandEvents]

/-- `ACK` with SCK in `OUT` mode: the next two levels of the sensor are the samples (R79). -/
theorem ackClock_run (h : Handle) (s : State) (hc : s.pins.modeC = some .out) :
    ackClock h s =
      let d0 := drawLevel s.env
      let d1 := drawLevel d0.2
      .ok (ackStatus d0.1 d1.1) { s with
        trace := s.trace ++ ackEvents h d0.1 d1.1,
        pins := { s.pins with modeD := some .inputPullup, latC := some .lo },
        regs := { s.regs with a0 := some d0.1, a1 := some d1.1, txst := some (ackStatus d0.1 d1.1) },
        env := d1.2 } := by
  simp [ackClock, op_bind, op_map, setMode_run, edge_run, readPin_run, writeRegs_run, putMode, putLatch, pinMode, hc,
    ackEvents, edgeEvents, hostPin]

/-- `SENDCMD` from any pin state (R80). -/
theorem sendCommand_run (h : Handle) (c : Command) (s : State) :
    sendCommand h c s =
      let d0 := drawLevel s.env
      let d1 := drawLevel d0.2
      .ok (ackStatus d0.1 d1.1) { s with
        trace := s.trace ++ sendEvents h c.code d0.1 d1.1,
        pins := { modeD := some .inputPullup, modeC := some .out,
                  latD := some (levelOfBit (c.code.getLsbD 0)), latC := some .lo },
        regs := { s.regs with a0 := some d0.1, a1 := some d1.1, txst := some (ackStatus d0.1 d1.1) },
        env := d1.2 } := by
  simp only [sendCommand, op_bind, startSeq_run]
  rw [shiftOut8_run _ _ _ rfl rfl]
  simp only []
  rw [ackClock_run _ _ rfl]
  simp [sendEvents]

/-- Clocking in bits with SCK in `OUT` mode: the next levels of the sensor, shifted in in order (R82). -/
theorem shiftInBits_run (h : Handle) (n : Nat) (acc : Byte) (s : State) (hc : s.pins.modeC = some .out) :
    shiftInBits h n acc s = .ok ((drawLevels n s.env).1.foldl shiftInBit acc) { s with
      trace := s.trace ++ sampleEvents h (drawLevels n s.env).1,
      pins := { s.pins with latC := if n = 0 then s.pins.latC else some .lo },
      env := (drawLevels n s.env).2 } := by
  induction n generalizing acc s with
  | zero => simp [shiftInBits, op_pure, drawLevels, sampleEvents]
  | succ n ih =>
    simp only [shiftInBits, op_bind]
    rw [edge_out _ _ _ _ (by simpa [pinMode] using hc)]
    simp only [readPin_run]
    rw [edge_out _ _ _ _ (by simpa [pinMode, putLatch] using hc)]
    simp only []
    rw [ih _ _ (by simpa [putLatch] using hc)]
    cases n <;> simp [putLatch, drawLevels, sampleEvents, sampleBitEvents, hostPin, List.append_assoc]

/-- The byte of eight sampled levels, the first in bit 7. -/
def byteOfSamples (ls : List Level) : Byte := ls.foldl shiftInBit 0#8

/-- `SHIFTIN8` with SCK in `OUT` mode (R82). -/
theorem shiftIn8_run (h : Handle) (s : State) (hc : s.pins.modeC = some .out) :
    shiftIn8 h s = .ok (byteOfSamples (drawLevels 8 s.env).1) { s with
      trace := s.trace ++ sampleEvents h (drawLevels 8 s.env).1,
      pins := { s.pins with latC := some .lo },
      regs := { s.regs with byte := some (byteOfSamples (drawLevels 8 s.env).1) },
      env := (drawLevels 8 s.env).2 } := by
  simp only [shiftIn8, op_bind]
  rw [shiftInBits_run _ _ _ _ hc]
  simp [writeRegs_run, op_pure, byteOfSamples]

/-- Sampled bits and the byte they make are the same eight levels, most significant first (R82). -/
theorem bitsMsbFirst_byteOfSamples (ls : List Level) (h : ls.length = 8) : bitsMsbFirst (byteOfSamples ls) = ls := by
  match ls, h with
  | [l0, l1, l2, l3, l4, l5, l6, l7], _ =>
    cases l0 <;> cases l1 <;> cases l2 <;> cases l3 <;> cases l4 <;> cases l5 <;> cases l6 <;> cases l7 <;> rfl

/-- `MIDACK` with SCK in `OUT` mode (R83). -/
theorem midAck_run (h : Handle) (s : State) (hc : s.pins.modeC = some .out) :
    midAck h s = .ok () { s with
      trace := s.trace ++ midAckEvents h,
      pins := { s.pins with modeD := some .out, latD := some .lo, latC := some .lo } } := by
  simp [midAck, op_bind, setMode_run, edge_run, putMode, putLatch, pinMode, hc, midAckEvents, edgeEvents, hostPin]

/-- `CRCSKIP` with SCK in `OUT` mode (R85). -/
theorem crcSkip_run (h : Handle) (s : State) (hc : s.pins.modeC = some .out) :
    crcSkip h s = .ok () { s with
      trace := s.trace ++ crcSkipEvents h,
      pins := { s.pins with modeD := some .out, latD := some .hi, latC := some .lo } } := by
  simp [crcSkip, op_bind, setMode_run, edge_run, putMode, putLatch, pinMode, hc, crcSkipEvents, edgeEvents, hostPin]

/-- `READ16` with SCK in `OUT` mode (R84): the next sixteen levels of the sensor, the first in bit 15. -/
theorem shiftIn16_run (h : Handle) (s : State) (hc : s.pins.modeC = some .out) :
    shiftIn16 h s =
      let b0 := drawLevels 8 s.env
      let b1 := drawLevels 8 b0.2
      .ok (rawOfBytes (byteOfSamples b0.1) (byteOfSamples b1.1)) { s with
        trace := s.trace ++ read16Events h b0.1 b1.1,
        pins := { s.pins with modeD := some .inputPullup, latD := some .lo, latC := some .lo },
        regs := { s.regs with
          byte := some (byteOfSamples b1.1),
          d16 := some (rawOfBytes (byteOfSamples b0.1) (byteOfSamples b1.1)) },
        env := b1.2 } := by
  simp only [shiftIn16, op_bind, setMode_run]
  rw [shiftIn8_run _ _ (by simpa [putMode] using hc)]
  simp only []
  rw [midAck_run _ _ (by simpa [putMode] using hc)]
  simp only []
  rw [shiftIn8_run _ _ (by simpa [putMode] using hc)]
  simp [writeRegs_run, op_pure, putMode, read16Events, hostPin]

/-- The end of `READRAW`: one raw/status pair (R86). -/
theorem recordExchange_run (c : Command) (st : Status) (raw : Option Raw) (s : State) :
    recordExchange c st raw s = .ok st { s with
      regs := match c with
        | .measT => { s.regs with rstT := some st, rawT := raw }
        | .measRH => { s.regs with rstH := some st, rawH := raw } } := by
  cases c <;> rfl

end Sys2Proof.Machine
end

