-- ==== Sys2Proof/Laws/Wait.lean ====
section
/-! SUPPORT. The waiting loop (R81) and host duty HD2 (R118): what a bounded count is, what the loop can do, and that
the bound on its polls is never what ends it. -/

namespace Sys2Proof.Machine

/-- The count a wait draws is one HD2 allows, and the counter does not wrap past its start (R118). -/
theorem hd2Draw_gain (t0 last c : Millis) (he : (last - t0).toNat < Config.timeoutMs) :
    Config.pollMs ≤ (hd2Draw t0 last c - last).toNat ∧
    (last - t0).toNat + (hd2Draw t0 last c - last).toNat < 2 ^ 32 - Config.timeoutMs := by
  simp only [Config.timeoutMs, Config.pollMs] at he ⊢
  by_cases ha : hd2Allows (last - t0).toNat (c - last).toNat = true
  · rw [hd2Draw, if_pos ha]
    rw [hd2Allows, Bool.and_eq_true] at ha
    exact ⟨of_decide_eq_true ha.1, of_decide_eq_true ha.2⟩
  · rw [hd2Draw, if_neg ha]
    simp only [Config.timeoutMs, Config.pollMs]
    have hm : c.toNat % (2 ^ 32 - 1000 - (last - t0).toNat - 10) < 2 ^ 32 - 1000 - (last - t0).toNat - 10 :=
      Nat.mod_lt _ (by omega)
    rw [BitVec.add_comm, BitVec.add_sub_cancel, BitVec.toNat_ofNat, Nat.mod_eq_of_lt (by omega)]
    omega

/-- Where HD2 allows the host clock's choice, that choice is what is drawn (R119). -/
theorem hd2Draw_allowed (t0 last c : Millis) (h : hd2Allows (last - t0).toNat (c - last).toNat = true) :
    hd2Draw t0 last c = c := by
  rw [hd2Draw, if_pos h]

/-- The counter's advance since the start adds up, modulo 2^32 and below it. -/
theorem elapsed_add (t0 last t : Millis) (h : (last - t0).toNat + (t - last).toNat < 2 ^ 32) :
    (t - t0).toNat = (last - t0).toNat + (t - last).toNat := by
  have : t - t0 = (last - t0) + (t - last) := by
    ring
  rw [this, BitVec.toNat_add, Nat.mod_eq_of_lt h]

/-- Counts one after another as HD2 allows them: each ahead of the one before by at least the poll delay, all of them
ahead of the first by less than 2^32 - TIMEOUT_MS (R118). -/
def Hd2Chain (t0 : Millis) : Millis → List Millis → Prop
  | _, [] => True
  | last, t :: rest =>
    Config.pollMs ≤ (t - last).toNat ∧
    (last - t0).toNat + (t - last).toNat < 2 ^ 32 - Config.timeoutMs ∧ Hd2Chain t0 t rest

/-- What the waiting loop can do, with enough polls allowed for the time left: busy polls, none timed out, and then
either a ready poll or one more busy poll that times out. -/
theorem waitPolls_cases (h : Handle) (t0 : Millis) (n : Nat) (last : Millis) (s : State)
    (he : (last - t0).toNat < Config.timeoutMs)
    (hn : Config.timeoutMs ≤ (last - t0).toNat + Config.pollMs * n) :
    ∃ ts env, Hd2Chain t0 last ts ∧ ts.length ≤ n ∧
      env.countDraws = s.env.countDraws + ts.length ∧
      ((ts.length < n ∧ (∀ t ∈ ts, timedOut t0 t = false) ∧
        (drawLevels (ts.length + 1) s.env).1 = List.replicate ts.length .hi ++ [.lo] ∧
        env.levels = (drawLevels (ts.length + 1) s.env).2.levels ∧
        env.levelDraws = s.env.levelDraws + (ts.length + 1) ∧
        waitPolls h t0 n last s = .ok .ready { s with
          trace := s.trace ++ ts.flatMap (busyPollEvents h) ++ readyPollEvents h, env := env }) ∨
       (∃ ts' t, ts = ts' ++ [t] ∧ (∀ t ∈ ts', timedOut t0 t = false) ∧ timedOut t0 t = true ∧
        (drawLevels ts.length s.env).1 = List.replicate ts.length .hi ∧
        env.levels = (drawLevels ts.length s.env).2.levels ∧
        env.levelDraws = s.env.levelDraws + ts.length ∧
        waitPolls h t0 n last s = .ok .timeout { s with
          trace := s.trace ++ ts.flatMap (busyPollEvents h), env := env })) := by
  induction n generalizing last s with
  | zero => omega
  | succ n ih =>
    have key : waitPolls h t0 (n + 1) last s =
        if (drawLevel s.env).1 = .lo then
          .ok .ready { s with trace := s.trace ++ readyPollEvents h, env := (drawLevel s.env).2 }
        else
          let d := drawCount (drawLevel s.env).2
          let t := hd2Draw t0 last d.1
          let u : State := { s with trace := s.trace ++ busyPollEvents h t, env := d.2 }
          if timedOut t0 t = true then .ok .timeout u else waitPolls h t0 n t u := by
      simp only [waitPolls, op_bind, delayMs, emit_run, readPin_run]
      cases hl : (drawLevel s.env).1 with
      | lo => simp [op_pure, readyPollEvents, hostPin]
      | hi =>
        simp only [reduceCtorEq, if_false, op_bind, millisBounded_run]
        split <;> simp [op_pure, busyPollEvents, hostPin]
    cases hl : (drawLevel s.env).1 with
    | lo =>
      refine ⟨[], (drawLevel s.env).2, trivial, by simp, by simp, .inl ⟨by simp, by simp, ?_, ?_, by simp, ?_⟩⟩
      · simp [drawLevels, hl]
      · simp [drawLevels]
      · rw [key, if_pos hl]; simp
    | hi =>
      generalize hd : drawCount (drawLevel s.env).2 = d at key
      generalize ht : hd2Draw t0 last d.1 = t at key
      have hg := hd2Draw_gain t0 last d.1 he
      rw [ht] at hg
      have hel := elapsed_add t0 last t (by have := hg.2; simp only [Config.timeoutMs] at this; omega)
      have hlev : d.2.levels = (drawLevel s.env).2.levels := by rw [← hd]; simp
      have hld : d.2.levelDraws = s.env.levelDraws + 1 := by rw [← hd]; simp
      have hcd : d.2.countDraws = s.env.countDraws + 1 := by rw [← hd]; simp
      by_cases hto : timedOut t0 t = true
      · refine ⟨[t], d.2, ⟨hg.1, hg.2, trivial⟩, by simp, by simp [hcd], .inr ⟨[], t, rfl, by simp, hto, ?_, ?_, ?_, ?_⟩⟩
        · simp [drawLevels, hl]
        · simp [drawLevels, hlev]
        · simp [hld]
        · rw [key, if_neg (by simp [hl])]; simp [ht, hto]
      · have hto' : timedOut t0 t = false := by simpa using hto
        have he' : (t - t0).toNat < Config.timeoutMs := by simpa [timedOut] using hto'
        have hn' : Config.timeoutMs ≤ (t - t0).toNat + Config.pollMs * n := by
          rw [hel]; have := hg.1; rw [Nat.mul_succ] at hn; omega
        let u : State := { s with trace := s.trace ++ busyPollEvents h t, env := d.2 }
        obtain ⟨ts, env, hch, hlen, hcnt, hres⟩ := ih t u he' hn'
        have hrun : waitPolls h t0 (n + 1) last s = waitPolls h t0 n t u := by
          rw [key, if_neg (by simp [hl])]; simp [ht, hto', u]
        have hdraw : ∀ k, (drawLevels k d.2).1 = (drawLevels k (drawLevel s.env).2).1 ∧
            (drawLevels k d.2).2.levels = (drawLevels k (drawLevel s.env).2).2.levels := by
          intro k
          have : ∀ e e' : Env, e.levels = e'.levels → e.levelDraws = e'.levelDraws →
              (drawLevels k e).1 = (drawLevels k e').1 ∧ (drawLevels k e).2.levels = (drawLevels k e').2.levels := by
            induction k with
            | zero => intro e e' h1 _; exact ⟨rfl, h1⟩
            | succ k ihk =>
              intro e e' h1 h2
              have hone : (drawLevel e).1 = (drawLevel e').1 ∧ (drawLevel e).2.levels = (drawLevel e').2.levels ∧
                  (drawLevel e).2.levelDraws = (drawLevel e').2.levelDraws := by
                simp [drawLevel, h1, h2]; cases e'.levels <;> simp
              have := ihk _ _ hone.2.1 hone.2.2
              simp [drawLevels, hone.1, this.1, this.2]
          exact this _ _ hlev (by rw [hld]; simp)
        refine ⟨t :: ts, env, ⟨hg.1, hg.2, hch⟩, by simp; omega, by rw [hcnt]; simp [u, hcd]; omega, ?_⟩
        rcases hres with ⟨hlt, hall, hd1, hd2, hd3, hw⟩ | ⟨ts', t', rfl, hall, hto2, hd1, hd2, hd3, hw⟩
        · refine .inl ⟨by simp; omega, ?_, ?_, ?_, ?_, ?_⟩
          · intro x hx
            rcases List.mem_cons.mp hx with rfl | hx
            · exact hto'
            · exact hall x hx
          · simp only [List.length_cons]
            rw [drawLevels]
            simp only [hl]
            have := (hdraw (ts.length + 1)).1
            simp only [u] at hd1
            rw [← this, hd1]
            simp [List.replicate_succ]
          · rw [hd2]
            simp only [List.length_cons, u]
            rw [drawLevels]
            exact (hdraw (ts.length + 1)).2
          · rw [hd3]; simp [u, hld]; omega
          · rw [hrun, hw]; simp [u]
        · refine .inr ⟨t :: ts', t', by simp, ?_, hto2, ?_, ?_, ?_, ?_⟩
          · intro x hx
            rcases List.mem_cons.mp hx with rfl | hx
            · exact hto'
            · exact hall x hx
          · simp only [List.length_cons]
            rw [drawLevels]
            simp only [hl]
            have := (hdraw ((ts' ++ [t']).length)).1
            simp only [u] at hd1
            rw [← this, hd1]
            simp [List.replicate_succ]
          · rw [hd2]
            simp only [List.length_cons, u]
            rw [drawLevels]
            exact (hdraw ((ts' ++ [t']).length)).2
          · rw [hd3]; simp [u, hld]; omega
          · rw [hrun, hw]; simp [u]

/-- The bound on the polls never ends a wait: a larger one changes nothing (R81). -/
theorem waitPolls_bound (h : Handle) (t0 : Millis) (n k : Nat) (last : Millis) (s : State)
    (he : (last - t0).toNat < Config.timeoutMs)
    (hn : Config.timeoutMs ≤ (last - t0).toNat + Config.pollMs * n) :
    waitPolls h t0 (n + k) last s = waitPolls h t0 n last s := by
  induction n generalizing last s with
  | zero => omega
  | succ n ih =>
    rw [Nat.succ_add]
    simp only [waitPolls, op_bind, delayMs, emit_run, readPin_run]
    split
    · rfl
    · simp only [op_bind, millisBounded_run]
      split
      · rfl
      · next hto =>
        have hg := hd2Draw_gain t0 last (drawCount (drawLevel s.env).2).1 he
        have hel := elapsed_add t0 last (hd2Draw t0 last (drawCount (drawLevel s.env).2).1)
          (by have := hg.2; simp only [Config.timeoutMs] at this; omega)
        refine ih _ _ ?_ ?_
        · simpa [timedOut] using hto
        · rw [hel]; have := hg.1; rw [Nat.mul_succ] at hn; omega

end Sys2Proof.Machine
end

