-- ==== Sys2Proof/Laws/Exchange.lean ====
section
/-! SUPPORT. What a wait and a whole exchange do (R81, R86): `WAIT`'s two ends, and the three ends of `READRAW`. Both
complete from every state. -/

namespace Sys2Proof.Machine

/-- The two ends of a wait (R81): `k - 1` busy polls and a ready one, or `k` busy polls of which the last timed out. -/
theorem waitReady_cases (h : Handle) (s : State) :
    ∃ (busy : List Millis) (env : Env),
      Hd2Chain (drawCount s.env).1 (drawCount s.env).1 busy ∧ busy.length ≤ 100 ∧
      env.countDraws = s.env.countDraws + 1 + busy.length ∧
      ((busy.length < 100 ∧ (∀ t ∈ busy, timedOut (drawCount s.env).1 t = false) ∧
        (drawLevels (busy.length + 1) (drawCount s.env).2).1 = List.replicate busy.length .hi ++ [.lo] ∧
        env.levels = (drawLevels (busy.length + 1) (drawCount s.env).2).2.levels ∧
        env.levelDraws = s.env.levelDraws + (busy.length + 1) ∧
        waitReady h s = .ok .ready { s with
          trace := s.trace ++ [.setMode h.dpin .inputPullup, .millis (drawCount s.env).1]
            ++ busy.flatMap (busyPollEvents h) ++ readyPollEvents h,
          pins := { s.pins with modeD := some .inputPullup },
          regs := { s.regs with wst := some .ready }, env := env }) ∨
       (∃ early last, busy = early ++ [last] ∧ (∀ t ∈ early, timedOut (drawCount s.env).1 t = false) ∧
        timedOut (drawCount s.env).1 last = true ∧
        (drawLevels busy.length (drawCount s.env).2).1 = List.replicate busy.length .hi ∧
        env.levels = (drawLevels busy.length (drawCount s.env).2).2.levels ∧
        env.levelDraws = s.env.levelDraws + busy.length ∧
        waitReady h s = .ok .timeout { s with
          trace := s.trace ++ [.setMode h.dpin .inputPullup, .millis (drawCount s.env).1]
            ++ busy.flatMap (busyPollEvents h),
          pins := { s.pins with modeD := some .inputPullup },
          regs := { s.regs with wst := some .timeout }, env := env })) := by
  let u : State := { s with
    trace := s.trace ++ [.setMode h.dpin .inputPullup, .millis (drawCount s.env).1],
    pins := { s.pins with modeD := some .inputPullup }, env := (drawCount s.env).2 }
  obtain ⟨busy, env, hch, hlen, hcnt, hres⟩ := waitPolls_cases h (drawCount s.env).1 100 (drawCount s.env).1 u
    (by simp [Config.timeoutMs]) (by simp [Config.timeoutMs, Config.pollMs])
  have hrun : waitReady h s = ((waitPolls h (drawCount s.env).1 100 (drawCount s.env).1 >>= fun w =>
      (do writeRegs fun r => { r with wst := some w }; pure w)) : Op WaitStatus) u := by
    simp [waitReady, op_bind, setMode_run, readMillis, millisBounded_run, maxPolls, Config.timeoutMs, Config.pollMs, u,
      putMode, hostPin]
  refine ⟨busy, env, hch, hlen, by simpa [u] using hcnt, ?_⟩
  rcases hres with ⟨h1, h2, h3, h4, h5, h6⟩ | ⟨early, last, h1, h2, h3, h4, h5, h6, h7⟩
  · refine .inl ⟨h1, h2, h3, h4, by simpa [u] using h5, ?_⟩
    rw [hrun, op_bind_ok h6]
    simp [op_bind, writeRegs_run, op_pure, u]
  · refine .inr ⟨early, last, h1, h2, h3, h4, h5, by simpa [u] using h6, ?_⟩
    rw [hrun, op_bind_ok h7]
    simp [op_bind, writeRegs_run, op_pure, u]

/-- The state `recordExchange` leaves (R86). -/
def recordedExchange (c : Command) (st : Status) (raw : Option Raw) (s : State) : State :=
  match c with
  | .measT => { s with regs := { s.regs with rstT := some st, rawT := raw } }
  | .measRH => { s with regs := { s.regs with rstH := some st, rawH := raw } }

theorem recordExchange_eq (c : Command) (st : Status) (raw : Option Raw) (s : State) :
    recordExchange c st raw s = .ok st (recordedExchange c st raw s) := by cases c <;> rfl

/-- An exchange whose command is not acknowledged ends there (R86). -/
theorem readRaw_notAcknowledged (h : Handle) (c : Command) (s u : State) (tx : TxStatus)
    (hs : sendCommand h c s = .ok tx u) (ht : tx ≠ .ok) :
    readRaw h c s = .ok (statusOfTx tx) (recordedExchange c (statusOfTx tx) none u) := by
  rw [readRaw, op_bind_ok hs, if_pos ht, recordExchange_eq]

/-- An acknowledged exchange whose wait times out ends there (R86). -/
theorem readRaw_timeout (h : Handle) (c : Command) (s u v : State)
    (hs : sendCommand h c s = .ok .ok u) (hw : waitReady h u = .ok .timeout v) :
    readRaw h c s = .ok .eTimeout (recordedExchange c .eTimeout none v) := by
  rw [readRaw, op_bind_ok hs, if_neg (by simp), op_bind_ok hw, if_pos rfl, recordExchange_eq]

/-- An exchange that is ready is read out, and its CRC clock skipped (R86). -/
theorem readRaw_ready (h : Handle) (c : Command) (s u v x y : State) (d : Raw)
    (hs : sendCommand h c s = .ok .ok u) (hw : waitReady h u = .ok .ready v)
    (hd : shiftIn16 h v = .ok d x) (hc : crcSkip h x = .ok () y) :
    readRaw h c s = .ok .ok (recordedExchange c .ok (some d) y) := by
  rw [readRaw, op_bind_ok hs, if_neg (by simp), op_bind_ok hw, if_neg (by simp), op_bind_ok hd, op_bind_ok hc,
    recordExchange_eq]

/-- What the sub-operations of an exchange leave alone: all of the state but the trace, the pins, the draws and the
sample, wait and byte registers. The trace only grows (R31, R37). -/
structure SubFrame (s t : State) : Prop where
  pc : t.pc = s.pc
  fault : t.fault = s.fault
  refused : t.refused = s.refused
  handle : t.handle = s.handle
  program : t.program = s.program
  coeff : t.coeff = s.coeff
  smp : t.regs.smp = s.regs.smp
  ms : t.regs.ms = s.regs.ms
  tc : t.regs.tc = s.regs.tc
  out : t.regs.out = s.regs.out
  rawT : t.regs.rawT = s.regs.rawT
  rstT : t.regs.rstT = s.regs.rstT
  rawH : t.regs.rawH = s.regs.rawH
  rstH : t.regs.rstH = s.regs.rstH
  trace : ∃ events, t.trace = s.trace ++ events

theorem SubFrame.trans {s t u : State} (a : SubFrame s t) (b : SubFrame t u) : SubFrame s u where
  pc := b.pc.trans a.pc
  fault := b.fault.trans a.fault
  refused := b.refused.trans a.refused
  handle := b.handle.trans a.handle
  program := b.program.trans a.program
  coeff := b.coeff.trans a.coeff
  smp := b.smp.trans a.smp
  ms := b.ms.trans a.ms
  tc := b.tc.trans a.tc
  out := b.out.trans a.out
  rawT := b.rawT.trans a.rawT
  rstT := b.rstT.trans a.rstT
  rawH := b.rawH.trans a.rawH
  rstH := b.rstH.trans a.rstH
  trace := by
    obtain ⟨e, he⟩ := a.trace
    obtain ⟨f, hf⟩ := b.trace
    exact ⟨e ++ f, by rw [hf, he, List.append_assoc]⟩

/-- A state in the middle or at the end of an exchange: SCK is driven, DATA has a mode, and the three acknowledgment
registers agree (R79). -/
structure InExchange (t : State) : Prop where
  clock : t.pins.modeC = some .out
  data : t.pins.modeD ≠ none
  ack : ∃ a0 a1, t.regs.a0 = some a0 ∧ t.regs.a1 = some a1 ∧ t.regs.txst = some (ackStatus a0 a1)

/-- `SENDCMD` completes (R80). -/
theorem sendCommand_total (h : Handle) (c : Command) (s : State) :
    ∃ tx t, sendCommand h c s = .ok tx t ∧ SubFrame s t ∧ InExchange t ∧ t.regs.txst = some tx :=
  ⟨_, _, sendCommand_run h c s,
    ⟨rfl, rfl, rfl, rfl, rfl, rfl, rfl, rfl, rfl, rfl, rfl, rfl, rfl, rfl, _, rfl⟩,
    ⟨rfl, by simp, _, _, rfl, rfl, rfl⟩, rfl⟩

/-- `WAIT` completes (R81). -/
theorem waitReady_total (h : Handle) (s : State) (hs : InExchange s) :
    ∃ w t, waitReady h s = .ok w t ∧ SubFrame s t ∧ InExchange t ∧ t.regs.wst = some w := by
  obtain ⟨busy, env, -, -, -, ⟨-, -, -, -, -, hw⟩ | ⟨_, _, -, -, -, -, -, -, hw⟩⟩ := waitReady_cases h s
  · exact ⟨_, _, hw,
      ⟨rfl, rfl, rfl, rfl, rfl, rfl, rfl, rfl, rfl, rfl, rfl, rfl, rfl, rfl, _, by simp only [List.append_assoc]; rfl⟩,
      ⟨hs.clock, by simp, hs.ack⟩, rfl⟩
  · exact ⟨_, _, hw,
      ⟨rfl, rfl, rfl, rfl, rfl, rfl, rfl, rfl, rfl, rfl, rfl, rfl, rfl, rfl, _, by simp only [List.append_assoc]; rfl⟩,
      ⟨hs.clock, by simp, hs.ack⟩, rfl⟩

/-- `READ16` completes in an exchange (R84). -/
theorem shiftIn16_total (h : Handle) (s : State) (hs : InExchange s) :
    ∃ d t, shiftIn16 h s = .ok d t ∧ SubFrame s t ∧ InExchange t ∧ t.regs.d16 = some d :=
  ⟨_, _, shiftIn16_run h s hs.clock,
    ⟨rfl, rfl, rfl, rfl, rfl, rfl, rfl, rfl, rfl, rfl, rfl, rfl, rfl, rfl, _, rfl⟩,
    ⟨hs.clock, by simp, hs.ack⟩, rfl⟩

/-- `CRCSKIP` completes in an exchange (R85). -/
theorem crcSkip_total (h : Handle) (s : State) (hs : InExchange s) :
    ∃ t, crcSkip h s = .ok () t ∧ SubFrame s t ∧ InExchange t ∧ t.regs.d16 = s.regs.d16 :=
  ⟨_, crcSkip_run h s hs.clock,
    ⟨rfl, rfl, rfl, rfl, rfl, rfl, rfl, rfl, rfl, rfl, rfl, rfl, rfl, rfl, _, rfl⟩,
    ⟨hs.clock, by simp, hs.ack⟩, rfl⟩

/-- An exchange completes from every state: what its sub-operations leave, with the command's pair written to it. The
raw code is there exactly when the status is OK (R86, R29). -/
theorem readRaw_total (h : Handle) (c : Command) (s : State) :
    ∃ st raw u, readRaw h c s = .ok st (recordedExchange c st raw u) ∧ (raw.isSome = true ↔ st = .ok) ∧
      SubFrame s u ∧ InExchange u := by
  obtain ⟨tx, u, hu, fu, iu, -⟩ := sendCommand_total h c s
  by_cases ht : tx = .ok
  · subst ht
    obtain ⟨w, v, hv, fv, iv, -⟩ := waitReady_total h u iu
    cases w with
    | ready =>
      obtain ⟨d, x, hx, fx, ix, -⟩ := shiftIn16_total h v iv
      obtain ⟨y, hy, fy, iy, -⟩ := crcSkip_total h x ix
      exact ⟨_, _, y, readRaw_ready h c s u v x y d hu hv hx hy, by simp,
        ((fu.trans fv).trans fx).trans fy, iy⟩
    | timeout => exact ⟨_, _, v, readRaw_timeout h c s u v hu hv, by simp, fu.trans fv, iv⟩
  · refine ⟨_, _, u, readRaw_notAcknowledged h c s u tx hu ht, ?_, fu, iu⟩
    cases tx <;> simp [statusOfTx] at ht ⊢

end Sys2Proof.Machine
end

