-- ==== Sys2Proof/Laws/Calibration.lean ====
section
/-! SUPPORT. What each conversion does, case by case of its pseudocode (R92 to R94), and when a formula has a value
(R109). -/

namespace Sys2Proof.Machine

/-- The Celsius formula with its coefficients (R92). -/
theorem celsius_some (k : Coefficients) (v : VClass) (t : TRes) (raw : Raw) (a b : Decimal)
    (ha : k.d1c.get v = some a) (hb : k.d2c.get t = some b) : celsius k v t raw = some (affine a b raw) := by
  simp [celsius, ha, hb]

/-- The Celsius formula is without a value exactly where it lacks a coefficient (R109). -/
theorem celsius_eq_none (k : Coefficients) (v : VClass) (t : TRes) (raw : Raw) :
    celsius k v t raw = none ↔ k.d1c.get v = none ∨ k.d2c.get t = none := by
  cases ha : k.d1c.get v <;> cases hb : k.d2c.get t <;> simp [celsius, ha, hb]

/-- The Fahrenheit formula with its coefficients (R93). -/
theorem fahrenheit_some (k : Coefficients) (v : VClass) (t : TRes) (raw : Raw) (a b : Decimal)
    (ha : k.d1f.get v = some a) (hb : k.d2f.get t = some b) : fahrenheit k v t raw = some (affine a b raw) := by
  simp [fahrenheit, ha, hb]

/-- The Fahrenheit formula is without a value exactly where it lacks a coefficient (R109). -/
theorem fahrenheit_eq_none (k : Coefficients) (v : VClass) (t : TRes) (raw : Raw) :
    fahrenheit k v t raw = none ↔ k.d1f.get v = none ∨ k.d2f.get t = none := by
  cases ha : k.d1f.get v <;> cases hb : k.d2f.get t <;> simp [fahrenheit, ha, hb]

/-- The humidity formula with its coefficients (R94). -/
theorem humidity_some (k : Coefficients) (h : HRes) (raw : Raw) (tc : F32) (a1 a2 a3 b1 b2 : Decimal)
    (h1 : k.c1.get h = some a1) (h2 : k.c2.get h = some a2) (h3 : k.c3.get h = some a3)
    (h4 : k.t1.get h = some b1) (h5 : k.t2.get h = some b2) :
    humidity k h raw tc = some (fadd (compensation b1 b2 raw tc) (linearHumidity a1 a2 a3 raw)) := by
  simp [humidity, h1, h2, h3, h4, h5]

/-- The humidity formula is without a value exactly where it lacks a coefficient (R109). -/
theorem humidity_eq_none (k : Coefficients) (h : HRes) (raw : Raw) (tc : F32) :
    humidity k h raw tc = none ↔
      k.c1.get h = none ∨ k.c2.get h = none ∨ k.c3.get h = none ∨ k.t1.get h = none ∨ k.t2.get h = none := by
  cases h1 : k.c1.get h <;> cases h2 : k.c2.get h <;> cases h3 : k.c3.get h <;> cases h4 : k.t1.get h <;>
    cases h5 : k.t2.get h <;> simp [humidity, h1, h2, h3, h4, h5]

/-- Where a formula lacks a coefficient, the store is not fully supplied for the classes. -/
theorem supplied_of_none (k : Coefficients) (v : VClass) (t : TRes) (h : HRes)
    (hn : k.d1c.get v = none ∨ k.d2c.get t = none ∨ k.d1f.get v = none ∨ k.d2f.get t = none ∨ k.c1.get h = none ∨
      k.c2.get h = none ∨ k.c3.get h = none ∨ k.t1.get h = none ∨ k.t2.get h = none) :
    k.supplied v t h = false := by
  rcases hn with hn | hn | hn | hn | hn | hn | hn | hn | hn <;> simp [Coefficients.supplied, hn]

theorem convCelsius_unwritten (h : Handle) (s : State) (hr : s.regs.rstT = none) :
    convCelsius h s = .error (.fault .unwritten) s := by
  simp [convCelsius, op_bind, operandReg_none _ s hr]

theorem convCelsius_failed (h : Handle) (s : State) (st : Status) (hr : s.regs.rstT = some st) (ho : st ≠ .ok) :
    convCelsius h s = .ok () { s with regs := { s.regs with out := some .invalid, tc := some .invalid } } := by
  simp [convCelsius, op_bind, operandReg_some _ s st hr, ho, writeRegs_run]

theorem convCelsius_value (h : Handle) (s : State) (raw : Raw) (hr : s.regs.rstT = some .ok)
    (hw : s.regs.rawT = some raw) (v : F32) (hv : celsius s.coeff h.v h.t raw = some v) :
    convCelsius h s = .ok () { s with regs := { s.regs with out := some (.val v), tc := some (.val v) } } := by
  simp [convCelsius, op_bind, operandReg_some _ s _ hr, operandReg_some _ s _ hw, writeRegs_run, readCoefficients,
    valueOrRefuse, op_pure, hv]

theorem convCelsius_refused (h : Handle) (s : State) (raw : Raw) (hr : s.regs.rstT = some .ok)
    (hw : s.regs.rawT = some raw) (hv : celsius s.coeff h.v h.t raw = none) :
    convCelsius h s = .error .refuse s := by
  simp [convCelsius, op_bind, operandReg_some _ s _ hr, operandReg_some _ s _ hw, readCoefficients, valueOrRefuse,
    refuseOpenParam, hv]

theorem convCelsius_noRaw (h : Handle) (s : State) (hr : s.regs.rstT = some .ok) (hw : s.regs.rawT = none) :
    convCelsius h s = .error (.fault .unwritten) s := by
  simp [convCelsius, op_bind, operandReg_some _ s _ hr, operandReg_none _ s hw]

theorem convFahrenheit_unwritten (h : Handle) (s : State) (hr : s.regs.rstT = none) :
    convFahrenheit h s = .error (.fault .unwritten) s := by
  simp [convFahrenheit, op_bind, operandReg_none _ s hr]

theorem convFahrenheit_failed (h : Handle) (s : State) (st : Status) (hr : s.regs.rstT = some st) (ho : st ≠ .ok) :
    convFahrenheit h s = .ok () { s with regs := { s.regs with out := some .invalid } } := by
  simp [convFahrenheit, op_bind, operandReg_some _ s st hr, ho, writeRegs_run]

theorem convFahrenheit_value (h : Handle) (s : State) (raw : Raw) (hr : s.regs.rstT = some .ok)
    (hw : s.regs.rawT = some raw) (v : F32) (hv : fahrenheit s.coeff h.v h.t raw = some v) :
    convFahrenheit h s = .ok () { s with regs := { s.regs with out := some (.val v) } } := by
  simp [convFahrenheit, op_bind, operandReg_some _ s _ hr, operandReg_some _ s _ hw, writeRegs_run, readCoefficients,
    valueOrRefuse, op_pure, hv]

theorem convFahrenheit_refused (h : Handle) (s : State) (raw : Raw) (hr : s.regs.rstT = some .ok)
    (hw : s.regs.rawT = some raw) (hv : fahrenheit s.coeff h.v h.t raw = none) :
    convFahrenheit h s = .error .refuse s := by
  simp [convFahrenheit, op_bind, operandReg_some _ s _ hr, operandReg_some _ s _ hw, readCoefficients, valueOrRefuse,
    refuseOpenParam, hv]

theorem convFahrenheit_noRaw (h : Handle) (s : State) (hr : s.regs.rstT = some .ok) (hw : s.regs.rawT = none) :
    convFahrenheit h s = .error (.fault .unwritten) s := by
  simp [convFahrenheit, op_bind, operandReg_some _ s _ hr, operandReg_none _ s hw]

theorem convHumidity_unwritten (h : Handle) (s : State) (hr : s.regs.rstH = none ∨ s.regs.tc = none) :
    convHumidity h s = .error (.fault .unwritten) s := by
  rcases hs : s.regs.rstH with _ | st
  · simp [convHumidity, op_bind, operandReg_none _ s hs]
  · have ht : s.regs.tc = none := by simpa [hs] using hr
    simp [convHumidity, op_bind, operandReg_some _ s st hs, operandReg_none _ s ht]

theorem convHumidity_failed (h : Handle) (s : State) (st : Status) (tc : Reading) (hr : s.regs.rstH = some st)
    (ht : s.regs.tc = some tc) (ho : st ≠ .ok ∨ tc = .invalid) :
    convHumidity h s = .ok () { s with regs := { s.regs with out := some .invalid } } := by
  rcases st <;> rcases tc <;>
    simp [convHumidity, op_bind, operandReg_some _ s _ hr, operandReg_some _ s _ ht, writeRegs_run] at ho ⊢

theorem convHumidity_value (h : Handle) (s : State) (raw : Raw) (tc : F32) (hr : s.regs.rstH = some .ok)
    (ht : s.regs.tc = some (.val tc)) (hw : s.regs.rawH = some raw) (v : F32)
    (hv : humidity s.coeff h.h raw tc = some v) :
    convHumidity h s = .ok () { s with regs := { s.regs with out := some (.val v) } } := by
  simp [convHumidity, op_bind, operandReg_some _ s _ hr, operandReg_some _ s _ ht, operandReg_some _ s _ hw,
    writeRegs_run, readCoefficients, valueOrRefuse, op_pure, hv]

theorem convHumidity_refused (h : Handle) (s : State) (raw : Raw) (tc : F32) (hr : s.regs.rstH = some .ok)
    (ht : s.regs.tc = some (.val tc)) (hw : s.regs.rawH = some raw) (hv : humidity s.coeff h.h raw tc = none) :
    convHumidity h s = .error .refuse s := by
  simp [convHumidity, op_bind, operandReg_some _ s _ hr, operandReg_some _ s _ ht, operandReg_some _ s _ hw,
    readCoefficients, valueOrRefuse, refuseOpenParam, hv]

theorem convHumidity_noRaw (h : Handle) (s : State) (tc : F32) (hr : s.regs.rstH = some .ok)
    (ht : s.regs.tc = some (.val tc)) (hw : s.regs.rawH = none) :
    convHumidity h s = .error (.fault .unwritten) s := by
  simp [convHumidity, op_bind, operandReg_some _ s _ hr, operandReg_some _ s _ ht, operandReg_none _ s hw]


/-- The ends of `CONV_C` (R92, R109): `F_UNWRITTEN`, the refusal, or a result in `OUT` and `TC` alike. -/
theorem convCelsius_cases (h : Handle) (s : State) :
    (convCelsius h s = .error (.fault .unwritten) s ∧
      (s.regs.rstT = none ∨ s.regs.rstT = some .ok ∧ s.regs.rawT = none)) ∨
    (convCelsius h s = .error .refuse s ∧ s.regs.rstT = some .ok ∧
      (s.coeff.d1c.get h.v = none ∨ s.coeff.d2c.get h.t = none)) ∨
    (∃ r, convCelsius h s = .ok () { s with regs := { s.regs with out := some r, tc := some r } } ∧
      ∃ st, s.regs.rstT = some st ∧ (st ≠ .ok → r = .invalid)) := by
  rcases hr : s.regs.rstT with _ | st
  · exact .inl ⟨convCelsius_unwritten h s hr, .inl rfl⟩
  · by_cases ho : st = .ok
    · subst ho
      rcases hw : s.regs.rawT with _ | raw
      · exact .inl ⟨convCelsius_noRaw h s hr hw, .inr ⟨rfl, rfl⟩⟩
      · rcases hv : celsius s.coeff h.v h.t raw with _ | v
        · exact .inr (.inl ⟨convCelsius_refused h s raw hr hw hv, rfl, (celsius_eq_none _ _ _ _).mp hv⟩)
        · exact .inr (.inr ⟨_, convCelsius_value h s raw hr hw v hv, _, rfl, fun hn => absurd rfl hn⟩)
    · exact .inr (.inr ⟨_, convCelsius_failed h s st hr ho, st, rfl, fun _ => rfl⟩)

/-- The ends of `CONV_F` (R93, R109). -/
theorem convFahrenheit_cases (h : Handle) (s : State) :
    (convFahrenheit h s = .error (.fault .unwritten) s ∧
      (s.regs.rstT = none ∨ s.regs.rstT = some .ok ∧ s.regs.rawT = none)) ∨
    (convFahrenheit h s = .error .refuse s ∧ s.regs.rstT = some .ok ∧
      (s.coeff.d1f.get h.v = none ∨ s.coeff.d2f.get h.t = none)) ∨
    (∃ r, convFahrenheit h s = .ok () { s with regs := { s.regs with out := some r } } ∧
      ∃ st, s.regs.rstT = some st ∧ (st ≠ .ok → r = .invalid)) := by
  rcases hr : s.regs.rstT with _ | st
  · exact .inl ⟨convFahrenheit_unwritten h s hr, .inl rfl⟩
  · by_cases ho : st = .ok
    · subst ho
      rcases hw : s.regs.rawT with _ | raw
      · exact .inl ⟨convFahrenheit_noRaw h s hr hw, .inr ⟨rfl, rfl⟩⟩
      · rcases hv : fahrenheit s.coeff h.v h.t raw with _ | v
        · exact .inr (.inl ⟨convFahrenheit_refused h s raw hr hw hv, rfl, (fahrenheit_eq_none _ _ _ _).mp hv⟩)
        · exact .inr (.inr ⟨_, convFahrenheit_value h s raw hr hw v hv, _, rfl, fun hn => absurd rfl hn⟩)
    · exact .inr (.inr ⟨_, convFahrenheit_failed h s st hr ho, st, rfl, fun _ => rfl⟩)

/-- The ends of `CONV_RH` (R94, R109). -/
theorem convHumidity_cases (h : Handle) (s : State) :
    (convHumidity h s = .error (.fault .unwritten) s ∧
      (s.regs.rstH = none ∨ s.regs.tc = none ∨ s.regs.rstH = some .ok ∧ s.regs.rawH = none)) ∨
    (convHumidity h s = .error .refuse s ∧ s.regs.rstH = some .ok ∧
      (s.coeff.c1.get h.h = none ∨ s.coeff.c2.get h.h = none ∨ s.coeff.c3.get h.h = none ∨
        s.coeff.t1.get h.h = none ∨ s.coeff.t2.get h.h = none)) ∨
    (∃ r, convHumidity h s = .ok () { s with regs := { s.regs with out := some r } } ∧
      ∃ st tc, s.regs.rstH = some st ∧ s.regs.tc = some tc ∧ (st ≠ .ok ∨ tc = .invalid → r = .invalid)) := by
  rcases hr : s.regs.rstH with _ | st
  · exact .inl ⟨convHumidity_unwritten h s (.inl hr), .inl rfl⟩
  · rcases ht : s.regs.tc with _ | tc
    · exact .inl ⟨convHumidity_unwritten h s (.inr ht), .inr (.inl rfl)⟩
    · by_cases ho : st ≠ .ok ∨ tc = .invalid
      · exact .inr (.inr ⟨_, convHumidity_failed h s st tc hr ht ho, st, tc, rfl, rfl, fun _ => rfl⟩)
      · obtain ⟨hst, htc⟩ := not_or.mp ho
        have hst' : st = .ok := not_not.mp hst
        subst hst'
        cases tc with
        | invalid => exact absurd rfl htc
        | val f =>
          rcases hw : s.regs.rawH with _ | raw
          · exact .inl ⟨convHumidity_noRaw h s f hr ht hw, .inr (.inr ⟨rfl, rfl⟩)⟩
          · rcases hv : humidity s.coeff h.h raw f with _ | v
            · exact .inr (.inl ⟨convHumidity_refused h s raw f hr ht hw hv, rfl, (humidity_eq_none _ _ _ _).mp hv⟩)
            · exact .inr (.inr ⟨_, convHumidity_value h s raw f hr ht hw v hv, _, _, rfl, rfl,
                fun hn => absurd hn ho⟩)

end Sys2Proof.Machine
end

