-- ==== Sys2Proof/Laws/Encoding.lean ====
section
/-! SUPPORT. The fields of a word built from an opcode byte and 24 operand bits, and the tables of R62 read both ways. -/

namespace Sys2Proof

/-- The opcode map is one to one: a mnemonic's opcode is read back as it (R62). -/
@[simp] theorem ofOpc_opc (m : Mnemonic) : Mnemonic.ofOpc? m.opc = some m := by cases m <;> rfl

/-- An assigned opcode is the opcode of the mnemonic it is read as (R62). -/
theorem opc_of_ofOpc (b : Byte) (m : Mnemonic) (h : Mnemonic.ofOpc? b = some m) : m.opc = b := by
  unfold Mnemonic.ofOpc? at h
  split at h <;> first
    | next hb => cases h; exact (BitVec.eq_of_toNat_eq hb).symm
    | cases h

/-- The opcode field is the top byte (R57). -/
theorem opcodeField_append (o : Byte) (n : BitVec 24) : opcodeField (o ++ n : Word) = o := by
  unfold opcodeField
  exact BitVec.extractLsb'_append_eq_left

/-- The count field is the low 24 bits (R59). -/
theorem countField_append (o : Byte) (n : BitVec 24) : countField (o ++ n : Word) = n := by
  unfold countField
  exact BitVec.extractLsb'_append_eq_right

/-- Below bit 24 a word is its operand bits. -/
theorem getLsbD_operandBits (o : Byte) (n : BitVec 24) (i : Nat) (h : i < 24) :
    (o ++ n : Word).getLsbD i = n.getLsbD i := by
  rw [show (o ++ n : Word).getLsbD i = (o ++ n : BitVec (8 + 24)).getLsbD i from rfl, BitVec.getLsbD_append]
  simp [h]

/-- A field that lies below bit 24 is that field of the operand bits. -/
theorem extract_operandBits (o : Byte) (n : BitVec 24) (start len : Nat) (h : start + len ≤ 24) :
    (o ++ n : Word).extractLsb' start len = n.extractLsb' start len := by
  apply BitVec.eq_of_getLsbD_eq
  intro i hi
  rw [BitVec.getLsbD_extractLsb', BitVec.getLsbD_extractLsb', getLsbD_operandBits o n _ (by omega)]

/-- A word is its opcode field over its count field: nothing is dropped by the two. -/
theorem word_eq_append (w : Word) : (opcodeField w ++ countField w : Word) = w := by
  apply BitVec.eq_of_getLsbD_eq
  intro i hi
  rw [show (opcodeField w ++ countField w : Word).getLsbD i =
    (opcodeField w ++ countField w : BitVec (8 + 24)).getLsbD i from rfl, BitVec.getLsbD_append]
  unfold opcodeField countField
  by_cases h : i < 24
  · simp [h]
  · simp [h, show i - 24 < 8 by omega, show 24 + (i - 24) = i by omega]

/-- The reserved bits all lie among the operand bits (R58). -/
theorem and_operandBits (o : Byte) (n m : BitVec 24) :
    ((o ++ n : Word) &&& (0#8 ++ m : Word)) = (0#8 ++ (n &&& m) : Word) := by
  rw [show ((o ++ n : Word) &&& (0#8 ++ m : Word)) = ((o ++ n : BitVec (8 + 24)) &&& (0#8 ++ m)) from rfl,
    BitVec.and_append, BitVec.and_zero]

/-- Concatenation as arithmetic: the first part stands above the second (R10). -/
theorem append_toNat {n m : Nat} (x : BitVec n) (y : BitVec m) : (x ++ y).toNat = x.toNat * 2 ^ m + y.toNat := by
  rw [BitVec.toNat_append, ← Nat.shiftLeft_add_eq_or_of_lt y.isLt, Nat.shiftLeft_eq]

/-- A field of a word as arithmetic. -/
theorem field_toNat (w : Word) (start len : Nat) : (w.extractLsb' start len).toNat = w.toNat / 2 ^ start % 2 ^ len := by
  rw [BitVec.extractLsb'_toNat, Nat.shiftRight_eq_div_pow]

/-- A bit of a word as arithmetic. -/
theorem bit_eq (w : Word) (i : Nat) : w.getLsbD i = decide (w.toNat / 2 ^ i % 2 = 1) := by
  rw [BitVec.getLsbD, Nat.testBit_eq_decide_div_mod_eq]

/-- A word written as four bytes, as a number. -/
theorem fourBytes_toNat (o d k e : Byte) :
    (o ++ (d ++ k ++ e : BitVec 24) : Word).toNat =
      o.toNat * 2 ^ 24 + d.toNat * 2 ^ 16 + k.toNat * 2 ^ 8 + e.toNat := by
  rw [show (o ++ (d ++ k ++ e : BitVec 24) : Word).toNat = (o ++ (d ++ k ++ e) : BitVec (8 + (8 + 8 + 8))).toNat from rfl,
    append_toNat, append_toNat, append_toNat]
  omega

/-- The three operand bytes of a word written as four bytes (R58, R59). -/
theorem byteFields_append (o d k e : Byte) :
    dpinField (o ++ (d ++ k ++ e) : Word) = d ∧ pinField (o ++ (d ++ k ++ e) : Word) = k ∧
      cmdField (o ++ (d ++ k ++ e) : Word) = e := by
  have := d.isLt
  have := k.isLt
  have := e.isLt
  unfold dpinField pinField cmdField
  refine ⟨?_, ?_, ?_⟩ <;> apply BitVec.eq_of_toNat_eq <;> rw [field_toNat, fourBytes_toNat] <;> omega

end Sys2Proof
end

