-- ==== Sys2Proof/Laws/Float.lean ====
section
/-! SUPPORT. The rounding step of the binary32 arithmetic (R13, R91): what `roundHalfEven` answers, and how a magnitude
code reads back. -/

namespace Sys2Proof.Machine

/-- `roundHalfEven` is within half a unit of the quotient, and even where it is exactly half a unit off. -/
theorem roundHalfEven_near (num den : Nat) (hd : 0 < den) :
    2 * num ≤ (2 * roundHalfEven num den + 1) * den ∧
    2 * roundHalfEven num den * den ≤ 2 * num + den ∧
    ((2 * num = (2 * roundHalfEven num den + 1) * den ∨ 2 * roundHalfEven num den * den = 2 * num + den) →
      roundHalfEven num den % 2 = 0) := by
  have hdiv : den * (num / den) + num % den = num := Nat.div_add_mod num den
  have hmod : num % den < den := Nat.mod_lt num hd
  unfold roundHalfEven
  generalize num / den = q at *
  generalize num % den = r at *
  subst hdiv
  have e1 : (2 * q + 1) * den = 2 * (den * q) + den := by ring
  have e2 : 2 * q * den = 2 * (den * q) := by ring
  have e3 : (2 * (q + 1) + 1) * den = 2 * (den * q) + 3 * den := by ring
  have e4 : 2 * (q + 1) * den = 2 * (den * q) + 2 * den := by ring
  simp only
  split
  · rw [e1, e2]; refine ⟨by omega, by omega, ?_⟩; rintro (h | h) <;> omega
  · split
    · rw [e3, e4]; refine ⟨by omega, by omega, ?_⟩; rintro (h | h) <;> omega
    · rcases Nat.mod_two_eq_zero_or_one q with hq | hq
      · simp only [hq, Nat.add_zero, e1, e2]; exact ⟨by omega, by omega, fun _ => trivial⟩
      · rw [hq, e3, e4]; refine ⟨by omega, by omega, fun _ => by omega⟩

/-- An exact quotient is not rounded. -/
theorem roundHalfEven_exact (q den : Nat) (hd : 0 < den) : roundHalfEven (q * den) den = q := by
  simp [roundHalfEven, Nat.mul_div_cancel _ hd, hd]

/-- The sign, the exponent field and the significand field of a magnitude code. -/
theorem packFloat_toNat (neg : Bool) (m : Nat) :
    (packFloat neg m).toNat = (if neg then 2 ^ 31 else 0) + min m 0x7F800000 := by
  unfold packFloat
  rw [BitVec.toNat_ofNat, Nat.mod_eq_of_lt]
  split <;> omega

theorem floatExp_packFloat (neg : Bool) (m : Nat) : floatExp (packFloat neg m) = min m 0x7F800000 / 2 ^ 23 := by
  unfold floatExp
  rw [BitVec.extractLsb'_toNat, packFloat_toNat, Nat.shiftRight_eq_div_pow]
  split <;> omega

theorem floatFrac_packFloat (neg : Bool) (m : Nat) : floatFrac (packFloat neg m) = min m 0x7F800000 % 2 ^ 23 := by
  unfold floatFrac
  rw [BitVec.extractLsb'_toNat, packFloat_toNat, Nat.shiftRight_zero]
  split <;> omega

theorem floatSign_packFloat (neg : Bool) (m : Nat) : floatSign (packFloat neg m) = neg := by
  unfold floatSign
  rw [BitVec.getLsbD, Nat.testBit_eq_decide_div_mod_eq, packFloat_toNat]
  cases neg <;> simp <;> omega

/-- A finite magnitude code `k * 2^23 + n`, with `n` a 24-bit significand as `round32` builds it, reads back as
`n * 2^k` units. -/
theorem floatUnits_packFloat (neg : Bool) (k n : Nat) (hn : n ≤ 2 ^ 24) (hk : k = 0 ∨ 2 ^ 23 ≤ n)
    (hf : k * 2 ^ 23 + n < 0x7F800000) : floatUnits (packFloat neg (k * 2 ^ 23 + n)) = n * 2 ^ k := by
  unfold floatUnits
  rw [floatExp_packFloat, floatFrac_packFloat, Nat.min_eq_left (by omega)]
  rcases Nat.lt_or_ge n (2 ^ 23) with hlt | hge
  · have hk0 : k = 0 := by omega
    subst hk0
    rw [if_pos (by omega)]; omega
  · rcases Nat.lt_or_ge n (2 ^ 24) with hlt | hge2
    · rw [if_neg (by omega), show (k * 2 ^ 23 + n) / 2 ^ 23 - 1 = k by omega,
        show 2 ^ 23 + (k * 2 ^ 23 + n) % 2 ^ 23 = n by omega]
    · have : n = 2 ^ 24 := by omega
      subst this
      rw [if_neg (by omega), show (k * 2 ^ 23 + 2 ^ 24) / 2 ^ 23 - 1 = k + 1 by omega,
        show 2 ^ 23 + (k * 2 ^ 23 + 2 ^ 24) % 2 ^ 23 = 2 ^ 23 by omega, pow_succ]
      ring

end Sys2Proof.Machine
end

