-- ==== Sys2Proof/Laws/Keeps.lean ====
section
/-! SUPPORT. Properties of the state that an operation keeps however it ends, completed or broken off (R111): the rule of
sequencing, and one closure condition under which every sub-operation of the engine keeps a property. -/

namespace Sys2Proof.Machine

/-- An operation keeps a property of the state, whether it completes or breaks off. -/
structure Keeps {α : Type} (P : State → Prop) (x : Op α) : Prop where
  ends : ∀ s, P s → match x s with
    | .ok _ t => P t
    | .error _ t => P t

theorem keeps_ok {α : Type} {P : State → Prop} {x : Op α} (hx : Keeps P x) {s t : State} {a : α}
    (hs : P s) (h : x s = .ok a t) : P t := by
  have := hx.ends s hs
  rwa [h] at this

theorem keeps_error {α : Type} {P : State → Prop} {x : Op α} (hx : Keeps P x) {s t : State} {e : Stop}
    (hs : P s) (h : x s = .error e t) : P t := by
  have := hx.ends s hs
  rwa [h] at this

theorem keeps_pure {α : Type} (P : State → Prop) (a : α) : Keeps P (pure a) := ⟨fun _ hs => hs⟩

theorem keeps_bind {α β : Type} {P : State → Prop} {x : Op α} {f : α → Op β} (hx : Keeps P x)
    (hf : ∀ a, Keeps P (f a)) : Keeps P (x >>= f) := by
  refine ⟨fun s hs => ?_⟩
  rw [op_bind]
  have h := hx.ends s hs
  cases hxs : x s with
  | ok a t => rw [hxs] at h; exact (hf a).ends t h
  | error e t => rw [hxs] at h; exact h

theorem keeps_map {α β : Type} {P : State → Prop} {x : Op α} (f : α → β) (hx : Keeps P x) : Keeps P (f <$> x) := by
  refine ⟨fun s hs => ?_⟩
  rw [op_map]
  have h := hx.ends s hs
  cases hxs : x s with
  | ok a t => rw [hxs] at h; exact h
  | error e t => rw [hxs] at h; exact h

theorem keeps_raise {α : Type} (P : State → Prop) (f : ModelFault) : Keeps P (raiseFault f : Op α) := ⟨fun _ hs => hs⟩

theorem keeps_operandReg {α : Type} (P : State → Prop) (r : Regs → Option α) : Keeps P (operandReg r) := by
  refine ⟨fun s hs => ?_⟩
  cases hr : r s.regs with
  | none => rw [operandReg_none r s hr]; exact hs
  | some v => rw [operandReg_some r s v hr]; exact hs

theorem keeps_requireCommand (P : State → Prop) (b : Byte) : Keeps P (requireCommand b) := by
  unfold requireCommand
  split
  · exact keeps_pure P _
  · exact keeps_raise P _

/-- How an operation that keeps a property ends: the property holds, and then `pc` advances or a stop is recorded
(R106). -/
theorem keeps_finish {P : State → Prop} {op : Op Unit} (hk : Keeps P op) {s u : State} (hs : P s)
    (h : finish op s = .next u) : ∃ t, P t ∧ (u = advance t ∨ (∃ f, u = takeFault f t) ∨ u = takeRefusal t) := by
  rcases finish_cases h with ⟨t, ht, rfl⟩ | ⟨f, t, ht, rfl⟩ | ⟨t, ht, rfl⟩
  · exact ⟨t, keeps_ok hk hs ht, .inl rfl⟩
  · exact ⟨t, keeps_error hk hs ht, .inr (.inl ⟨f, rfl⟩)⟩
  · exact ⟨t, keeps_error hk hs ht, .inr (.inr rfl)⟩

/-- A property that the host-facing effects of R67 keep for a handle: the events, the modes, the latches of driven pins
and the draws. -/
structure HostClosed (h : Handle) (P : State → Prop) : Prop where
  mode : ∀ s p m, P s → P { s with trace := s.trace ++ [.setMode (hostPin h p) m], pins := putMode s.pins p m }
  latch : ∀ s p l, P s → pinMode s.pins p = some .out →
    P { s with trace := s.trace ++ [.write (hostPin h p) l], pins := putLatch s.pins p l }
  read : ∀ s p l, P s → P { s with trace := s.trace ++ [.read (hostPin h p) l], env := (drawLevel s.env).2 }
  count : ∀ s t, P s → P { s with trace := s.trace ++ [.millis t], env := (drawCount s.env).2 }
  delayUs : ∀ s n, P s → P { s with trace := s.trace ++ [.delayUs n] }
  delayMs : ∀ s n, P s → P { s with trace := s.trace ++ [.delayMs n] }

/-- A property that the registers an exchange writes keep as well (R79, R81, R82, R84, R86). -/
structure EngineClosed (h : Handle) (P : State → Prop) : Prop extends HostClosed h P where
  ack : ∀ s a0 a1, P s →
    P { s with regs := { s.regs with a0 := some a0, a1 := some a1, txst := some (ackStatus a0 a1) } }
  wst : ∀ s w, P s → P { s with regs := { s.regs with wst := some w } }
  byte : ∀ s b, P s → P { s with regs := { s.regs with byte := some b } }
  d16 : ∀ s d, P s → P { s with regs := { s.regs with d16 := some d } }

variable {h : Handle} {P : State → Prop}

theorem keeps_setMode (hc : HostClosed h P) (p : Pin) (m : PinMode) : Keeps P (setMode h p m) :=
  ⟨fun s hs => hc.mode s p m hs⟩

theorem keeps_writePin (hc : HostClosed h P) (p : Pin) (l : Level) : Keeps P (writePin h p l) := by
  refine ⟨fun s hs => ?_⟩
  by_cases hm : pinMode s.pins p = some .out
  · rw [writePin_out h p l s hm]; exact hc.latch s p l hs hm
  · rw [writePin_notOut h p l s hm]; exact hs

theorem keeps_readPin (hc : HostClosed h P) (p : Pin) : Keeps P (readPin h p) := ⟨fun s hs => hc.read s p _ hs⟩

theorem keeps_millisBounded (hc : HostClosed h P) (b : Millis → Millis) : Keeps P (millisBounded b) :=
  ⟨fun s hs => hc.count s _ hs⟩

theorem keeps_delayUs (hc : HostClosed h P) (n : Nat) : Keeps P (delayUs n) := ⟨fun s hs => hc.delayUs s n hs⟩

theorem keeps_delayMs (hc : HostClosed h P) (n : Nat) : Keeps P (delayMs n) := ⟨fun s hs => hc.delayMs s n hs⟩

theorem keeps_edge (hc : HostClosed h P) (p : Pin) (l : Level) : Keeps P (edge h p l) :=
  keeps_bind (keeps_writePin hc p l) fun _ => keeps_delayUs hc _

theorem keeps_startSeq (hc : HostClosed h P) : Keeps P (startSeq h) := by
  unfold startSeq
  exact keeps_bind (keeps_setMode hc _ _) fun _ => keeps_bind (keeps_setMode hc _ _) fun _ =>
    keeps_bind (keeps_edge hc _ _) fun _ => keeps_bind (keeps_edge hc _ _) fun _ =>
      keeps_bind (keeps_edge hc _ _) fun _ => keeps_bind (keeps_edge hc _ _) fun _ =>
        keeps_bind (keeps_edge hc _ _) fun _ => keeps_bind (keeps_edge hc _ _) fun _ => keeps_edge hc _ _

theorem keeps_shiftOutBits (hc : HostClosed h P) (ls : List Level) : Keeps P (shiftOutBits h ls) := by
  induction ls with
  | nil => exact keeps_pure P _
  | cons b rest ih =>
    exact keeps_bind (keeps_edge hc _ _) fun _ => keeps_bind (keeps_edge hc _ _) fun _ =>
      keeps_bind (keeps_edge hc _ _) fun _ => ih

theorem keeps_shiftOut8 (hc : HostClosed h P) (b : Byte) : Keeps P (shiftOut8 h b) := by
  unfold shiftOut8
  exact keeps_shiftOutBits hc _

theorem keeps_ackClock (hc : EngineClosed h P) : Keeps P (ackClock h) :=
  keeps_bind (keeps_setMode hc.toHostClosed _ _) fun _ => keeps_bind (keeps_edge hc.toHostClosed _ _) fun _ =>
    keeps_bind (keeps_readPin hc.toHostClosed _) fun a0 => keeps_bind (keeps_edge hc.toHostClosed _ _) fun _ =>
      keeps_bind (keeps_readPin hc.toHostClosed _) fun a1 =>
        keeps_bind (⟨fun s hs => hc.ack s a0 a1 hs⟩) fun _ => keeps_pure P _

theorem keeps_sendCommand (hc : EngineClosed h P) (c : Command) : Keeps P (sendCommand h c) := by
  unfold sendCommand
  exact keeps_bind (keeps_startSeq hc.toHostClosed) fun _ =>
    keeps_bind (keeps_shiftOut8 hc.toHostClosed _) fun _ => keeps_ackClock hc

theorem keeps_waitPolls (hc : HostClosed h P) (t0 : Millis) (n : Nat) (last : Millis) :
    Keeps P (waitPolls h t0 n last) := by
  induction n generalizing last with
  | zero => exact keeps_pure P _
  | succ n ih =>
    refine keeps_bind (keeps_delayMs hc _) fun _ => keeps_bind (keeps_readPin hc _) fun v => ?_
    split
    · exact keeps_pure P _
    · refine keeps_bind (keeps_millisBounded hc _) fun t => ?_
      split
      · exact keeps_pure P _
      · exact ih t

theorem keeps_waitReady (hc : EngineClosed h P) : Keeps P (waitReady h) :=
  keeps_bind (keeps_setMode hc.toHostClosed _ _) fun _ =>
    keeps_bind (keeps_millisBounded hc.toHostClosed _) fun _ =>
      keeps_bind (keeps_waitPolls hc.toHostClosed _ _ _) fun w =>
        keeps_bind (⟨fun s hs => hc.wst s w hs⟩) fun _ => keeps_pure P _

theorem keeps_shiftInBits (hc : HostClosed h P) (n : Nat) (acc : Byte) : Keeps P (shiftInBits h n acc) := by
  induction n generalizing acc with
  | zero => exact keeps_pure P _
  | succ n ih =>
    exact keeps_bind (keeps_edge hc _ _) fun _ => keeps_bind (keeps_readPin hc _) fun _ =>
      keeps_bind (keeps_edge hc _ _) fun _ => ih _

theorem keeps_shiftIn8 (hc : EngineClosed h P) : Keeps P (shiftIn8 h) :=
  keeps_bind (keeps_shiftInBits hc.toHostClosed _ _) fun acc =>
    keeps_bind (⟨fun s hs => hc.byte s acc hs⟩) fun _ => keeps_pure P _

theorem keeps_midAck (hc : HostClosed h P) : Keeps P (midAck h) :=
  keeps_bind (keeps_setMode hc _ _) fun _ => keeps_bind (keeps_edge hc _ _) fun _ =>
    keeps_bind (keeps_edge hc _ _) fun _ => keeps_edge hc _ _

theorem keeps_crcSkip (hc : HostClosed h P) : Keeps P (crcSkip h) :=
  keeps_bind (keeps_setMode hc _ _) fun _ => keeps_bind (keeps_edge hc _ _) fun _ =>
    keeps_bind (keeps_edge hc _ _) fun _ => keeps_edge hc _ _

theorem keeps_shiftIn16 (hc : EngineClosed h P) : Keeps P (shiftIn16 h) :=
  keeps_bind (keeps_setMode hc.toHostClosed _ _) fun _ => keeps_bind (keeps_shiftIn8 hc) fun _ =>
    keeps_bind (keeps_midAck hc.toHostClosed) fun _ => keeps_bind (keeps_setMode hc.toHostClosed _ _) fun _ =>
      keeps_bind (keeps_shiftIn8 hc) fun _ => keeps_bind (⟨fun s hs => hc.d16 s _ hs⟩) fun _ => keeps_pure P _

/-- An exchange keeps what its sub-operations and the recording of its pair keep (R86). -/
theorem keeps_readRaw (hc : EngineClosed h P) (c : Command)
    (hr : ∀ s st raw, P s → (raw.isSome = true ↔ st = .ok) → P (recordedExchange c st raw s)) :
    Keeps P (readRaw h c) := by
  have hrec : ∀ st raw, (raw.isSome = true ↔ st = .ok) → Keeps P (recordExchange c st raw) := by
    intro st raw hiff
    refine ⟨fun s hs => ?_⟩
    rw [recordExchange_eq]
    exact hr s st raw hs hiff
  refine keeps_bind (keeps_sendCommand hc c) fun tx => ?_
  split
  · next ht => exact hrec _ _ (by cases tx <;> simp [statusOfTx] at ht ⊢)
  · refine keeps_bind (keeps_waitReady hc) fun w => ?_
    split
    · exact hrec _ _ (by simp)
    · exact keeps_bind (keeps_shiftIn16 hc) fun d => keeps_bind (keeps_crcSkip hc.toHostClosed) fun _ =>
        hrec _ _ (by simp)

theorem keeps_convCelsius (hc : ∀ s r, P s → P { s with regs := { s.regs with out := some r, tc := some r } }) :
    Keeps P (convCelsius h) := by
  refine ⟨fun s hs => ?_⟩
  rcases convCelsius_cases h s with ⟨he, -⟩ | ⟨he, -⟩ | ⟨r, he, -⟩ <;> rw [he]
  · exact hs
  · exact hs
  · exact hc s r hs

theorem keeps_convFahrenheit (hc : ∀ s r, P s → P { s with regs := { s.regs with out := some r } }) :
    Keeps P (convFahrenheit h) := by
  refine ⟨fun s hs => ?_⟩
  rcases convFahrenheit_cases h s with ⟨he, -⟩ | ⟨he, -⟩ | ⟨r, he, -⟩ <;> rw [he]
  · exact hs
  · exact hs
  · exact hc s r hs

theorem keeps_convHumidity (hc : ∀ s r, P s → P { s with regs := { s.regs with out := some r } }) :
    Keeps P (convHumidity h) := by
  refine ⟨fun s hs => ?_⟩
  rcases convHumidity_cases h s with ⟨he, -⟩ | ⟨he, -⟩ | ⟨r, he, -⟩ <;> rw [he]
  · exact hs
  · exact hs
  · exact hc s r hs

/-- An operation that needs a handle keeps what its pseudocode keeps under that handle (R110). -/
theorem keeps_withHandle (body : Handle → Op Unit) (hb : ∀ h, Keeps (fun s => P s ∧ s.handle = some h) (body h)) :
    Keeps P (withHandle body) := by
  refine ⟨fun s hs => ?_⟩
  cases hh : s.handle with
  | none => rw [withHandle_none body s hh]; exact hs
  | some h =>
    rw [withHandle_some body s h hh]
    have := (hb h).ends s ⟨hs, hh⟩
    cases hx : body h s with
    | ok a t => rw [hx] at this; exact this.1
    | error e t => rw [hx] at this; exact this.1

end Sys2Proof.Machine
end

