-- ==== Sys2Proof/Laws/PerInstr.lean ====
section
/-! SUPPORT. The family `EncodeMatches`, one lemma per constructor of `Instr`: the word the encoder gives an operation
has the fixed bits of its row of spec/opcode_table.json (match and mask). -/

namespace Sys2Proof.Laws.EncodeMatches

/-- The `mask` of a row of spec/opcode_table.json. -/
def tableMask : Mnemonic → Word
  | .SETMODE => 0xFFFF00FC#32
  | .WRITE => 0xFFFF00FE#32
  | .READ => 0xFFFF00FF#32
  | .DLY_US => 0xFF000000#32
  | .DLY_MS => 0xFF000000#32
  | .SHIFTOUT8 => 0xFFFFFF00#32
  | .SENDCMD => 0xFFFFFF00#32
  | .READRAW => 0xFFFFFF00#32
  | .CONSTRUCT => 0xFF0000E0#32
  | .MILLIS | .START | .ACK | .WAIT | .SHIFTIN8 | .MIDACK | .READ16 | .CRCSKIP => 0xFFFFFFFF#32
  | .CONV_C | .CONV_F | .CONV_RH | .READ_C | .READ_F | .READ_RH => 0xFFFFFFFF#32

/-- The `match` of a row of spec/opcode_table.json. -/
def tableMatch : Mnemonic → Word
  | .SETMODE => 0x01000000#32
  | .WRITE => 0x02000000#32
  | .READ => 0x03000000#32
  | .DLY_US => 0x04000000#32
  | .DLY_MS => 0x05000000#32
  | .MILLIS => 0x06000000#32
  | .START => 0x10000000#32
  | .SHIFTOUT8 => 0x11000000#32
  | .ACK => 0x12000000#32
  | .SENDCMD => 0x13000000#32
  | .WAIT => 0x14000000#32
  | .SHIFTIN8 => 0x15000000#32
  | .MIDACK => 0x16000000#32
  | .READ16 => 0x17000000#32
  | .CRCSKIP => 0x18000000#32
  | .READRAW => 0x19000000#32
  | .CONV_C => 0x20000000#32
  | .CONV_F => 0x21000000#32
  | .CONV_RH => 0x22000000#32
  | .CONSTRUCT => 0x30000000#32
  | .READ_C => 0x31000000#32
  | .READ_F => 0x32000000#32
  | .READ_RH => 0x33000000#32

/-- The encoded word has the fixed bits of the operation's table row. -/
def Statement (i : Instr) : Prop := encode i &&& tableMask i.mnemonic = tableMatch i.mnemonic

/-- A count operand leaves only the opcode byte fixed. -/
theorem count_bits (o : Byte) (n : BitVec 24) :
    (o ++ n : Word) &&& (0xFF#8 ++ 0#24 : BitVec (8 + 24)) = (o ++ 0#24 : BitVec (8 + 24)) := by
  rw [BitVec.and_append, BitVec.and_zero, show (0xFF#8 : Byte) = BitVec.allOnes 8 from rfl, BitVec.and_allOnes]

/-- A byte operand in the low byte leaves the opcode byte and the zero bits fixed. -/
theorem byte_bits (o c : Byte) :
    (o ++ (0#16 ++ c) : BitVec (8 + (16 + 8))) &&& (0xFF#8 ++ (0xFFFF#16 ++ 0#8)) = o ++ (0#16 ++ 0#8) := by
  rw [BitVec.and_append, BitVec.and_append, BitVec.and_zero, show (0xFF#8 : Byte) = BitVec.allOnes 8 from rfl,
    BitVec.and_allOnes]
  rfl

theorem setmode (p : Pin) (m : PinMode) : Statement (.setmode p m) := by cases p <;> cases m <;> rfl
theorem write (p : Pin) (l : Level) : Statement (.write p l) := by cases p <;> cases l <;> rfl
theorem read (p : Pin) : Statement (.read p) := by cases p <;> rfl
theorem dlyUs (n : BitVec 24) : Statement (.dlyUs n) := count_bits 0x04#8 n
theorem dlyMs (n : BitVec 24) : Statement (.dlyMs n) := count_bits 0x05#8 n
theorem millis : Statement .millis := rfl
theorem start : Statement .start := rfl
theorem shiftout8 (c : Byte) : Statement (.shiftout8 c) := byte_bits 0x11#8 c
theorem ack : Statement .ack := rfl
theorem sendcmd (c : Byte) : Statement (.sendcmd c) := byte_bits 0x13#8 c
theorem wait : Statement .wait := rfl
theorem shiftin8 : Statement .shiftin8 := rfl
theorem midack : Statement .midack := rfl
theorem read16 : Statement .read16 := rfl
theorem crcskip : Statement .crcskip := rfl
theorem readraw (c : Byte) : Statement (.readraw c) := byte_bits 0x19#8 c
theorem convC : Statement .convC := rfl
theorem convF : Statement .convF := rfl
theorem convRh : Statement .convRh := rfl
theorem construct (d k : Byte) (v : VClass) (t : TRes) (h : HRes) : Statement (.construct d k v t h) := by
  show (0x30#8 ++ (d ++ k ++ (0#3 ++ v.code ++ t.bit ++ h.bit))) &&&
      (0xFF#8 ++ (0#8 ++ 0#8 ++ (7#3 ++ 0#3 ++ 0#1 ++ 0#1))) =
    (0x30#8 ++ (0#8 ++ 0#8 ++ (0#3 ++ 0#3 ++ 0#1 ++ 0#1)) : BitVec (8 + (8 + 8 + (3 + 3 + 1 + 1))))
  simp only [BitVec.and_append, BitVec.and_zero]
  rfl
theorem readC : Statement .readC := rfl
theorem readF : Statement .readF := rfl
theorem readRh : Statement .readRh := rfl

end Sys2Proof.Laws.EncodeMatches
end

