-- ==== Sys2Proof/Laws/Step.lean ====
section
/-! SUPPORT. Every operation's meaning is one `finish` of its pseudocode (R106), so `exec` always answers a next state
and nothing but the three ends of `finish`. -/

namespace Sys2Proof.Machine

/-- The pseudocode of an operation, checks first (R110). -/
def body : Instr → Op Unit
  | .setmode p m => withHandle fun h => setMode h p m
  | .write p l => withHandle fun h => writePin h p l
  | .read p => withHandle fun h => do
    let l ← readPin h p
    writeRegs fun r => { r with smp := some l }
  | .dlyUs n => withHandle fun _ => delayUs n.toNat
  | .dlyMs n => withHandle fun _ => delayMs n.toNat
  | .millis => withHandle fun _ => do
    let t ← readMillis
    writeRegs fun r => { r with ms := some t }
  | .start => withHandle fun h => startSeq h
  | .shiftout8 c => withHandle fun h => shiftOut8 h c
  | .ack => withHandle fun h => do let _ ← ackClock h
  | .sendcmd c => do
    let c ← requireCommand c
    withHandle fun h => do let _ ← sendCommand h c
  | .wait => withHandle fun h => do let _ ← waitReady h
  | .shiftin8 => withHandle fun h => do let _ ← shiftIn8 h
  | .midack => withHandle fun h => midAck h
  | .read16 => withHandle fun h => do let _ ← shiftIn16 h
  | .crcskip => withHandle fun h => crcSkip h
  | .readraw c => do
    let c ← requireCommand c
    withHandle fun h => do let _ ← readRaw h c
  | .convC => withHandle fun h => convCelsius h
  | .convF => withHandle fun h => convFahrenheit h
  | .convRh => withHandle fun h => convHumidity h
  | .construct d k v t h => constructHandle { dpin := d, cpin := k, v := v, t := t, h := h }
  | .readC => withHandle fun h => do
    let _ ← readRaw h .measT
    convCelsius h
  | .readF => withHandle fun h => do
    let _ ← readRaw h .measT
    convFahrenheit h
  | .readRh => withHandle fun h => readHumidity h

theorem exec_eq_finish (i : Instr) (s : State) : exec i s = finish (body i) s := by
  cases i <;> rfl

/-- `exec` always answers a next state: a fault or a refusal is recorded in it (R106). -/
theorem exec_next (i : Instr) (s : State) : ∃ t, exec i s = .next t := by
  rw [exec_eq_finish]
  exact finish_next _ _

/-- Every end of an operation: completed, faulted, refused (R106). -/
theorem exec_cases {i : Instr} {s u : State} (h : exec i s = .next u) :
    (∃ t, body i s = .ok () t ∧ u = advance t) ∨
    (∃ f t, body i s = .error (.fault f) t ∧ u = takeFault f t) ∨
    (∃ t, body i s = .error .refuse t ∧ u = takeRefusal t) := by
  rw [exec_eq_finish] at h
  exact finish_cases h

/-- A step of a machine that is neither stopped nor at its end (R32, R34). -/
theorem step_fetch (s : State) (w : Word) (hf : s.fault = none) (hr : s.refused = false) (hw : fetch s = some w) :
    step s = match decode w with
      | .error d => .next (takeFault (faultOfDecode d) s)
      | .ok i => exec i s := by
  cases hd : decode w <;> simp [step, hf, hr, hw, hd]

end Sys2Proof.Machine
end

