-- ==== Sys2Proof/Tests/Slice0.lean ====
section
/-! SUPPORT. The model's own tests. Expected results come from the spec: 95_test_vectors (named at each test), the
encodings of 30_encoding R58 to R65, and the rules cited. The second half has, for every obligation with hypotheses, a
concrete state and operands that meet them. -/

namespace Sys2Proof.Tests

open Sys2Proof Sys2Proof.Machine Sys2Proof.Claims

/-! ## Small states -/

/-- The handle `K` of 95_test_vectors section 0. -/
def handleK : Handle := { dpin := 10#8, cpin := 11#8, v := .v3_5, t := .t14, h := .h12 }

/-- The state after `K`, with a sensor script and a clock script. -/
def ready (levels : List Level) (counts : List Millis) : State :=
  { State.reset with handle := some handleK, env := { levels := levels, levelDraws := 0, counts := counts, countDraws := 0 } }

/-- The same with both pins driven, as `START` leaves them. -/
def driven (levels : List Level) : State :=
  { ready levels [] with pins := { modeD := some .out, modeC := some .out, latD := some .hi, latC := some .lo } }

/-- A state after `K` with the registers a conversion reads. -/
def withRaw (h : Handle) (regs : Regs) : State := { ready [] [] with handle := some h, regs := regs }

/-- Another parameter (R90): the older edition's `C1`, `C2` and `C3`, and class 5 supplied. -/
def otherCoefficients : Coefficients := { defaultCoefficients with
  d1c := { defaultCoefficients.d1c with vX := some ⟨true, 390, 1⟩ }
  d1f := { defaultCoefficients.d1f with vX := some ⟨true, 380, 1⟩ }
  c1 := { h12 := some ⟨true, 4, 0⟩, h8 := none }
  c2 := { h12 := some ⟨false, 405, 4⟩, h8 := none }
  c3 := { h12 := some ⟨true, 28, 7⟩, h8 := none } }

/-- A successful temperature exchange's registers. -/
def tempRegs (raw : Raw) : Regs := { Regs.unwritten with rstT := some .ok, rawT := some raw }

/-- A successful humidity exchange's registers, with `TC`. -/
def humRegs (raw : Raw) (tc : F32) : Regs :=
  { Regs.unwritten with rstH := some .ok, rawH := some raw, tc := some (.val tc), out := some (.val tc) }

/-- A machine about to fetch one word. -/
def loaded (w : Word) : State := { ready [] [] with program := [w] }

/-- What a property of the next state says, `none` where there is no next state. -/
def afterStep {α : Type} (f : State → α) (o : Host.Outcome State Fault Refusal) : Option α :=
  match o with
  | .next t => some (f t)
  | _ => none

/-- Bits as levels. -/
def bits (ns : List Nat) : List Level := ns.map fun n => if n = 0 then .lo else .hi

/-! ## Well-formedness: each check refuses an ill-formed term (R59, R61) -/

theorem test_wellFormed_sendcmd : (Instr.sendcmd 0x04#8).wellFormed = false := by decide
theorem test_wellFormed_sendcmd_ff : (Instr.sendcmd 0xFF#8).wellFormed = false := by decide
theorem test_wellFormed_readraw : (Instr.readraw 0x00#8).wellFormed = false := by decide
theorem test_wellFormed_accepts :
    (Instr.sendcmd 0x03#8).wellFormed = true ∧ (Instr.readraw 0x05#8).wellFormed = true := by decide

/-! ## Decoding: words written out from R58, R59 and R62, every constructor -/

theorem test_decode_setmode :
    decode 0b00000001_00000000_00000001_00000001#32 = .ok (.setmode .sck .input) ∧
    decode 0b00000001_00000000_00000000_00000000#32 = .ok (.setmode .data .out) := by decide
theorem test_decode_write :
    decode 0b00000010_00000000_00000000_00000001#32 = .ok (.write .data .hi) ∧
    decode 0b00000010_00000000_00000001_00000000#32 = .ok (.write .sck .lo) := by decide
theorem test_decode_read : decode 0b00000011_00000000_00000001_00000000#32 = .ok (.read .sck) := by decide
theorem test_decode_dlyUs : decode 0b00000100_10000000_00000000_00000101#32 = .ok (.dlyUs 0x800005#24) := by decide
theorem test_decode_dlyMs : decode 0b00000101_00000000_00000000_00001010#32 = .ok (.dlyMs 10#24) := by decide
theorem test_decode_millis : decode 0b00000110_00000000_00000000_00000000#32 = .ok .millis := by decide
theorem test_decode_start : decode 0b00010000_00000000_00000000_00000000#32 = .ok .start := by decide
theorem test_decode_shiftout8 : decode 0b00010001_00000000_00000000_10000001#32 = .ok (.shiftout8 0x81#8) := by decide
theorem test_decode_ack : decode 0b00010010_00000000_00000000_00000000#32 = .ok .ack := by decide
theorem test_decode_sendcmd : decode 0b00010011_00000000_00000000_00000101#32 = .ok (.sendcmd 0x05#8) := by decide
theorem test_decode_wait : decode 0b00010100_00000000_00000000_00000000#32 = .ok .wait := by decide
theorem test_decode_shiftin8 : decode 0b00010101_00000000_00000000_00000000#32 = .ok .shiftin8 := by decide
theorem test_decode_midack : decode 0b00010110_00000000_00000000_00000000#32 = .ok .midack := by decide
theorem test_decode_read16 : decode 0b00010111_00000000_00000000_00000000#32 = .ok .read16 := by decide
theorem test_decode_crcskip : decode 0b00011000_00000000_00000000_00000000#32 = .ok .crcskip := by decide
theorem test_decode_readraw : decode 0b00011001_00000000_00000000_00000011#32 = .ok (.readraw 0x03#8) := by decide
theorem test_decode_convC : decode 0b00100000_00000000_00000000_00000000#32 = .ok .convC := by decide
theorem test_decode_convF : decode 0b00100001_00000000_00000000_00000000#32 = .ok .convF := by decide
theorem test_decode_convRh : decode 0b00100010_00000000_00000000_00000000#32 = .ok .convRh := by decide
theorem test_decode_construct :
    decode 0b00110000_00001010_00001011_00001000#32 = .ok (.construct 10#8 11#8 .v3_5 .t14 .h12) ∧
    decode 0b00110000_00000001_00000010_00000011#32 = .ok (.construct 1#8 2#8 .v5_0 .t12 .h8) := by decide
theorem test_decode_readC : decode 0b00110001_00000000_00000000_00000000#32 = .ok .readC := by decide
theorem test_decode_readF : decode 0b00110010_00000000_00000000_00000000#32 = .ok .readF := by decide
theorem test_decode_readRh : decode 0b00110011_00000000_00000000_00000000#32 = .ok .readRh := by decide

/-- 95_test_vectors 2.1: unassigned opcodes. -/
theorem test_decode_illegal :
    [0x00000000#32, 0x07000000#32, 0xFF000000#32].all (fun w => decide (decode w = .error .illegalOpcode)) = true := by
  decide

/-- 95_test_vectors 2.1: reserved bits, before the operand check (0x13000103). -/
theorem test_decode_reserved :
    [0x10000001#32, 0x12800000#32, 0x13000103#32, 0x11000100#32, 0x01000004#32, 0x02000002#32, 0x03000001#32,
      0x30000020#32, 0x06000001#32].all (fun w => decide (decode w = .error .reservedBits)) = true := by decide

/-- 95_test_vectors 2.1: illegal operand values. -/
theorem test_decode_badOperand :
    [0x13000004#32, 0x130000FF#32, 0x01000003#32, 0x01000202#32, 0x30000018#32, 0x3000001C#32].all
      (fun w => decide (decode w = .error .badOperand)) = true := by decide

/-- 95_test_vectors V4. -/
theorem test_encode_vectors :
    encode (.setmode .data .inputPullup) = 0x01000002#32 ∧ encode (.setmode .data .input) = 0x01000001#32 ∧
    encode (.write .data .hi) = 0x02000001#32 ∧ encode (.read .sck) = 0x03000100#32 ∧
    encode (.dlyMs 10#24) = 0x0500000A#32 := by decide

/-- The table word of a row, as the host numbers it. -/
theorem test_decodeTableWord :
    decodeTableWord 32 0x19000003 = some (.readraw 0x03#8) ∧ decodeTableWord 32 0x19000000 = none := by decide

/-- The assembler text of R65 and the pseudo-instructions of R66; W8 of 95_test_vectors. -/
theorem test_assemble_lines :
    assembleLine "CONSTRUCT 10, 11, V3_5, T14, H12" = some [0x300A0B08#32] ∧
    assembleLine "CONSTRUCT_DEFAULT 10, 11" = some [0x300A0B08#32] := by decide +kernel
theorem test_assemble_operands :
    assembleLine "READRAW MEAS_RH" = some [0x19000005#32] ∧ assembleLine "SHIFTOUT8 0x80" = some [0x11000080#32] ∧
    assembleLine "PULSE" = some [0x02000101#32, 0x02000100#32] ∧ assembleLine "READ" = none := by decide +kernel

/-! ## Binary32: 95_test_vectors 2.7, literal roundings -/

theorem test_lit :
    litDecimal true 397 1 = 0xC21ECCCD#32 ∧ litDecimal false 1 2 = 0x3C23D70A#32 ∧
    litDecimal false 18 3 = 0x3C9374BC#32 ∧ litDecimal false 367 4 = 0x3D1652BD#32 ∧
    litDecimal true 15955 10 = 0xB5D624F6#32 ∧ litDecimal true 20468 4 = 0xC002FEC5#32 ∧
    litDecimal false 8 5 = 0x38A7C5AC#32 := by decide +kernel

/-- 3970 counts are exactly +0 degrees at mid-range (95_test_vectors W1). -/
theorem test_celsius_zero : celsius defaultCoefficients .v3_5 .t14 3970#16 = some 0x00000000#32 := by decide +kernel

/-- Above the 14-bit range, not clamped (95_test_vectors 2.7). -/
theorem test_celsius_unclamped : celsius defaultCoefficients .v3_5 .t14 65535#16 = some 0x4419E999#32 := by decide +kernel

/-- IEEE 754: a tie goes to the even significand; 2^24 + 1 is a tie, 2^24 + 3 rounds up. -/
theorem test_ties_to_even : f32 16777217 = 0x4B800000#32 ∧ f32 16777219 = 0x4B800002#32 := by decide +kernel

/-! ## One step of each operation -/

/-- V1 of 95_test_vectors. -/
theorem test_setmode : afterStep (·.pins.modeC) (exec (.setmode .sck .out) (ready [] [])) = some (some .out) := by
  decide
theorem test_write : afterStep (fun t => (t.trace, t.pins.latC)) (exec (.write .sck .hi) (driven [])) =
    some ([.write 11#8 .hi], some .hi) := by decide
/-- V2. -/
theorem test_write_notOutput : afterStep (fun t => (t.fault, t.trace, t.pins.latC))
    (exec (.write .sck .hi) (ready [] [])) = some (some .pinNotOutput, [], none) := by decide
theorem test_read : afterStep (fun t => (t.regs.smp, t.trace, t.pins.modeD)) (exec (.read .data) (ready [.hi] [])) =
    some (some .hi, [.read 10#8 .hi], none) := by decide
theorem test_dlyUs : afterStep (fun t => (t.pc, t.trace)) (exec (.dlyUs 0xFFFFFF#24) (ready [] [])) =
    some (1, [.delayUs 16777215]) := by decide
theorem test_dlyMs : afterStep (·.trace) (exec (.dlyMs 5#24) (ready [] [])) = some [.delayMs 5] := by decide
theorem test_millis : afterStep (fun t => (t.regs.ms, t.trace)) (exec .millis (ready [] [1234#32])) =
    some (some 1234#32, [.millis 1234#32]) := by decide

/-- V5. -/
theorem test_start : afterStep (fun t => (t.trace.length, t.pins)) (exec .start (ready [] [])) =
    some (16, ⟨some .out, some .out, some .hi, some .lo⟩) := by decide +kernel
/-- V6: the levels written to DATA. -/
theorem test_shiftout8 : afterStep (fun t => (t.trace.filterMap fun e => match e with
      | .write 10#8 l => some l
      | _ => none, t.trace.length)) (exec (.shiftout8 0x03#8) (driven [])) =
    some (bits [0, 0, 0, 0, 0, 0, 1, 1], 48) := by decide +kernel
/-- V7: the conforming acknowledgment, and both phases wrong. -/
theorem test_ack : afterStep (fun t => (t.regs.txst, t.trace.length, t.pins.modeD)) (exec .ack (driven [.lo, .hi])) =
    some (some .ok, 7, some .inputPullup) := by decide +kernel
theorem test_ack_first_phase_wins : afterStep (fun t => (t.regs.a0, t.regs.a1, t.regs.txst))
    (exec .ack (driven [.hi, .lo])) = some (some .hi, some .lo, some .eAck0) := by decide +kernel
/-- V8. -/
theorem test_sendcmd : afterStep (fun t => (t.regs.txst, t.trace.length)) (exec (.sendcmd 0x05#8) (ready [.lo, .lo] [])) =
    some (some .eAck1, 71) := by decide +kernel
/-- 95_test_vectors 2.4: counter wrap, and ready at poll 2. -/
theorem test_wait_wrap : afterStep (fun t => (t.regs.wst, t.trace.length))
    (exec .wait (ready [.hi, .hi] [0xFFFFFFF0#32, 0xFFFFFFFA#32, 0x000003D8#32])) =
    some (some .timeout, 8) := by decide +kernel
theorem test_wait_ready : afterStep (fun t => (t.regs.wst, t.trace)) (exec .wait (ready [.hi, .lo] [0#32, 10#32])) =
    some (some .ready, [.setMode 10#8 .inputPullup, .millis 0#32, .delayMs 10, .read 10#8 .hi, .millis 10#32,
      .delayMs 10, .read 10#8 .lo]) := by decide +kernel
/-- V9. -/
theorem test_shiftin8 : afterStep (fun t => (t.regs.byte, t.trace.length, t.pins.modeD))
    (exec .shiftin8 (driven (bits [1, 0, 1, 0, 0, 0, 0, 1]))) = some (some 0xA1#8, 40, some .out) := by decide +kernel
/-- V12. -/
theorem test_midack_fault : afterStep (fun t => (t.pc, t.fault, t.trace.length)) (exec .midack (ready [] [])) =
    some (0, some .pinNotOutput, 3) := by decide +kernel
theorem test_midack : afterStep (fun t => (t.trace.length, t.pins.latD)) (exec .midack (driven [])) =
    some (7, some .lo) := by decide +kernel
/-- W7. -/
theorem test_read16 : afterStep (fun t => (t.regs.d16, t.regs.byte, t.trace.length))
    (exec .read16 (driven (bits [1, 0, 1, 0, 0, 1, 0, 1, 1, 1, 0, 0, 0, 0, 1, 1]))) =
    some (some 0xA5C3#16, some 0xC3#8, 89) := by decide +kernel
/-- V11. -/
theorem test_crcskip : afterStep (fun t => (t.trace.length, t.pins.modeD, t.pins.latD, readLevels t.trace))
    (exec .crcskip (driven [])) = some (7, some .out, some .hi, []) := by decide +kernel
/-- 95_test_vectors 2.6: a success after three polls, and W5. -/
theorem test_readraw : afterStep (fun t => (t.regs.rawH, t.regs.rstH, t.regs.rstT, t.trace.length))
    (exec (.readraw 0x05#8) (ready (conformingScript 0x05#8 0xDC#8 3) [0#32, 10#32, 20#32])) =
    some (some 1500#16, some .ok, none, 177) := by decide +kernel
theorem test_readraw_noAck : afterStep (fun t => (t.regs.rstT, t.regs.rawT, t.regs.wst, t.trace.length))
    (exec (.readraw 0x03#8) (ready [.hi, .hi] [])) = some (some .eAck0, none, none, 71) := by decide +kernel
/-- 95_test_vectors 2.7. -/
theorem test_convC : afterStep (fun t => (t.regs.out, t.regs.tc)) (exec .convC (withRaw handleK (tempRegs 6400#16))) =
    some (some (.val 0x41C26666#32), some (.val 0x41C26666#32)) := by decide +kernel
theorem test_convC_unwritten : afterStep (·.fault) (exec .convC (ready [] [])) = some (some .unwritten) := by decide
theorem test_convF : afterStep (fun t => (t.regs.out, t.regs.tc)) (exec .convF (withRaw handleK (tempRegs 6400#16))) =
    some (some (.val 0x42976666#32), none) := by decide +kernel
theorem test_convF_vX : afterStep (fun t => (t.refused, t.pc, t.regs.out))
    (exec .convF (withRaw { handleK with v := .vX } (tempRegs 6400#16))) = some (true, 0, none) := by decide +kernel
theorem test_convRh : afterStep (·.regs.out) (exec .convRh (withRaw handleK (humRegs 1500#16 0x41C80000#32))) =
    some (some (.val 0x4245A73F#32)) := by decide +kernel
theorem test_convRh_h8 :
    afterStep (·.regs.out) (exec .convRh (withRaw { handleK with h := .h8 } (humRegs 100#16 0x420C0000#32))) =
    some (some (.val 0x4257DFF3#32)) := by decide +kernel
/-- Another parameter's values are the ones used: class 5, and a humidity class the parameter does not supply. -/
theorem test_otherCoefficients :
    afterStep (·.regs.out) (exec .convF { withRaw { handleK with v := .vX } (tempRegs 0#16) with
      coeff := otherCoefficients }) = some (some (.val 0xC2180000#32)) ∧
    afterStep (·.regs.out) (exec .convRh { withRaw handleK (humRegs 0#16 0x41C80000#32) with
      coeff := otherCoefficients }) = some (some (.val 0xC0800000#32)) ∧
    afterStep (fun t => (t.refused, t.pc)) (exec .convRh { withRaw { handleK with h := .h8 } (humRegs 0#16 0#32) with
      coeff := otherCoefficients }) = some (true, 0) := by decide +kernel
theorem test_construct : afterStep (·.handle) (exec (.construct 255#8 0#8 .vX .t12 .h8) State.reset) =
    some (some ⟨255#8, 0#8, .vX, .t12, .h8⟩) := by decide
theorem test_construct_twice : afterStep (fun t => (t.fault, t.handle)) (exec (.construct 0#8 0#8 .v5_0 .t14 .h12)
    (ready [] [])) = some (some .reconstruct, some handleK) := by decide
/-- P1 and P7. -/
theorem test_readC : afterStep (fun t => (t.regs.out, t.trace.length))
    (exec .readC (ready (conformingScript 0x19#8 0x00#8 1) [0#32])) =
    some (some (.val 0x41C26666#32), 171) := by decide +kernel
theorem test_readC_vX : afterStep (fun t => (t.refused, t.regs.rawT, t.regs.out)) (exec .readC
    { ready (conformingScript 0x19#8 0x00#8 1) [0#32] with handle := some { handleK with v := .vX } }) =
    some (true, some 6400#16, none) := by decide +kernel
/-- P6 (the second read). -/
theorem test_readF : afterStep (·.regs.out) (exec .readF (ready (conformingScript 0x19#8 0x64#8 1) [0#32])) =
    some (some (.val 0x429AFFFF#32)) := by decide +kernel
/-- P2 and P2b. -/
theorem test_readRh : afterStep (fun t => (t.regs.out, t.regs.tc, t.trace.length))
    (exec .readRh (ready (conformingScript 0x05#8 0xDC#8 1 ++ conformingScript 0x19#8 0x96#8 1) [0#32, 0#32])) =
    some (some (.val 0x424611BE#32), some (.val 0x41CE6666#32), 342) := by decide +kernel
theorem test_readRh_propagates : afterStep (fun t => (t.regs.out, t.regs.rstT, t.regs.rstH))
    (exec .readRh (ready (conformingScript 0x05#8 0xDC#8 1 ++ [.hi, .hi]) [0#32])) =
    some (some .invalid, some .eAck0, some .ok) := by decide +kernel

/-- A step through the fetch: the word `withFetchWord` puts at `pc` runs. -/
theorem test_step_withFetchWord : afterStep (fun t => (t.pc, t.handle))
    (step (State.reset.withFetchWord 32 0x300A0B08)) = some (1, some handleK) := by decide +kernel

/-! ## Witnesses: the hypotheses of every obligation are met, each clause at the ends of its range -/

theorem test_witness_DecodeOfEncode :
    (Instr.construct 255#8 0#8 .vX .t12 .h8).wellFormed = true ∧ (Instr.sendcmd 0x05#8).wellFormed = true := by decide +kernel

theorem test_witness_DecodedWordIsItsEncoding : decode 0x300A0B17#32 = .ok (.construct 10#8 11#8 .vX .t12 .h8) := by
  decide +kernel

/-- Opcodes 0x07 and 0x34 are the neighbours of assigned ones; a reserved bit; an illegal and a legal operand. -/
theorem test_witness_DecodeChecksInOrder :
    (0x07000000#32 : Word).toNat / 2 ^ 24 ∉ assignedOpcodes ∧ (0x34000000#32 : Word).toNat / 2 ^ 24 ∉ assignedOpcodes ∧
    (0x33000001#32 : Word).toNat / 2 ^ 24 ∈ assignedOpcodes ∧
    0x33000001#32 &&& reservedBits ((0x33000001#32 : Word).toNat / 2 ^ 24) ≠ 0#32 ∧
    0x30000018#32 &&& reservedBits ((0x30000018#32 : Word).toNat / 2 ^ 24) = 0#32 := by decide +kernel

/-- The last legal and the first illegal value of each operand (R59). -/
theorem test_witness_IllegalOperand :
    (IllegalFields 0x30 0 0x18 ∧ ¬ IllegalFields 0x30 0 0x14) ∧ (IllegalFields 0x01 0 3 ∧ ¬ IllegalFields 0x01 1 2) ∧
    (IllegalFields 0x02 2 0 ∧ ¬ IllegalFields 0x03 1 0) ∧ (IllegalFields 0x19 0 4 ∧ ¬ IllegalFields 0x13 0 3) := by
  simp [IllegalFields]

/-- The invariant holds in a state after `K` with a word to run, and that word steps. -/
theorem test_witness_StepKeepsInvariant :
    afterStep (·.pc) (step (loaded 0x06000000#32)) = some 1 ∧ Inv (loaded 0x06000000#32) := by
  refine ⟨by decide +kernel, ?_⟩
  constructor
  · decide +kernel
  · decide +kernel
  · exact .inl ⟨rfl, rfl, rfl⟩
  · decide +kernel
  · intro p hp
    cases p <;> cases hp
  · intro hn
    cases hn
  · exact ⟨fun hn => (by cases hn), fun hn => (by cases hn)⟩
  · exact .inl rfl
  · intro hr
    cases hr
  · decide +kernel
  · decide +kernel

/-- The invariant and its clauses hold in a state after a failed exchange and its conversion as well. -/
theorem test_witness_StepKeepsInvariant_failed : Inv { loaded 0x22000000#32 with
    regs := { Regs.unwritten with
      a0 := some .hi, a1 := some .hi, txst := some .eAck0, rstH := some .eAck0, rstT := some .ok,
      rawT := some 6400#16, tc := some (.val 0x41C26666#32), out := some .invalid },
    pins := { modeD := some .inputPullup, modeC := some .out, latD := some .hi, latC := some .lo } } := by
  constructor
  · decide +kernel
  · decide +kernel
  · exact .inr ⟨.hi, .hi, rfl, rfl, rfl⟩
  · decide +kernel
  · intro p _
    cases p <;> rfl
  · intro hn
    cases hn
  · exact ⟨fun hn => (by cases hn), fun hn => (by cases hn)⟩
  · exact .inl rfl
  · intro hr
    cases hr
  · decide +kernel
  · decide +kernel

theorem test_witness_StepRunsTheDecodedOperation :
    (loaded 0x33000000#32).fault = none ∧ (loaded 0x33000000#32).refused = false ∧
    (loaded 0x33000000#32).program[(loaded 0x33000000#32).pc]? = some 0x33000000#32 ∧
    decode 0x33000000#32 = .ok .readRh := by decide +kernel

theorem test_witness_RejectedWordTakesItsFault :
    (∀ w, (loaded w).fault = none ∧ (loaded w).refused = false ∧ (loaded w).program[(loaded w).pc]? = some w) ∧
    decode 0x00000000#32 = .error .illegalOpcode ∧ decode 0x30000020#32 = .error .reservedBits ∧
    decode 0x3000001C#32 = .error .badOperand := by
  refine ⟨fun w => ⟨rfl, rfl, rfl⟩, ?_⟩
  decide +kernel

/-- All three ways of ending are taken: a completed, a faulted and a refused step. -/
theorem test_witness_OperationEndsInOneOfThreeWays :
    afterStep (fun t => (t.pc, t.fault, t.refused)) (step (loaded 0x10000000#32)) = some (1, none, false) ∧
    afterStep (fun t => (t.pc, t.fault, t.refused)) (step (loaded 0x20000000#32)) = some (0, some .unwritten, false) ∧
    afterStep (fun t => (t.pc, t.fault, t.refused)) (step { loaded 0x20000000#32 with
      handle := some { handleK with v := .vX }, regs := tempRegs 0#16 }) = some (0, none, true) := by decide +kernel

theorem test_witness_StoppedMachineNeverMoves :
    ({ ready [] [] with fault := some .noHandle }).fault ≠ none ∧ ({ ready [] [] with refused := true }).refused = true ∧
    State.reset.program.length ≤ State.reset.pc ∧
    ({ loaded 0x06000000#32 with pc := 1 }).program.length = ({ loaded 0x06000000#32 with pc := 1 }).pc ∧
    ({ loaded 0x06000000#32 with pc := 2 }).program.length < ({ loaded 0x06000000#32 with pc := 2 }).pc := by
  decide +kernel

theorem test_witness_OnlyConstructWritesTheHandle :
    afterStep (fun t => decide (t.handle ≠ State.reset.handle))
      (exec (.construct 1#8 2#8 .v5_0 .t12 .h8) State.reset) = some true := by decide +kernel

theorem test_witness_NoOperationWritesTheProgram : ∃ t, exec .start (loaded 0x10000000#32) = .next t :=
  exec_next _ _

theorem test_witness_TraceOnlyGrows : ∃ t, exec .midack (ready [] []) = .next t := exec_next _ _

/-- Every register of R27 is changed by an operation the statement lists for it. -/
theorem test_witness_EachRegisterHasItsWriters :
    afterStep (fun t => decide (t.regs.smp ≠ none)) (exec (.read .sck) (ready [.lo] [])) = some true ∧
    afterStep (fun t => decide (t.regs.ms ≠ none)) (exec .millis (ready [] [7#32])) = some true ∧
    afterStep (fun t => decide (t.regs.a0 ≠ none ∧ t.regs.a1 ≠ none ∧ t.regs.txst ≠ none))
      (exec .ack (driven [.lo, .hi])) = some true ∧
    afterStep (fun t => decide (t.regs.wst ≠ none)) (exec .wait (ready [.lo] [0#32])) = some true ∧
    afterStep (fun t => decide (t.regs.byte ≠ none ∧ t.regs.d16 ≠ none))
      (exec .read16 (driven (List.replicate 16 .hi))) = some true ∧
    afterStep (fun t => decide (t.regs.rawT ≠ none ∧ t.regs.rstT ≠ none ∧ t.regs.tc ≠ none ∧ t.regs.out ≠ none))
      (exec .readC (ready (conformingScript 0x00#8 0x00#8 1) [0#32])) = some true ∧
    afterStep (fun t => decide (t.regs.rawH ≠ none ∧ t.regs.rstH ≠ none))
      (exec (.readraw 0x05#8) (ready (conformingScript 0xFF#8 0xFF#8 1) [0#32])) = some true := by decide +kernel

theorem test_witness_SensorAnswersEveryRead :
    afterStep (fun t => (readLevels t.trace, t.env.levels)) (exec .ack (driven [.lo, .hi, .lo])) =
      some ([.lo, .hi], [.lo]) := by decide +kernel

theorem test_witness_ProtocolWritesAreEdges :
    isProtocol .shiftin8 = true ∧ ∃ t, exec .shiftin8 (driven (List.replicate 8 .lo)) = .next t := ⟨rfl, exec_next _ _⟩

theorem test_witness_ClockLineStaysOutput :
    (∃ t, exec (.setmode .data .input) (driven []) = .next t) ∧ ∀ m, Instr.setmode .data .input ≠ .setmode .sck m :=
  ⟨exec_next _ _, fun m hm => by cases hm⟩

/-- A state after `K` has a handle, one at reset has none: the hypotheses of every single-operation statement. -/
theorem test_witness_handles : (ready [] []).handle = some handleK ∧ State.reset.handle = none := by decide +kernel

theorem test_witness_WriteDrivesAnOutputPin :
    (driven []).handle = some handleK ∧ pinMode (driven []).pins .data = some .out ∧
    pinMode (ready [] []).pins .data ≠ some .out ∧
    pinMode ({ ready [] [] with pins := { Pins.unknown with modeC := some .inputPullup } }).pins .sck ≠ some .out := by
  decide +kernel

/-- The three pin cases of `SHIFTOUT8`, and the two of every operation that drives SCK only. -/
theorem test_witness_Shiftout8DrivesMsbFirst :
    ((driven []).pins.modeD = some .out ∧ (driven []).pins.modeC = some .out) ∧
    (ready [] []).pins.modeD ≠ some .out ∧
    (∃ s : State, s.handle = some handleK ∧ s.pins.modeD = some .out ∧ s.pins.modeC ≠ some .out) :=
  ⟨by decide +kernel, by decide +kernel, { driven [] with pins := { Pins.unknown with modeD := some .out } }, by decide +kernel⟩

/-- The four acknowledgments of 95_test_vectors V7. -/
theorem test_witness_AckReportsTheFirstFailingPhase :
    (driven [.lo, .hi]).pins.modeC = some .out ∧ (ready [.lo, .hi] []).pins.modeC ≠ some .out ∧
    (drawLevel (driven [.hi, .lo]).env).1 ≠ .lo ∧
    ((drawLevel (driven [.lo, .lo]).env).1 = .lo ∧ (drawLevel (drawLevel (driven [.lo, .lo]).env).2).1 ≠ .hi) ∧
    ((drawLevel (driven [.lo, .hi]).env).1 = .lo ∧ (drawLevel (drawLevel (driven [.lo, .hi]).env).2).1 = .hi) := by
  decide +kernel

/-- The bytes next to the two command codes, and the ends of the range. -/
theorem test_witness_SendcmdSendsACommand :
    ∀ b ∈ [0x00#8, 0x02#8, 0x04#8, 0x06#8, 0xFF#8], b ≠ 0x03#8 ∧ b ≠ 0x05#8 := by decide +kernel

/-- A clock script of one busy poll that keeps host duty HD2. -/
theorem hostDuty2_oneBusyPoll (h : Handle) (t : Millis) (low : 10 ≤ t.toNat) (high : t.toNat < 2 ^ 32 - 1000) :
    HostDuty2 (.millis 0#32 :: [t].flatMap (busyPollEvents h)) := by
  intro before between after ta tb he
  have he' : [Event.millis 0#32, .delayMs 10, .read h.dpin .hi, .millis t] =
      before ++ .millis ta :: (between ++ .millis tb :: after) := he
  rcases before with _ | ⟨b0, _ | ⟨b1, _ | ⟨b2, _ | ⟨b3, rest⟩⟩⟩⟩
  · rcases between with _ | ⟨c0, _ | ⟨c1, _ | ⟨c2, rest⟩⟩⟩ <;> simp at he'
    obtain ⟨rfl, rfl, rfl, rfl, -⟩ := he'
    simp [delaySum, Config.timeoutMs]
    omega
  all_goals simp at he'

theorem test_witness_WaitKeepsHostDutyTwo :
    (ready [.hi, .lo] [0#32, 10#32]).handle ≠ none ∧ ∃ t, exec .wait (ready [.hi, .lo] [0#32, 10#32]) = .next t :=
  ⟨by decide +kernel, exec_next _ _⟩

theorem test_witness_EveryAllowedClockIsAdmitted :
    (ready [.hi, .lo] [0#32, 10#32]).handle = some handleK ∧
    (ready [.hi, .lo] [0#32, 10#32]).env.counts = 0#32 :: ([10#32] ++ []) ∧
    (ready [.hi, .lo] [0#32, 10#32]).env.levels = List.replicate [10#32].length .hi ++ .lo :: [] ∧
    (∀ t ∈ [10#32], (t - 0#32 : Millis).toNat < 1000) ∧
    HostDuty2 (.millis 0#32 :: [10#32].flatMap (busyPollEvents handleK)) :=
  ⟨by decide, by decide, by decide, by simp, hostDuty2_oneBusyPoll handleK _ (by decide) (by decide)⟩

/-- The ready end at the last count that does not time out. -/
theorem test_witness_EveryAllowedClockIsAdmitted_latest :
    (∀ t ∈ [999#32], (t - 0#32 : Millis).toNat < 1000) ∧
    HostDuty2 (.millis 0#32 :: [999#32].flatMap (busyPollEvents handleK)) :=
  ⟨by simp, hostDuty2_oneBusyPoll handleK _ (by decide) (by decide)⟩

/-- The timeout end at the first count that times out, and at the last count HD2 allows. -/
theorem test_witness_EveryAllowedClockIsAdmitted_timeout :
    (ready [.hi] [0#32, 1000#32]).env.counts = 0#32 :: ([] ++ 1000#32 :: []) ∧
    (ready [.hi] [0#32, 1000#32]).env.levels = List.replicate (([] : List Millis).length + 1) .hi ++ [] ∧
    1000 ≤ (1000#32 - 0#32 : Millis).toNat ∧
    HostDuty2 (.millis 0#32 :: ([] ++ [1000#32]).flatMap (busyPollEvents handleK)) ∧
    HostDuty2 (.millis 0#32 :: ([] ++ [0xFFFFFC17#32]).flatMap (busyPollEvents handleK)) :=
  ⟨by decide, by decide, by decide, hostDuty2_oneBusyPoll handleK _ (by decide) (by decide),
    hostDuty2_oneBusyPoll handleK _ (by decide) (by decide)⟩

/-- Both ends are reached at those counts. -/
theorem test_wait_ends_at_the_boundary :
    afterStep (·.regs.wst) (exec .wait (ready [.hi, .lo] [0#32, 999#32])) = some (some .ready) ∧
    afterStep (·.regs.wst) (exec .wait (ready [.hi, .hi] [0#32, 999#32, 1009#32])) = some (some .timeout) ∧
    afterStep (·.regs.wst) (exec .wait (ready [.hi] [0#32, 0xFFFFFC17#32])) = some (some .timeout) := by decide +kernel

theorem test_witness_ReadrawIsItsSubOperations :
    (drawLevel (ready [.hi, .hi] []).env).1 = .hi ∧
    afterStep (·.regs.txst) (exec (.sendcmd 0x03#8) (ready [.lo, .lo] [])) = some (some .eAck1) ∧
    afterStep (·.regs.txst) (exec (.sendcmd 0x03#8) (ready [.lo, .hi] [])) = some (some .ok) ∧
    afterStep (·.regs.wst) (exec .wait (ready [.hi] [0#32, 1000#32])) = some (some .timeout) ∧
    afterStep (·.regs.wst) (exec .wait (ready [.lo] [0#32])) = some (some .ready) := by decide +kernel

theorem test_witness_UnacknowledgedExchangeStops :
    (ready (silentScript 2) []).handle = some handleK ∧ (drawLevel (ready (silentScript 2) []).env).1 = .hi := by decide +kernel

/-- A conforming sensor that is ready at the second poll. -/
theorem test_witness_ConformingSensorIsRead :
    (ready (conformingScript 0xFF#8 0x00#8 2) [0#32, 10#32]).handle = some handleK ∧
    (ready (conformingScript 0xFF#8 0x00#8 2) [0#32, 10#32]).env.levels =
      conformingScript 0xFF#8 0x00#8 ([10#32].length + 1) ++ [] ∧
    (ready (conformingScript 0xFF#8 0x00#8 2) [0#32, 10#32]).env.counts = 0#32 :: ([10#32] ++ []) ∧
    (∀ t ∈ [10#32], (t - 0#32 : Millis).toNat < 1000) ∧
    HostDuty2 (.millis 0#32 :: [10#32].flatMap (busyPollEvents handleK)) :=
  ⟨by decide, by decide, by decide, by simp, hostDuty2_oneBusyPoll handleK _ (by decide) (by decide)⟩

theorem test_witness_EventCounts :
    afterStep (·.pc) (exec .ack (driven [.lo, .hi])) = some ((driven [.lo, .hi]).pc + 1) := by decide +kernel

/-- The three ends of an exchange: unacknowledged, timed out at its first poll, read. -/
theorem test_witness_EventCounts_ends :
    afterStep (fun t => (t.pc, t.trace.length)) (exec .readC (ready (silentScript 2) [])) = some (1, 71) ∧
    afterStep (fun t => (t.pc, t.trace.length)) (exec .readF (ready [.lo, .hi, .hi] [0#32, 1000#32])) = some (1, 76) ∧
    afterStep (fun t => (t.pc, t.trace.length)) (exec .readF (ready (conformingScript 0#8 0#8 1) [0#32])) =
      some (1, 171) := by decide +kernel

/-- The cases of `CONV_C` and `CONV_F`: unwritten, failed, a number, no coefficient; and class 5 supplied. -/
theorem test_witness_ConvCComputesCelsius :
    (ready [] []).regs.rstT = none ∧
    ({ Regs.unwritten with rstT := some .eTimeout }).rstT = some .eTimeout ∧ Status.eTimeout ≠ .ok ∧
    ((withRaw handleK (tempRegs 0xFFFF#16)).regs.rstT = some .ok ∧
      (withRaw handleK (tempRegs 0xFFFF#16)).regs.rawT = some 0xFFFF#16 ∧
      (ready [] []).coeff.d1c.get .v3_5 = some ⟨true, 397, 1⟩ ∧ (ready [] []).coeff.d2c.get .t14 = some ⟨false, 1, 2⟩) ∧
    (ready [] []).coeff.d1c.get .vX = none ∧ otherCoefficients.d1c.get .vX = some ⟨true, 390, 1⟩ ∧
    ({ defaultCoefficients with d2c := { t14 := some ⟨false, 1, 2⟩, t12 := none } }).d2c.get .t12 = none := by
  decide +kernel

theorem test_witness_ConvFComputesFahrenheit :
    (ready [] []).coeff.d1f.get .v3_5 = some ⟨true, 395, 1⟩ ∧ (ready [] []).coeff.d2f.get .t14 = some ⟨false, 18, 3⟩ ∧
    (ready [] []).coeff.d1f.get .vX = none ∧ otherCoefficients.d1f.get .vX = some ⟨true, 380, 1⟩ := by decide +kernel

theorem test_witness_ConvRhComputesHumidity :
    (Regs.unwritten.rstH = none ∧ Regs.unwritten.tc = none) ∧
    ((humRegs 0#16 0#32).rstH = some .ok ∧ (humRegs 0#16 0#32).tc = some (.val 0#32) ∧
      (humRegs 0#16 0#32).rawH = some 0#16) ∧
    ({ humRegs 0#16 0#32 with tc := some .invalid }).tc = some .invalid ∧ Status.eAck1 ≠ .ok ∧
    ((ready [] []).coeff.c1.get .h12 ≠ none ∧ (ready [] []).coeff.c2.get .h12 ≠ none ∧
      (ready [] []).coeff.c3.get .h12 ≠ none ∧ (ready [] []).coeff.t1.get .h12 ≠ none ∧
      (ready [] []).coeff.t2.get .h12 ≠ none) ∧
    humiditySupplied { ready [] [] with coeff := otherCoefficients } { handleK with h := .h8 } = false := by decide +kernel

theorem test_witness_MidRangeCelsiusIsTheSourceFormula :
    (withRaw handleK (tempRegs 6400#16)).handle = some handleK ∧ handleK.v = .v3_5 ∧ handleK.t = .t14 ∧
    (withRaw handleK (tempRegs 6400#16)).coeff.d1c.v3_5 = some ⟨true, 397, 1⟩ ∧
    (withRaw handleK (tempRegs 6400#16)).coeff.d2c.t14 = some ⟨false, 1, 2⟩ ∧
    (withRaw handleK (tempRegs 6400#16)).regs.rstT = some .ok ∧
    (withRaw handleK (tempRegs 6400#16)).regs.rawT = some 6400#16 := by decide +kernel

/-- Two states with the same registers and different traces. -/
theorem test_witness_ConversionsArePure :
    (∃ t, exec .convC (ready [] []) = .next t) ∧
    (∃ t, exec .convC { ready [] [] with trace := [.delayMs 1] } = .next t) ∧
    (ready [] []).trace ≠ ({ ready [] [] with trace := [.delayMs 1] }).trace :=
  ⟨exec_next _ _, exec_next _ _, by decide +kernel⟩

/-- A failed exchange, and a humidity exchange whose temperature sub-reading failed. -/
theorem test_witness_FailuresAreContagious :
    afterStep (fun t => (t.pc, t.regs.rstT, t.regs.out)) (exec .readF (ready (silentScript 2) [])) =
      some (1, some .eAck0, some .invalid) ∧
    afterStep (fun t => (t.pc, t.regs.rstH, t.regs.rstT, t.regs.tc, t.regs.out))
      (exec .readRh (ready (conformingScript 0x05#8 0xDC#8 1 ++ silentScript 2) [0#32])) =
      some (1, some .ok, some .eAck0, some .invalid, some .invalid) := by decide +kernel

theorem test_witness_IntegersConvertExactly : f32 16777215 = 0x4B7FFFFF#32 ∧ (16777215 : Nat) < 2 ^ 24 := by
  decide +kernel

/-- The least quotient that rounds to infinity, the one below it, and the largest finite number. -/
theorem test_witness_RoundingIsNearestEven :
    floatInf (round32 false (2 ^ 128 - 2 ^ 103) 1) = true ∧ floatInf (round32 true (2 ^ 128 - 2 ^ 103 - 1) 1) = false ∧
    round32 true (2 ^ 128 - 2 ^ 103 - 1) 1 = 0xFF7FFFFF#32 ∧ floatFinite 0xFF7FFFFF#32 = true ∧
    round32 false 1 (2 ^ 150) = 0#32 ∧ round32 false 3 (2 ^ 150) = 2#32 := by decide +kernel

/-- Sums just below the midpoint and from it on (the exact sum in units of 2^-149), the zero sums, and the results. -/
theorem test_witness_SumsAreNearest :
    (floatFinite 0x7F7FFFFF#32 = true ∧ floatFinite 0x72FFFFFF#32 = true ∧ floatFinite 0xF3000000#32 = true) ∧
    (floatInt 0x7F7FFFFF#32 + floatInt 0x72FFFFFF#32).natAbs < (2 ^ 128 - 2 ^ 103) * 2 ^ 149 * 1 ∧
    (2 ^ 128 - 2 ^ 103) * 2 ^ 149 * 1 = (floatInt 0x7F7FFFFF#32 - floatInt 0xF3000000#32).natAbs ∧
    fadd 0x7F7FFFFF#32 0x72FFFFFF#32 = 0x7F7FFFFF#32 ∧ fsub 0x7F7FFFFF#32 0xF3000000#32 = 0x7F800000#32 ∧
    floatInt 0x80000000#32 + floatInt 0x80000000#32 = 0 ∧ floatInt 0x3F800000#32 - floatInt 0x3F800000#32 = 0 ∧
    fadd 0x80000000#32 0x80000000#32 = 0x80000000#32 ∧ fsub 0x3F800000#32 0x3F800000#32 = 0#32 := by decide +kernel

/-- A product that is a tie, one that is rounded to the largest number, and one that overflows. -/
theorem test_witness_ProductsAreNearest :
    fmul 0x00000003#32 0x3F000000#32 = 0x00000002#32 ∧ fmul 0x00000001#32 0xBF000000#32 = 0x80000000#32 ∧
    (floatFinite 0x7F7FFFFF#32 = true ∧ floatFinite 0x3F800000#32 = true ∧ floatFinite 0xC0000000#32 = true) ∧
    (floatInt 0x7F7FFFFF#32 * floatInt 0x3F800000#32).natAbs < (2 ^ 128 - 2 ^ 103) * 2 ^ 149 * 2 ^ 149 ∧
    (2 ^ 128 - 2 ^ 103) * 2 ^ 149 * 2 ^ 149 ≤ (floatInt 0x7F7FFFFF#32 * floatInt 0xC0000000#32).natAbs ∧
    fmul 0x7F7FFFFF#32 0xC0000000#32 = 0xFF800000#32 := by decide +kernel

/-- `READ_C`, `READ_F` and `READ_RH` with a coefficient, and without one. -/
theorem test_witness_ReadCIsExchangeThenConversion :
    (ready [] []).coeff.d1c.get handleK.v = some ⟨true, 397, 1⟩ ∧ (ready [] []).coeff.d2c.get handleK.t = some ⟨false, 1, 2⟩ ∧
    (ready [] []).coeff.d1f.get handleK.v = some ⟨true, 395, 1⟩ ∧ (ready [] []).coeff.d2f.get handleK.t = some ⟨false, 18, 3⟩ ∧
    humiditySupplied (ready [] []) handleK = true ∧ (ready [] []).refused = false ∧
    State.reset.coeff.d1c.get .vX = none := by decide +kernel

theorem test_witness_ReadRhIsTwoExchangesThenConversions :
    afterStep (·.regs.rstH) (exec (.readraw 0x05#8) (ready (silentScript 2) [])) = some (some .eAck0) ∧
    afterStep (·.regs.rstH) (exec (.readraw 0x05#8) (ready (conformingScript 0#8 0#8 1) [0#32])) = some (some .ok) := by
  decide +kernel

/-- The cases of the compatibility view: invalid, a number, a code that equals a possible sentinel, and no code. -/
theorem test_witness_CompatibilityView :
    compatOut { ready [] [] with regs := { Regs.unwritten with out := some .invalid } } = some 0x7FC00000#32 ∧
    compatRawT (withRaw handleK (tempRegs 0x4000#16)) = 0x4000#16 ∧ State.reset.regs.rstT ≠ some .ok := by decide +kernel

end Sys2Proof.Tests
end

section
/-! SUPPORT. The nearest integer that `roundHalfEven` answers, and what it makes of `round32`: the exponent and the
significand that it packs, where they overflow, and how far the result is from the exact quotient (R13, R91). -/

namespace Sys2Proof.Machine

/-- Rounding a quotient does not carry it over an integer that bounds it from above. -/
theorem roundHalfEven_le {num den m : Nat} (hd : 0 < den) (h : num ≤ m * den) : roundHalfEven num den ≤ m := by
  obtain ⟨-, hle, -⟩ := roundHalfEven_near num den hd
  have : 2 * roundHalfEven num den * den ≤ (2 * m + 1) * den := by linarith
  have := Nat.le_of_mul_le_mul_right this hd
  omega

/-- Rounding a quotient does not carry it below an integer that bounds it from below. -/
theorem le_roundHalfEven {num den m : Nat} (hd : 0 < den) (h : m * den ≤ num) : m ≤ roundHalfEven num den := by
  obtain ⟨hge, -, -⟩ := roundHalfEven_near num den hd
  have : 2 * m * den ≤ (2 * roundHalfEven num den + 1) * den := by linarith
  have := Nat.le_of_mul_le_mul_right this hd
  omega

/-- No integer is nearer to the quotient than `roundHalfEven`, which is even where another one is as near: another
integer is a whole `den` away from it, and it is at most half a `den` away from the quotient. -/
theorem roundHalfEven_nearest (num den m : Nat) (hd : 0 < den) :
    ((num : Int) - (roundHalfEven num den * den : Nat)).natAbs ≤ ((num : Int) - (m * den : Nat)).natAbs ∧
    (((num : Int) - (roundHalfEven num den * den : Nat)).natAbs = ((num : Int) - (m * den : Nat)).natAbs →
      m ≠ roundHalfEven num den → roundHalfEven num den % 2 = 0) := by
  obtain ⟨hge, hle, heven⟩ := roundHalfEven_near num den hd
  generalize roundHalfEven num den = n at *
  simp only [add_mul, mul_assoc, one_mul] at hge hle heven
  rcases eq_or_ne m n with rfl | hne
  · exact ⟨le_rfl, fun _ h => absurd rfl h⟩
  have hstep : m * den + den ≤ n * den ∨ n * den + den ≤ m * den := by
    simpa only [Nat.succ_mul] using hne.lt_or_gt.imp (Nat.mul_le_mul_right den) (Nat.mul_le_mul_right den)
  generalize n * den = a at *
  generalize m * den = b at *
  exact ⟨by omega, fun heq _ => heven (by omega)⟩

theorem floatInf_packFloat (neg : Bool) (m : Nat) : floatInf (packFloat neg m) = decide (0x7F800000 ≤ m) := by
  unfold floatInf
  rw [floatExp_packFloat, floatFrac_packFloat, Bool.eq_iff_iff]
  simp only [Bool.and_eq_true, beq_iff_eq, decide_eq_true_eq]
  omega

theorem floatFinite_packFloat (neg : Bool) (m : Nat) : floatFinite (packFloat neg m) = decide (m < 0x7F800000) := by
  unfold floatFinite
  rw [floatExp_packFloat, decide_eq_decide]
  omega

/-- The finite numbers are on the grid of every quantum `2^k`, or below its 24-bit significands. -/
theorem floatUnits_onGrid_or_below (y : F32) (k : Nat) :
    (∃ m, floatUnits y = m * 2 ^ k) ∨ (k ≠ 0 ∧ floatUnits y < 2 ^ 23 * 2 ^ k) := by
  have hfrac : floatFrac y < 2 ^ 23 := (y.extractLsb' 0 23).isLt
  rcases Nat.eq_zero_or_pos k with rfl | hk
  · exact .inl ⟨floatUnits y, by simp⟩
  unfold floatUnits
  split
  · exact .inr ⟨hk.ne', hfrac.trans_le (Nat.le_mul_of_pos_right _ (Nat.two_pow_pos k))⟩
  rcases Nat.lt_or_ge (floatExp y - 1) k with hlt | hge
  · have hpow : 2 * 2 ^ (floatExp y - 1) ≤ 2 ^ k := by
      rw [← pow_succ']
      exact Nat.pow_le_pow_right (by decide) hlt
    have := Nat.mul_lt_mul_of_pos_right (show 2 ^ 23 + floatFrac y < 2 ^ 23 * 2 by omega)
      (Nat.two_pow_pos (floatExp y - 1))
    exact .inr ⟨hk.ne', by linarith⟩
  · refine .inl ⟨(2 ^ 23 + floatFrac y) * 2 ^ (floatExp y - 1 - k), ?_⟩
    rw [mul_assoc, ← pow_add, Nat.sub_add_cancel hge]

/-- The exponent `k` of the quantum at which `round32` rounds `num / den`. -/
def quantumExp (num den : Nat) : Nat := Nat.log2 (num * 2 ^ 149 / den) - 23

/-- The divisor that takes `num / den` to a number of quanta. -/
def quantumDen (num den : Nat) : Nat := den * 2 ^ quantumExp num den

/-- The significand `round32` gives `num / den`, before a carry into the exponent. -/
def significand (num den : Nat) : Nat := roundHalfEven (num * 2 ^ 149) (quantumDen num den)

theorem round32_eq_packFloat (neg : Bool) (num den : Nat) :
    round32 neg num den = packFloat neg (quantumExp num den * 2 ^ 23 + significand num den) := rfl

theorem floatSign_round32 (neg : Bool) (num den : Nat) : floatSign (round32 neg num den) = neg :=
  floatSign_packFloat neg _

theorem round32_zero (neg : Bool) (den : Nat) : round32 neg 0 den = packFloat neg 0 := by
  simp [round32, roundHalfEven]

section
variable {num den : Nat} (hd : 0 < den)
include hd

theorem quantumDen_pos : 0 < quantumDen num den := Nat.mul_pos hd (Nat.two_pow_pos _)

/-- The quotient has at most 24 bits in units of the quantum. -/
theorem units_lt_quantumDen : num * 2 ^ 149 < 2 ^ 24 * quantumDen num den := by
  have hlog := Nat.lt_log2_self (n := num * 2 ^ 149 / den)
  rw [Nat.div_lt_iff_lt_mul hd] at hlog
  refine hlog.trans_le ?_
  unfold quantumDen quantumExp
  generalize Nat.log2 (num * 2 ^ 149 / den) = l
  calc 2 ^ (l + 1) * den ≤ 2 ^ (24 + (l - 23)) * den :=
        Nat.mul_le_mul_right _ (Nat.pow_le_pow_right (by decide) (by omega))
    _ = 2 ^ 24 * (den * 2 ^ (l - 23)) := by rw [pow_add]; ring

/-- The quantum is the least one, or the quotient fills the 24 bits. -/
theorem quantumDen_le_units (hk : quantumExp num den ≠ 0) : 2 ^ 23 * quantumDen num den ≤ num * 2 ^ 149 := by
  unfold quantumDen
  unfold quantumExp at hk ⊢
  have hne : num * 2 ^ 149 / den ≠ 0 := fun h => hk (by rw [h]; rfl)
  have hlog := Nat.log2_self_le hne
  rw [Nat.le_div_iff_mul_le hd] at hlog
  refine Eq.trans_le ?_ hlog
  generalize Nat.log2 (num * 2 ^ 149 / den) = l at *
  rw [mul_left_comm, ← pow_add, Nat.add_sub_cancel' (by omega), mul_comm]

theorem significand_le : significand num den ≤ 2 ^ 24 :=
  roundHalfEven_le (quantumDen_pos hd) (units_lt_quantumDen hd).le

theorem le_significand (hk : quantumExp num den ≠ 0) : 2 ^ 23 ≤ significand num den :=
  le_roundHalfEven (quantumDen_pos hd) (quantumDen_le_units hd hk)

/-- The magnitude code reaches infinity's exactly from the midpoint above the largest finite number on. That midpoint is
`(2^25 - 1) * 2^252` units, so the quantum decides but for `2^253`, where the tie goes to the even `2^24`. -/
theorem code_overflows_iff :
    0x7F800000 ≤ quantumExp num den * 2 ^ 23 + significand num den ↔ (2 ^ 128 - 2 ^ 103) * den ≤ num := by
  have hmid : (2 ^ 128 - 2 ^ 103) * den ≤ num ↔ (2 ^ 25 - 1) * (den * 2 ^ 252) ≤ num * 2 ^ 149 := by omega
  have hlt := units_lt_quantumDen (num := num) hd
  have hge := quantumDen_le_units (num := num) hd
  have hsle := significand_le (num := num) hd
  have hsge := le_significand (num := num) hd
  obtain ⟨hnear, hnear', heven⟩ := roundHalfEven_near (num * 2 ^ 149) _ (quantumDen_pos (num := num) hd)
  rw [hmid]
  unfold significand at *
  generalize hD : quantumDen num den = D at *
  generalize roundHalfEven (num * 2 ^ 149) D = n at *
  unfold quantumDen at hD
  generalize quantumExp num den = k at *
  rcases lt_trichotomy k 253 with hk | rfl | hk
  · have : D ≤ den * 2 ^ 252 := by
      rw [← hD]
      exact Nat.mul_le_mul_left den (Nat.pow_le_pow_right (by decide) (by omega))
    constructor <;> intro _ <;> omega
  · have hQ : D = 2 * (den * 2 ^ 252) := by rw [← hD]; ring
    constructor
    · intro hcode
      obtain rfl : n = 2 ^ 24 := by omega
      omega
    · intro hmidle
      have hn : (2 ^ 25 - 1) * D ≤ (2 * n + 1) * D := by omega
      have := Nat.le_of_mul_le_mul_right hn (by omega)
      by_contra hcode
      obtain rfl : n = 2 ^ 24 - 1 := by omega
      omega
  · have : den * 2 ^ 254 ≤ D := by
      rw [← hD]
      exact Nat.mul_le_mul_left den (Nat.pow_le_pow_right (by decide) (by omega))
    constructor <;> intro _ <;> omega

/-- A result that is not infinite reads back as its significand in quanta. -/
theorem floatUnits_round32 {neg : Bool} (hfin : num < (2 ^ 128 - 2 ^ 103) * den) :
    floatUnits (round32 neg num den) = significand num den * 2 ^ quantumExp num den :=
  floatUnits_packFloat neg _ _ (significand_le hd) (or_iff_not_imp_left.mpr (le_significand hd))
    (not_le.mp fun h => hfin.not_ge ((code_overflows_iff hd).mp h))

/-- A result that is not infinite has the significand's parity. -/
theorem floatFrac_round32_mod_two {neg : Bool} (hfin : num < (2 ^ 128 - 2 ^ 103) * den) :
    floatFrac (round32 neg num den) % 2 = significand num den % 2 := by
  have hcode := mt (code_overflows_iff hd).mp hfin.not_ge
  rw [round32_eq_packFloat, floatFrac_packFloat]
  omega

/-- A quotient that is a whole number of quanta is not rounded. -/
theorem floatUnits_round32_exact {neg : Bool} {q : Nat} (hfin : num < (2 ^ 128 - 2 ^ 103) * den)
    (hq : num * 2 ^ 149 = q * quantumDen num den) :
    floatUnits (round32 neg num den) = q * 2 ^ quantumExp num den := by
  rw [floatUnits_round32 hd hfin, significand, hq, roundHalfEven_exact q _ (quantumDen_pos hd)]

theorem floatInf_round32_iff (neg : Bool) :
    floatInf (round32 neg num den) = true ↔ (2 ^ 128 - 2 ^ 103) * den ≤ num := by
  rw [round32_eq_packFloat, floatInf_packFloat, decide_eq_true_iff, code_overflows_iff hd]

theorem floatFinite_round32_iff (neg : Bool) :
    floatFinite (round32 neg num den) = true ↔ num < (2 ^ 128 - 2 ^ 103) * den := by
  rw [round32_eq_packFloat, floatFinite_packFloat, decide_eq_true_iff, ← not_le, code_overflows_iff hd, not_le]

/-- No finite number is nearer to `num / den` than `round32`, whose significand is even where another one is as near. On
the grid of the quantum this is `roundHalfEven`'s own property; a finite number off the grid is below the significand
`2^23`, which is on it and no farther from the quotient. -/
theorem round32_nearest (neg : Bool) (hfin : num < (2 ^ 128 - 2 ^ 103) * den) (y : F32) :
    ((num * 2 ^ 149 : Int) - floatUnits (round32 neg num den) * den).natAbs ≤
      ((num * 2 ^ 149 : Int) - floatUnits y * den).natAbs ∧
    (((num * 2 ^ 149 : Int) - floatUnits (round32 neg num den) * den).natAbs =
        ((num * 2 ^ 149 : Int) - floatUnits y * den).natAbs →
      floatUnits y ≠ floatUnits (round32 neg num den) → floatFrac (round32 neg num den) % 2 = 0) := by
  have hunits : ∀ m, m * 2 ^ quantumExp num den * den = m * quantumDen num den := fun m => by
    rw [quantumDen, mul_assoc, mul_comm den]
  rw [floatFrac_round32_mod_two hd hfin, floatUnits_round32 hd hfin]
  rw [show (num * 2 ^ 149 : Int) = (num * 2 ^ 149 : Nat) by norm_cast, ← Nat.cast_mul, ← Nat.cast_mul, hunits]
  rcases floatUnits_onGrid_or_below y (quantumExp num den) with ⟨m, hm⟩ | ⟨hk, hlt⟩
  · obtain ⟨hle, heven⟩ := roundHalfEven_nearest (num * 2 ^ 149) (quantumDen num den) m (quantumDen_pos hd)
    rw [hm, hunits]
    exact ⟨hle, fun heq hne => heven heq fun h => hne (by rw [h, significand])⟩
  · obtain ⟨hle, -⟩ := roundHalfEven_nearest (num * 2 ^ 149) (quantumDen num den) (2 ^ 23) (quantumDen_pos hd)
    have hbelow : floatUnits y * den < 2 ^ 23 * quantumDen num den := by
      rw [← hunits]
      exact Nat.mul_lt_mul_of_pos_right hlt hd
    have hfill := quantumDen_le_units hd hk
    unfold significand
    generalize roundHalfEven (num * 2 ^ 149) (quantumDen num den) * quantumDen num den = r at *
    exact ⟨by omega, fun heq _ => by omega⟩

end

end Sys2Proof.Machine
end

section
/-! The four statements on binary32 arithmetic (R13, R91): integers, the rounding step, sums and differences, products.
A sum and a product are `round32` of the exact number's magnitude, with its sign. -/

namespace Sys2Proof.Machine

open Sys2Proof.Claims

/-- Settles O47: the sign and the overflow are read off the packed code, and `round32_nearest` is the rest. -/
theorem roundingIsNearestEven : Obligations.RoundingIsNearestEven := by
  intro neg num den hd
  refine ⟨floatSign_round32 neg num den, floatInf_round32_iff hd neg, fun hinf => ?_⟩
  have hfin : num < (2 ^ 128 - 2 ^ 103) * den :=
    not_le.mp fun h => by simp [(floatInf_round32_iff hd neg).mpr h] at hinf
  exact ⟨(floatFinite_round32_iff hd neg).mpr hfin, fun y _ => round32_nearest hd neg hfin y⟩

/-- The quantum of an integer below 2^24 is at most 2^149 units, which is the number 1. -/
theorem quantumExp_le_of_lt {n : Nat} (hn : n < 2 ^ 24) : quantumExp n 1 ≤ 149 := by
  by_cases hk : quantumExp n 1 = 0
  · omega
  have hfill := quantumDen_le_units Nat.one_pos hk
  rw [quantumDen, one_mul] at hfill
  have : 2 ^ quantumExp n 1 < 2 ^ 150 := by omega
  exact Nat.le_of_lt_succ ((Nat.pow_lt_pow_iff_right (by decide)).mp this)

theorem floatUnits_f32 {n : Nat} (hn : n < 2 ^ 24) : floatUnits (f32 n) = n * 2 ^ 149 := by
  have hsplit : n * 2 ^ 149 = n * 2 ^ (149 - quantumExp n 1) * 2 ^ quantumExp n 1 := by
    rw [mul_assoc, ← pow_add, Nat.sub_add_cancel (quantumExp_le_of_lt hn)]
  have hquanta : n * 2 ^ 149 = n * 2 ^ (149 - quantumExp n 1) * quantumDen n 1 := by rwa [quantumDen, one_mul]
  rw [f32, floatUnits_round32_exact Nat.one_pos (by omega) hquanta, ← hsplit]

/-- Settles O46: the integer is a whole number of quanta, so it is not rounded. -/
theorem integersConvertExactly : Obligations.IntegersConvertExactly := by
  intro n hn
  have hsign : floatSign (f32 n) = false := floatSign_round32 false n 1
  refine ⟨(floatFinite_round32_iff Nat.one_pos false).mpr (by omega), ?_⟩
  simp [floatInt, hsign, floatUnits_f32 hn]

theorem natAbs_floatInt (x : F32) : (floatInt x).natAbs = floatUnits x := by
  unfold floatInt
  split <;> simp

/-- A number other than zero has the sign of its sign bit. -/
theorem floatSign_eq_of_ne_zero {x : F32} (h : floatInt x ≠ 0) : floatSign x = decide (floatInt x < 0) := by
  unfold floatInt at *
  cases hs : floatSign x
  · simp
  · simpa [hs, Nat.pos_iff_ne_zero] using h

theorem floatNaN_of_finite {x : F32} (h : floatFinite x = true) : floatNaN x = false := by
  simp only [floatFinite, decide_eq_true_eq] at h
  simp [floatNaN, h.ne]

theorem floatInf_of_finite {x : F32} (h : floatFinite x = true) : floatInf x = false := by
  simp only [floatFinite, decide_eq_true_eq] at h
  simp [floatInf, h.ne]

/-- Only to zero are a number and its negation equally near, so another number that is as near as `r` to `exact / scale`
has another magnitude. -/
theorem floatUnits_ne_of_equallyNear {exact : Int} {scale : Nat} {r z : F32} (hs : 0 < scale) (hne : exact ≠ 0)
    (heq : (exact - floatInt r * scale).natAbs = (exact - floatInt z * scale).natAbs) (hz : floatInt z ≠ floatInt r) :
    floatUnits z ≠ floatUnits r := by
  intro hu
  have hneg : floatInt z = -floatInt r := by
    refine (Int.natAbs_eq_natAbs_iff.mp ?_).resolve_left hz
    rw [natAbs_floatInt, natAbs_floatInt, hu]
  have hr : floatInt r * scale ≠ 0 := by
    refine mul_ne_zero (fun h => hz ?_) (by exact_mod_cast hs.ne')
    rw [hneg, h, neg_zero]
  rw [hneg, neg_mul] at heq
  omega

/-- The signed distance of a number of the sign of `exact` is the distance of the magnitudes. -/
theorem natAbs_sub_floatInt {exact : Int} {r : F32} (scale : Nat) (hr : floatSign r = decide (exact < 0)) :
    (exact - floatInt r * scale).natAbs = ((exact.natAbs : Int) - (floatUnits r * scale : Nat)).natAbs := by
  unfold floatInt
  rw [hr, Nat.cast_mul]
  by_cases h : exact < 0
  · simp only [h, decide_true, if_true, neg_mul]
    omega
  · simp only [h, decide_false, Bool.false_eq_true, if_false]
    omega

/-- The signed distance of any number is no less than that of the magnitudes. -/
theorem natAbs_natAbs_sub_le (exact : Int) (z : F32) (scale : Nat) :
    ((exact.natAbs : Int) - (floatUnits z * scale : Nat)).natAbs ≤ (exact - floatInt z * scale).natAbs := by
  have hz : (floatInt z * scale).natAbs = floatUnits z * scale := by
    rw [Int.natAbs_mul, natAbs_floatInt, Int.natAbs_natCast]
  omega

/-- The distance of the magnitudes, in the units of `round32_nearest`. -/
theorem natAbs_sub_units (e u scale : Nat) :
    ((e * 2 ^ 149 : Int) - u * (scale * 2 ^ 149 : Nat)).natAbs = ((e : Int) - (u * scale : Nat)).natAbs * 2 ^ 149 := by
  rw [Nat.cast_mul, ← mul_assoc, ← Nat.cast_mul]
  omega

/-- Either zero is the exact zero rounded to nearest. -/
theorem roundedNearestEven_zero (neg : Bool) {scale : Nat} (hs : 0 < scale) :
    RoundedNearestEven 0 scale (packFloat neg 0) := by
  have hzero : floatInt (packFloat neg 0) = 0 := by cases neg <;> rfl
  constructor
  · refine fun _ => ⟨by simp [floatFinite_packFloat], fun z _ => ⟨by simp [hzero], fun _ _ => ?_⟩⟩
    simp [floatFrac_packFloat]
  · intro hinf
    rw [Int.natAbs_zero] at hinf
    omega

/-- `round32` of the magnitude of a number, with its sign where it has one, is that number rounded to nearest. -/
theorem roundedNearestEven_round32 {exact : Int} {scale : Nat} {neg : Bool} (hs : 0 < scale)
    (hneg : exact ≠ 0 → neg = decide (exact < 0)) :
    RoundedNearestEven exact scale (round32 neg exact.natAbs (scale * 2 ^ 149)) := by
  have hd : 0 < scale * 2 ^ 149 := by omega
  rcases eq_or_ne exact 0 with rfl | hne
  · rw [Int.natAbs_zero, round32_zero]
    exact roundedNearestEven_zero neg hs
  have hsign := (floatSign_round32 neg exact.natAbs (scale * 2 ^ 149)).trans (hneg hne)
  refine ⟨fun hfin => ?_, fun hinf => ⟨(floatInf_round32_iff hd neg).mpr (by omega), hsign⟩⟩
  replace hfin : exact.natAbs < (2 ^ 128 - 2 ^ 103) * (scale * 2 ^ 149) := by omega
  refine ⟨(floatFinite_round32_iff hd neg).mpr hfin, fun z _ => ?_⟩
  obtain ⟨hle, heven⟩ := round32_nearest hd neg hfin z
  rw [natAbs_sub_units, natAbs_sub_units, ← natAbs_sub_floatInt scale hsign] at hle heven
  have hz := natAbs_natAbs_sub_le exact z scale
  exact ⟨by omega, fun heq hzr => heven (by omega) (floatUnits_ne_of_equallyNear hs hne heq hzr)⟩

/-- The sum of finite numbers is `round32` of the exact one, whatever NaN stands by. -/
theorem addNumbers_eq_round32 (nan : F32) {x y : F32} (hx : floatFinite x = true) (hy : floatFinite y = true) :
    addNumbers nan x y = round32 (if floatInt x + floatInt y = 0 then floatSign x && floatSign y
      else decide (floatInt x + floatInt y < 0)) (floatInt x + floatInt y).natAbs (1 * 2 ^ 149) := by
  simp only [addNumbers, floatInf_of_finite, hx, hy, Bool.false_eq_true, if_false]
  split
  · next hz => rw [hz, Int.natAbs_zero, round32_zero]
  · rw [one_mul]

theorem addNumbers_roundedNearestEven (nan : F32) {x y : F32} (hx : floatFinite x = true) (hy : floatFinite y = true) :
    RoundedNearestEven (floatInt x + floatInt y) 1 (addNumbers nan x y) ∧
    (floatInt x + floatInt y = 0 → floatSign (addNumbers nan x y) = (floatSign x && floatSign y)) := by
  rw [addNumbers_eq_round32 nan hx hy]
  exact ⟨roundedNearestEven_round32 Nat.one_pos fun h => if_neg h, fun h => by rw [floatSign_round32, if_pos h]⟩

theorem floatSign_floatNeg (y : F32) : floatSign (floatNeg y) = !floatSign y := by
  simp [floatSign, floatNeg]

theorem floatExp_floatNeg (y : F32) : floatExp (floatNeg y) = floatExp y := by
  simp [floatExp, floatNeg, BitVec.extractLsb'_xor]

theorem floatFrac_floatNeg (y : F32) : floatFrac (floatNeg y) = floatFrac y := by
  simp [floatFrac, floatNeg, BitVec.extractLsb'_xor]

theorem floatFinite_floatNeg (y : F32) : floatFinite (floatNeg y) = floatFinite y := by
  rw [floatFinite, floatExp_floatNeg, floatFinite]

theorem floatUnits_floatNeg (y : F32) : floatUnits (floatNeg y) = floatUnits y := by
  rw [floatUnits, floatExp_floatNeg, floatFrac_floatNeg, floatUnits]

theorem floatInt_floatNeg (y : F32) : floatInt (floatNeg y) = -floatInt y := by
  rw [floatInt, floatInt, floatSign_floatNeg, floatUnits_floatNeg]
  cases floatSign y <;> simp

/-- Settles O48: a difference is the sum with the second operand negated. -/
theorem sumsAreNearest : Obligations.SumsAreNearest := by
  intro x y hx hy
  have hadd := addNumbers_roundedNearestEven (quietNaN .add x y) hx hy
  have hsub := addNumbers_roundedNearestEven (quietNaN .sub x y) hx ((floatFinite_floatNeg y).trans hy)
  rw [floatInt_floatNeg, ← sub_eq_add_neg, floatSign_floatNeg] at hsub
  simp only [fadd, fsub, floatNaN_of_finite hx, floatNaN_of_finite hy, Bool.or_self, Bool.false_eq_true, if_false]
  exact ⟨hadd.1, hsub.1, hadd.2, hsub.2⟩

theorem fmul_eq_round32 {x y : F32} (hx : floatFinite x = true) (hy : floatFinite y = true) :
    fmul x y = round32 (floatSign x != floatSign y) (floatInt x * floatInt y).natAbs (2 ^ 149 * 2 ^ 149) := by
  simp only [fmul, floatNaN_of_finite, floatInf_of_finite, hx, hy, Bool.or_self, Bool.false_eq_true, if_false,
    Int.natAbs_mul, natAbs_floatInt]

/-- The sign of a product other than zero, by those of the factors. -/
theorem floatSign_bne_eq_of_mul_ne_zero {x y : F32} (h : floatInt x * floatInt y ≠ 0) :
    (floatSign x != floatSign y) = decide (floatInt x * floatInt y < 0) := by
  have hx := left_ne_zero_of_mul h
  have hy := right_ne_zero_of_mul h
  rw [floatSign_eq_of_ne_zero hx, floatSign_eq_of_ne_zero hy]
  rcases hx.lt_or_gt with hx | hx <;> rcases hy.lt_or_gt with hy | hy <;>
    simp [hx, hy, mul_neg_iff, hx.not_gt, hy.not_gt]

/-- Settles O49: the product of the magnitudes is rounded once, with the sign of the exact product. -/
theorem productsAreNearest : Obligations.ProductsAreNearest := by
  intro x y hx hy
  rw [fmul_eq_round32 hx hy]
  exact ⟨roundedNearestEven_round32 (Nat.two_pow_pos 149) floatSign_bne_eq_of_mul_ne_zero, floatSign_round32 _ _ _⟩

end Sys2Proof.Machine
end

section
/-! What an operation can do to the state, said once: every operation but `CONSTRUCT` is a chain of host calls (R67) and
of register writes by the writers R27 lists, whether it completes or breaks off (R15, R106, R111). Unlike `HostClosed`,
an effect keeps which operation runs, the mode it may set, and the level the sensor answers. -/

namespace Sys2Proof.Machine

/-! ## The writers of the registers (R27, R31) -/

/-- The operations that run an exchange of some command. -/
def RunsExchange (i : Instr) : Prop := (∃ c, i = .readraw c) ∨ i = .readC ∨ i = .readF ∨ i = .readRh

/-- The operations that run an exchange of one command. -/
def RunsExchangeOf (i : Instr) : Command → Prop
  | .measT => i = .readraw Config.codeMeasT ∨ i = .readC ∨ i = .readF ∨ i = .readRh
  | .measRH => i = .readraw Config.codeMeasRH ∨ i = .readRh

/-- The operations that clock an acknowledgment. -/
def RunsAck (i : Instr) : Prop := i = .ack ∨ (∃ c, i = .sendcmd c) ∨ RunsExchange i

/-- The operations that wait for a result. -/
def RunsWait (i : Instr) : Prop := i = .wait ∨ RunsExchange i

/-- The operations that read a raw code. -/
def RunsRead16 (i : Instr) : Prop := i = .read16 ∨ RunsExchange i

/-- The operations that shift in a byte. -/
def RunsShiftIn (i : Instr) : Prop := i = .shiftin8 ∨ RunsRead16 i

theorem runsExchange_of {i : Instr} : ∀ {c : Command}, RunsExchangeOf i c → RunsExchange i
  | .measT, hi => hi.imp_left fun hr => ⟨_, hr⟩
  | .measRH, hi => hi.imp (fun hr => ⟨_, hr⟩) fun hr => .inr (.inr hr)

theorem runsExchangeOf_readraw (c : Command) : RunsExchangeOf (.readraw c.code) c := by
  cases c <;> exact .inl rfl

/-- One register write of an operation: the new registers, and that the operation is one of their writers. -/
inductive RegWrite (i : Instr) (r : Regs) : Regs → Prop
  | smp (l : Level) (hi : ∃ p, i = .read p) : RegWrite i r { r with smp := some l }
  | ms (t : Millis) (hi : i = .millis) : RegWrite i r { r with ms := some t }
  | ack (a0 a1 : Level) (hi : RunsAck i) :
      RegWrite i r { r with a0 := some a0, a1 := some a1, txst := some (ackStatus a0 a1) }
  | wst (w : WaitStatus) (hi : RunsWait i) : RegWrite i r { r with wst := some w }
  | byte (b : Byte) (hi : RunsShiftIn i) : RegWrite i r { r with byte := some b }
  | d16 (d : Raw) (hi : RunsRead16 i) : RegWrite i r { r with d16 := some d }
  | pairT (st : Status) (raw : Option Raw) (hraw : raw.isSome = true ↔ st = .ok) (hi : RunsExchangeOf i .measT) :
      RegWrite i r { r with rstT := some st, rawT := raw }
  | pairH (st : Status) (raw : Option Raw) (hraw : raw.isSome = true ↔ st = .ok) (hi : RunsExchangeOf i .measRH) :
      RegWrite i r { r with rstH := some st, rawH := raw }
  | celsius (v : Reading) (hi : i = .convC ∨ i = .readC ∨ i = .readRh) :
      RegWrite i r { r with out := some v, tc := some v }
  | out (v : Reading) (hi : i = .convF ∨ i = .convRh ∨ i = .readF ∨ i = .readRh) :
      RegWrite i r { r with out := some v }

/-! ## Effects and their chains -/

/-- One effect of an operation under a handle: a host call with its event, or a register write. -/
inductive Effect (i : Instr) (h : Handle) (s : State) : State → Prop
  | mode (p : Pin) (m : PinMode) (hm : p = .data ∨ m = .out ∨ i = .setmode p m) :
      Effect i h s { s with trace := s.trace ++ [.setMode (hostPin h p) m], pins := putMode s.pins p m }
  | latch (p : Pin) (l : Level) (hm : pinMode s.pins p = some .out) :
      Effect i h s { s with trace := s.trace ++ [.write (hostPin h p) l], pins := putLatch s.pins p l }
  | read (p : Pin) :
      Effect i h s { s with
        trace := s.trace ++ [.read (hostPin h p) (drawLevel s.env).1], env := (drawLevel s.env).2 }
  | count (t : Millis) : Effect i h s { s with trace := s.trace ++ [.millis t], env := (drawCount s.env).2 }
  | delayUs (n : Nat) : Effect i h s { s with trace := s.trace ++ [.delayUs n] }
  | delayMs (n : Nat) : Effect i h s { s with trace := s.trace ++ [.delayMs n] }
  | regs (r : Regs) (hw : RegWrite i s.regs r) : Effect i h s { s with regs := r }

/-- A chain of effects. -/
abbrev Reaches (i : Instr) (h : Handle) : State → State → Prop := Relation.ReflTransGen (Effect i h)

/-- A property that every effect keeps is kept by a chain of them. -/
theorem Reaches.keeps {i : Instr} {h : Handle} {P : State → Prop} (hP : ∀ s t, Effect i h s t → P s → P t)
    {s t : State} (hst : Reaches i h s t) (hs : P s) : P t := by
  induction hst with
  | refl => exact hs
  | tail _ he ih => exact hP _ _ he ih

/-- How an operation with a handle may break off: an unwritten operand, an undriven pin, or the refusal where a
coefficient of its classes is unsupplied (R108, R109). -/
def StopsUnder (h : Handle) (s : State) : Stop → Prop
  | .fault f => f = .unwritten ∨ f = .pinNotOutput
  | .refuse => s.coeff.supplied h.v h.t h.h = false

/-- An operation in progress is a chain of effects of `i` under the handle `h`, and breaks off only as one may. -/
structure Runs {α : Type} (i : Instr) (h : Handle) (x : Op α) : Prop where
  ends : ∀ s, match x s with
    | .ok _ t => Reaches i h s t
    | .error e t => Reaches i h s t ∧ StopsUnder h t e

variable {i : Instr} {h : Handle}

theorem runs_pure {α : Type} (a : α) : Runs i h (pure a) := ⟨fun _ => .refl⟩

theorem runs_bind {α β : Type} {x : Op α} {f : α → Op β} (hx : Runs i h x) (hf : ∀ a, Runs i h (f a)) :
    Runs i h (x >>= f) := by
  refine ⟨fun s => ?_⟩
  rw [op_bind]
  have hxs := hx.ends s
  cases hres : x s with
  | error e t => rw [hres] at hxs; exact hxs
  | ok a t =>
    rw [hres] at hxs
    have hft := (hf a).ends t
    simp only
    cases hfres : f a t with
    | ok b u => rw [hfres] at hft; exact hxs.trans hft
    | error e u => rw [hfres] at hft; exact hft.imp_left hxs.trans

/-- An operation run for its effects, its result dropped. -/
theorem runs_discard {α : Type} {x : Op α} (hx : Runs i h x) : Runs i h (do let _ ← x) :=
  runs_bind hx fun _ => runs_pure _

/-! ## Host calls -/

theorem runs_setMode {p : Pin} {m : PinMode} (hm : p = .data ∨ m = .out ∨ i = .setmode p m) :
    Runs i h (setMode h p m) :=
  ⟨fun s => Relation.ReflTransGen.single (Effect.mode (s := s) p m hm)⟩

theorem runs_setData (m : PinMode) : Runs i h (setMode h .data m) := runs_setMode (.inl rfl)

theorem runs_setOut (p : Pin) : Runs i h (setMode h p .out) := runs_setMode (.inr (.inl rfl))

theorem runs_writePin (p : Pin) (l : Level) : Runs i h (writePin h p l) := by
  refine ⟨fun s => ?_⟩
  by_cases hm : pinMode s.pins p = some .out
  · rw [writePin_out h p l s hm]; exact .single (.latch p l hm)
  · rw [writePin_notOut h p l s hm]; exact ⟨.refl, .inr rfl⟩

theorem runs_readPin (p : Pin) : Runs i h (readPin h p) := ⟨fun _ => .single (.read p)⟩

theorem runs_millisBounded (b : Millis → Millis) : Runs i h (millisBounded b) := ⟨fun _ => .single (.count _)⟩

theorem runs_delayUs (n : Nat) : Runs i h (delayUs n) := ⟨fun _ => .single (.delayUs n)⟩

theorem runs_delayMs (n : Nat) : Runs i h (delayMs n) := ⟨fun _ => .single (.delayMs n)⟩

theorem runs_writeRegs {f : Regs → Regs} (hf : ∀ r, RegWrite i r (f r)) : Runs i h (writeRegs f) :=
  ⟨fun _ => .single (.regs _ (hf _))⟩

theorem runs_edge (p : Pin) (l : Level) : Runs i h (edge h p l) :=
  runs_bind (runs_writePin p l) fun _ => runs_delayUs _

/-! ## The sub-operations of the protocol engine -/

theorem runs_startSeq : Runs i h (startSeq h) :=
  runs_bind (runs_setOut _) fun _ => runs_bind (runs_setOut _) fun _ =>
    runs_bind (runs_edge _ _) fun _ => runs_bind (runs_edge _ _) fun _ => runs_bind (runs_edge _ _) fun _ =>
      runs_bind (runs_edge _ _) fun _ => runs_bind (runs_edge _ _) fun _ => runs_bind (runs_edge _ _) fun _ =>
        runs_edge _ _

theorem runs_shiftOutBits (ls : List Level) : Runs i h (shiftOutBits h ls) := by
  induction ls with
  | nil => exact runs_pure _
  | cons b rest ih =>
    exact runs_bind (runs_edge _ _) fun _ => runs_bind (runs_edge _ _) fun _ => runs_bind (runs_edge _ _) fun _ => ih

theorem runs_shiftOut8 (b : Byte) : Runs i h (shiftOut8 h b) := runs_shiftOutBits _

theorem runs_ackClock (hi : RunsAck i) : Runs i h (ackClock h) :=
  runs_bind (runs_setData _) fun _ => runs_bind (runs_edge _ _) fun _ => runs_bind (runs_readPin _) fun a0 =>
    runs_bind (runs_edge _ _) fun _ => runs_bind (runs_readPin _) fun a1 =>
      runs_bind (runs_writeRegs fun _ => .ack a0 a1 hi) fun _ => runs_pure _

theorem runs_sendCommand (hi : RunsAck i) (c : Command) : Runs i h (sendCommand h c) :=
  runs_bind runs_startSeq fun _ => runs_bind (runs_shiftOut8 _) fun _ => runs_ackClock hi

theorem runs_waitPolls (t0 : Millis) (n : Nat) (last : Millis) : Runs i h (waitPolls h t0 n last) := by
  induction n generalizing last with
  | zero => exact runs_pure _
  | succ n ih =>
    refine runs_bind (runs_delayMs _) fun _ => runs_bind (runs_readPin _) fun v => ?_
    split
    · exact runs_pure _
    · refine runs_bind (runs_millisBounded _) fun t => ?_
      split
      · exact runs_pure _
      · exact ih t

theorem runs_waitReady (hi : RunsWait i) : Runs i h (waitReady h) :=
  runs_bind (runs_setData _) fun _ => runs_bind (runs_millisBounded _) fun _ =>
    runs_bind (runs_waitPolls _ _ _) fun w => runs_bind (runs_writeRegs fun _ => .wst w hi) fun _ => runs_pure _

theorem runs_shiftInBits (n : Nat) (acc : Byte) : Runs i h (shiftInBits h n acc) := by
  induction n generalizing acc with
  | zero => exact runs_pure _
  | succ n ih =>
    exact runs_bind (runs_edge _ _) fun _ => runs_bind (runs_readPin _) fun _ =>
      runs_bind (runs_edge _ _) fun _ => ih _

theorem runs_shiftIn8 (hi : RunsShiftIn i) : Runs i h (shiftIn8 h) :=
  runs_bind (runs_shiftInBits _ _) fun acc => runs_bind (runs_writeRegs fun _ => .byte acc hi) fun _ => runs_pure _

theorem runs_midAck : Runs i h (midAck h) :=
  runs_bind (runs_setOut _) fun _ => runs_bind (runs_edge _ _) fun _ => runs_bind (runs_edge _ _) fun _ =>
    runs_edge _ _

theorem runs_crcSkip : Runs i h (crcSkip h) :=
  runs_bind (runs_setOut _) fun _ => runs_bind (runs_edge _ _) fun _ => runs_bind (runs_edge _ _) fun _ =>
    runs_edge _ _

theorem runs_shiftIn16 (hi : RunsRead16 i) : Runs i h (shiftIn16 h) :=
  runs_bind (runs_setData _) fun _ => runs_bind (runs_shiftIn8 (.inr hi)) fun _ =>
    runs_bind runs_midAck fun _ => runs_bind (runs_setData _) fun _ =>
      runs_bind (runs_shiftIn8 (.inr hi)) fun _ => runs_bind (runs_writeRegs fun _ => .d16 _ hi) fun _ => runs_pure _

theorem runs_recordExchange {c : Command} {st : Status} {raw : Option Raw} (hraw : raw.isSome = true ↔ st = .ok)
    (hi : RunsExchangeOf i c) : Runs i h (recordExchange c st raw) := by
  cases c with
  | measT => exact runs_bind (runs_writeRegs fun _ => .pairT st raw hraw hi) fun _ => runs_pure _
  | measRH => exact runs_bind (runs_writeRegs fun _ => .pairH st raw hraw hi) fun _ => runs_pure _

theorem statusOfTx_ne_ok {tx : TxStatus} (ht : tx ≠ .ok) : statusOfTx tx ≠ .ok := by
  cases tx <;> simp [statusOfTx] at ht ⊢

theorem runs_readRaw {c : Command} (hi : RunsExchangeOf i c) : Runs i h (readRaw h c) := by
  have hany := runsExchange_of hi
  refine runs_bind (runs_sendCommand (.inr (.inr hany)) c) fun tx => ?_
  split
  · next ht => exact runs_recordExchange (by simp [statusOfTx_ne_ok ht]) hi
  · refine runs_bind (runs_waitReady (.inr hany)) fun w => ?_
    split
    · exact runs_recordExchange (by simp) hi
    · exact runs_bind (runs_shiftIn16 (.inr hany)) fun d => runs_bind runs_crcSkip fun _ =>
        runs_recordExchange (by simp) hi

/-! ## The conversions -/

theorem runs_convCelsius (hi : i = .convC ∨ i = .readC ∨ i = .readRh) : Runs i h (convCelsius h) := by
  refine ⟨fun s => ?_⟩
  rcases convCelsius_cases h s with ⟨he, -⟩ | ⟨he, -, hk⟩ | ⟨v, he, -⟩ <;> rw [he]
  · exact ⟨.refl, .inl rfl⟩
  · exact ⟨.refl, supplied_of_none _ _ _ _ (by tauto)⟩
  · exact .single (.regs _ (.celsius v hi))

theorem runs_convFahrenheit (hi : i = .convF ∨ i = .readF) : Runs i h (convFahrenheit h) := by
  refine ⟨fun s => ?_⟩
  rcases convFahrenheit_cases h s with ⟨he, -⟩ | ⟨he, -, hk⟩ | ⟨v, he, -⟩ <;> rw [he]
  · exact ⟨.refl, .inl rfl⟩
  · exact ⟨.refl, supplied_of_none _ _ _ _ (by tauto)⟩
  · exact .single (.regs _ (.out v (by tauto)))

theorem runs_convHumidity (hi : i = .convRh ∨ i = .readRh) : Runs i h (convHumidity h) := by
  refine ⟨fun s => ?_⟩
  rcases convHumidity_cases h s with ⟨he, -⟩ | ⟨he, -, hk⟩ | ⟨v, he, -⟩ <;> rw [he]
  · exact ⟨.refl, .inl rfl⟩
  · exact ⟨.refl, supplied_of_none _ _ _ _ (by tauto)⟩
  · exact .single (.regs _ (.out v (by tauto)))

theorem runs_readHumidity : Runs .readRh h (readHumidity h) := by
  refine runs_bind (runs_readRaw (.inr rfl)) fun st => ?_
  split
  · exact runs_writeRegs fun _ => .out _ (.inr (.inr (.inr rfl)))
  · exact runs_bind (runs_readRaw (.inr (.inr (.inr rfl)))) fun _ =>
      runs_bind (runs_convCelsius (.inr (.inr rfl))) fun _ => runs_convHumidity (.inr rfl)

/-! ## Whole operations -/

/-- The ends of an operation (R98, R106, R110): a check or `CONSTRUCT` decides in the state as it stands, or the
operation runs under the handle and then completes, faults or is refused. -/
inductive ExecEnd (i : Instr) (s : State) : State → Prop
  | badOperand : ExecEnd i s (takeFault .badOperand s)
  | noHandle (hh : s.handle = none) : ExecEnd i s (takeFault .noHandle s)
  | reconstruct (hh : s.handle ≠ none) : ExecEnd i s (takeFault .reconstruct s)
  | constructed (h : Handle) (hi : i = .construct h.dpin h.cpin h.v h.t h.h) (hh : s.handle = none) :
      ExecEnd i s (advance { s with handle := some h })
  | completed (h : Handle) (t : State) (hh : s.handle = some h) (hr : Reaches i h s t) : ExecEnd i s (advance t)
  | faulted (h : Handle) (t : State) (f : ModelFault) (hh : s.handle = some h) (hr : Reaches i h s t)
      (hf : f = .unwritten ∨ f = .pinNotOutput) : ExecEnd i s (takeFault f t)
  | refused (h : Handle) (t : State) (hh : s.handle = some h) (hr : Reaches i h s t)
      (hk : t.coeff.supplied h.v h.t h.h = false) : ExecEnd i s (takeRefusal t)

theorem execEnd_withHandle {body : Handle → Op Unit} (hb : ∀ h, Runs i h (body h)) {s u : State}
    (hu : finish (withHandle body) s = .next u) : ExecEnd i s u := by
  cases hh : s.handle with
  | none =>
    rw [finish_fault (withHandle_none body s hh)] at hu
    cases hu
    exact .noHandle hh
  | some h =>
    have hends := (hb h).ends s
    rcases finish_cases hu with ⟨t, ht, rfl⟩ | ⟨f, t, ht, rfl⟩ | ⟨t, ht, rfl⟩ <;>
      rw [withHandle_some body s h hh] at ht <;> rw [ht] at hends
    · exact .completed h t hh hends
    · exact .faulted h t f hh hends.1 hends.2
    · exact .refused h t hh hends.1 hends.2

theorem execEnd_withCommand {b : Byte} {body : Command → Handle → Op Unit}
    (hb : ∀ c, b = c.code → ∀ h, Runs i h (body c h)) {s u : State}
    (hu : finish (do let c ← requireCommand b; withHandle (body c)) s = .next u) : ExecEnd i s u := by
  cases hc : Command.ofCode? b with
  | none =>
    rw [finish_fault (op_bind_error (requireCommand_none b s hc))] at hu
    cases hu
    exact .badOperand
  | some c =>
    have hbc := (ofCode_eq_some b c).mp hc
    rw [finish, op_bind_ok (hbc ▸ requireCommand_code c s)] at hu
    exact execEnd_withHandle (hb c hbc) hu

theorem execEnd_construct (h : Handle) {s u : State} (hu : finish (constructHandle h) s = .next u) :
    ExecEnd (.construct h.dpin h.cpin h.v h.t h.h) s u := by
  cases hh : s.handle with
  | none =>
    simp only [finish, constructHandle, hh] at hu
    cases hu
    exact .constructed h rfl hh
  | some k =>
    simp only [finish, constructHandle, hh] at hu
    cases hu
    exact .reconstruct (by simp [hh])

/-- Every operation ends in one of the ways of `ExecEnd`. -/
theorem execEnd_of_exec {s u : State} (hu : exec i s = .next u) : ExecEnd i s u := by
  rw [exec_eq_finish] at hu
  cases i with
  | setmode p m => exact execEnd_withHandle (fun _ => runs_setMode (.inr (.inr rfl))) hu
  | write p l => exact execEnd_withHandle (fun _ => runs_writePin p l) hu
  | read p =>
    exact execEnd_withHandle
      (fun _ => runs_bind (runs_readPin p) fun l => runs_writeRegs fun _ => .smp l ⟨p, rfl⟩) hu
  | dlyUs n => exact execEnd_withHandle (fun _ => runs_delayUs _) hu
  | dlyMs n => exact execEnd_withHandle (fun _ => runs_delayMs _) hu
  | millis =>
    exact execEnd_withHandle (fun _ => runs_bind (runs_millisBounded _) fun t => runs_writeRegs fun _ => .ms t rfl) hu
  | start => exact execEnd_withHandle (fun _ => runs_startSeq) hu
  | shiftout8 b => exact execEnd_withHandle (fun _ => runs_shiftOut8 b) hu
  | ack => exact execEnd_withHandle (fun _ => runs_discard (runs_ackClock (.inl rfl))) hu
  | sendcmd b =>
    exact execEnd_withCommand (fun c _ _ => runs_discard (runs_sendCommand (.inr (.inl ⟨b, rfl⟩)) c)) hu
  | wait => exact execEnd_withHandle (fun _ => runs_discard (runs_waitReady (.inl rfl))) hu
  | shiftin8 => exact execEnd_withHandle (fun _ => runs_discard (runs_shiftIn8 (.inl rfl))) hu
  | midack => exact execEnd_withHandle (fun _ => runs_midAck) hu
  | read16 => exact execEnd_withHandle (fun _ => runs_discard (runs_shiftIn16 (.inl rfl))) hu
  | crcskip => exact execEnd_withHandle (fun _ => runs_crcSkip) hu
  | readraw b =>
    exact execEnd_withCommand
      (fun c hc _ => runs_discard (runs_readRaw (hc ▸ runsExchangeOf_readraw c))) hu
  | convC => exact execEnd_withHandle (fun _ => runs_convCelsius (.inl rfl)) hu
  | convF => exact execEnd_withHandle (fun _ => runs_convFahrenheit (.inl rfl)) hu
  | convRh => exact execEnd_withHandle (fun _ => runs_convHumidity (.inl rfl)) hu
  | construct d k v t h => exact execEnd_construct ⟨d, k, v, t, h⟩ hu
  | readC =>
    exact execEnd_withHandle (fun _ => runs_bind (runs_readRaw (c := .measT) (.inr (.inl rfl))) fun _ =>
      runs_convCelsius (.inr (.inl rfl))) hu
  | readF =>
    exact execEnd_withHandle (fun _ => runs_bind (runs_readRaw (c := .measT) (.inr (.inr (.inl rfl)))) fun _ =>
      runs_convFahrenheit (.inr rfl)) hu
  | readRh => exact execEnd_withHandle (fun _ => runs_readHumidity) hu

end Sys2Proof.Machine
end

section
/-! The invariant (R29, R32, R34, R109): each effect keeps it, and so does each end of an operation. -/

namespace Sys2Proof.Machine

variable {i : Instr} {h : Handle} {s t u : State}

/-- What no effect touches: the stop records, the handle, `pc`, and the arguments of the run. -/
structure SameControl (s t : State) : Prop where
  pc : t.pc = s.pc
  fault : t.fault = s.fault
  refused : t.refused = s.refused
  handle : t.handle = s.handle
  program : t.program = s.program
  coeff : t.coeff = s.coeff

theorem Reaches.sameControl (hst : Reaches i h s t) : SameControl s t := by
  refine hst.keeps (P := SameControl s) (fun a b he ha => ?_) ⟨rfl, rfl, rfl, rfl, rfl, rfl⟩
  obtain ⟨hpc, hfault, hrefused, hhandle, hprogram, hcoeff⟩ := ha
  cases he <;> exact ⟨hpc, hfault, hrefused, hhandle, hprogram, hcoeff⟩

/-- A register write keeps the invariant: the pairs and the acknowledgment are written whole, and `TC` with `OUT`. -/
theorem inv_regWrite {r : Regs} (hw : RegWrite i s.regs r) (hh : s.handle = some h) (hs : Inv s) :
    Inv { s with regs := r } := by
  have hno : s.handle = none → r = Regs.unwritten ∧ s.pins = Pins.unknown ∧ s.trace = [] := by simp [hh]
  cases hw with
  | smp | ms | wst | byte | d16 => exact { hs with noHandle := hno }
  | ack a0 a1 => exact { hs with noHandle := hno, ack := .inr ⟨a0, a1, rfl, rfl, rfl⟩ }
  | pairT st raw hraw => exact { hs with noHandle := hno, rawT := hraw.trans (Option.some_inj).symm }
  | pairH st raw hraw => exact { hs with noHandle := hno, rawH := hraw.trans (Option.some_inj).symm }
  | celsius | out => exact { hs with noHandle := hno, result := fun _ => rfl }

theorem inv_effect (he : Effect i h s t) (hs : Inv s ∧ s.handle = some h) : Inv t ∧ t.handle = some h := by
  obtain ⟨hs, hh⟩ := hs
  cases he with
  | mode p m =>
    refine ⟨{ hs with noHandle := by simp [hh], latch := fun q hq => ?_ }, hh⟩
    rw [pinLatch_putMode] at hq
    rw [pinMode_putMode]
    split
    · rfl
    · exact hs.latch q hq
  | latch p l hm =>
    refine ⟨{ hs with noHandle := by simp [hh], latch := fun q hq => ?_ }, hh⟩
    rw [pinLatch_putLatch] at hq
    rw [pinMode_putLatch]
    split at hq
    · next hpq => simp [← hpq, hm]
    · exact hs.latch q hq
  | read | count | delayUs | delayMs => exact ⟨{ hs with noHandle := by simp [hh] }, hh⟩
  | regs r hw => exact ⟨inv_regWrite hw hh hs, hh⟩

theorem inv_of_reaches (hst : Reaches i h s t) (hh : s.handle = some h) (hs : Inv s) : Inv t :=
  (hst.keeps (fun _ _ => inv_effect) ⟨hs, hh⟩).1

theorem inv_advance (hs : Inv s) (hpc : s.pc < s.program.length) : Inv (advance s) := { hs with pc := hpc }

/-- Recording a model fault, the handle faults on their side of `CONSTRUCT`. -/
theorem inv_takeFault {f : ModelFault} (hs : Inv s) (hr : s.refused = false) (hno : f = .noHandle → s.handle = none)
    (hre : f = .reconstruct → s.handle ≠ none) : Inv (takeFault f s) :=
  { hs with
    handleFaults := ⟨fun hf => hno (Option.some_inj.mp hf), fun hf => hre (Option.some_inj.mp hf)⟩
    oneStop := .inr hr }

theorem inv_takeRefusal (hs : Inv s) (hf : s.fault = none) (hh : s.handle = some h)
    (hk : s.coeff.supplied h.v h.t h.h = false) : Inv (takeRefusal s) :=
  { hs with oneStop := .inl hf, refusal := fun _ => ⟨h, hh, hk⟩ }

/-- Giving the configuration: the clauses about a machine without a handle become empty. -/
theorem inv_construct (hs : Inv s) (hf : s.fault = none) (hr : s.refused = false) :
    Inv { s with handle := some h } :=
  { hs with
    noHandle := fun hn => nomatch hn
    handleFaults := by simp [hf]
    refusal := by simp [hr] }

theorem inv_execEnd (hu : ExecEnd i s u) (hs : Inv s) (hf : s.fault = none) (hr : s.refused = false)
    (hpc : s.pc < s.program.length) : Inv u := by
  cases hu with
  | badOperand => exact inv_takeFault hs hr nofun nofun
  | noHandle hh => exact inv_takeFault hs hr (fun _ => hh) nofun
  | reconstruct hh => exact inv_takeFault hs hr nofun fun _ => hh
  | constructed h => exact inv_advance (inv_construct hs hf hr) hpc
  | completed h t hh hst =>
    have hc := hst.sameControl
    exact inv_advance (inv_of_reaches hst hh hs) (by rwa [hc.pc, hc.program])
  | faulted h t f hh hst hstop =>
    exact inv_takeFault (inv_of_reaches hst hh hs) (hst.sameControl.refused.trans hr)
      (by rintro rfl; simp at hstop) (by rintro rfl; simp at hstop)
  | refused h t hh hst hk =>
    have hc := hst.sameControl
    exact inv_takeRefusal (inv_of_reaches hst hh hs) (hc.fault.trans hf) (hc.handle.trans hh) hk

/-- A step happens only in a machine that is not stopped and has a word at `pc`; a rejected word takes its fault there,
and any other word runs its operation (R32, R34, R110). -/
theorem step_cases (ht : step s = .next t) :
    s.fault = none ∧ s.refused = false ∧ ∃ w, fetch s = some w ∧
      ((∃ d, decode w = .error d ∧ t = takeFault (faultOfDecode d) s) ∨
        ∃ i, decode w = .ok i ∧ exec i s = .next t) := by
  cases hf : s.fault with
  | some f => simp [step, hf] at ht
  | none => cases hr : s.refused with
    | true => simp [step, hf, hr] at ht
    | false => cases hw : fetch s with
      | none => simp [step, hf, hr, hw] at ht
      | some w =>
        rw [step_fetch s w hf hr hw] at ht
        refine ⟨rfl, rfl, w, rfl, ?_⟩
        cases hd : decode w with
        | error d =>
          rw [hd] at ht
          cases ht
          exact .inl ⟨d, rfl, rfl⟩
        | ok i => exact .inr ⟨i, rfl, by rwa [hd] at ht⟩

theorem pc_lt_of_fetch {w : Word} (hw : fetch s = some w) : s.pc < s.program.length :=
  (List.getElem?_eq_some_iff.mp hw).1

/-- Settles O8: a decode fault is no handle fault, and each end of an operation keeps the invariant. -/
theorem stepKeepsInvariant : Obligations.StepKeepsInvariant := by
  intro s t hs ht
  obtain ⟨hf, hr, w, hw, ⟨d, -, rfl⟩ | ⟨i, -, hi⟩⟩ := step_cases ht
  · exact inv_takeFault hs hr (by cases d <;> nofun) (by cases d <;> nofun)
  · exact inv_execEnd (execEnd_of_exec hi) hs hf hr (pc_lt_of_fetch hw)

/-- Settles O7: each clause speaks of an empty register, pin or program, or of the default coefficients. -/
theorem resetMeetsInvariant : Obligations.ResetMeetsInvariant where
  rawT := by decide
  rawH := by decide
  ack := .inl ⟨rfl, rfl, rfl⟩
  result := nofun
  latch p := by cases p <;> nofun
  noHandle _ := ⟨rfl, rfl, rfl⟩
  handleFaults := ⟨nofun, nofun⟩
  oneStop := .inl rfl
  refusal := nofun
  source := by decide
  pc := Nat.le_refl 0

/-- Settles O6: the fields of the reset state, read off its definition. -/
theorem resetState : Obligations.ResetState := ⟨rfl, rfl, rfl, rfl, rfl, rfl, rfl⟩

/-- Settles O9, by the law of a step that has a word. -/
theorem stepRunsTheDecodedOperation : Obligations.StepRunsTheDecodedOperation := by
  intro s w i hf hr hw hd
  rw [step_fetch s w hf hr hw, hd]

/-- Settles O12: a step that answers a next state starts where none of the three stops holds. -/
theorem stoppedMachineNeverMoves : Obligations.StoppedMachineNeverMoves := by
  intro s t hstop ht
  obtain ⟨hf, hr, w, hw, -⟩ := step_cases ht
  rcases hstop with hstop | hstop | hstop
  · exact hstop hf
  · simp [hr] at hstop
  · exact hstop.not_gt (pc_lt_of_fetch hw)

end Sys2Proof.Machine
end

section
/-! What every operation leaves of the handle, the trace, the registers, the sensor's stream and SCK's mode: the ends
that run no effect are read off, and an end that does is a chain of effects (R20, R24, R27, R37, R38). -/

namespace Sys2Proof.Machine

variable {i : Instr} {s t u : State}

/-- The rule for the frames below: a relation of the pins, the registers, the trace and the draws that holds before an
operation and that every effect keeps holds after the operation, however it ends. -/
theorem exec_keeps {P : Pins → Regs → List Event → Env → Prop}
    (he : ∀ h a b, Effect i h a b → P a.pins a.regs a.trace a.env → P b.pins b.regs b.trace b.env)
    (hu : exec i s = .next u) (hs : P s.pins s.regs s.trace s.env) : P u.pins u.regs u.trace u.env := by
  cases execEnd_of_exec hu with
  | badOperand | noHandle | reconstruct | constructed => exact hs
  | completed h t _ hst | faulted h t _ _ hst | refused h t _ hst =>
    exact hst.keeps (P := fun a => P a.pins a.regs a.trace a.env) (he h) hs

/-- Settles O13: no effect touches the handle, so only the end of a `CONSTRUCT` can. -/
theorem onlyConstructWritesTheHandle : Obligations.OnlyConstructWritesTheHandle := by
  intro i s t ht hne
  cases execEnd_of_exec ht with
  | badOperand | noHandle | reconstruct => exact absurd rfl hne
  | constructed h hi hh => exact ⟨_, _, _, _, _, hi, hh, rfl⟩
  | completed h t _ hst | faulted h t _ _ hst | refused h t _ hst => exact absurd hst.sameControl.handle hne

/-- Settles O15: an effect appends one event or none. -/
theorem traceOnlyGrows : Obligations.TraceOnlyGrows := by
  intro i s t ht
  refine exec_keeps (P := fun _ _ trace _ => ∃ events, trace = s.trace ++ events) ?_ ht ⟨[], by simp⟩
  rintro h a b he ⟨events, ha⟩
  cases he with
  | regs => exact ⟨events, ha⟩
  | mode | latch | read | count | delayUs | delayMs =>
    exact ⟨events ++ [_], by rw [← List.append_assoc, ← ha]⟩

/-! ## The registers and their writers -/

/-- Every register that differs has `i` among its writers (R27, R31). -/
structure WrittenByWriters (i : Instr) (r r' : Regs) : Prop where
  smp : r'.smp ≠ r.smp → ∃ p, i = .read p
  ms : r'.ms ≠ r.ms → i = .millis
  ack : r'.a0 ≠ r.a0 ∨ r'.a1 ≠ r.a1 ∨ r'.txst ≠ r.txst → RunsAck i
  wst : r'.wst ≠ r.wst → RunsWait i
  byte : r'.byte ≠ r.byte → RunsShiftIn i
  d16 : r'.d16 ≠ r.d16 → RunsRead16 i
  pairT : r'.rawT ≠ r.rawT ∨ r'.rstT ≠ r.rstT → RunsExchangeOf i .measT
  pairH : r'.rawH ≠ r.rawH ∨ r'.rstH ≠ r.rstH → RunsExchangeOf i .measRH
  tc : r'.tc ≠ r.tc → i = .convC ∨ i = .readC ∨ i = .readRh
  out : r'.out ≠ r.out → i = .convC ∨ i = .convF ∨ i = .convRh ∨ i = .readC ∨ i = .readF ∨ i = .readRh

/-- A register write whose registers are written by their writers so far: those it leaves are as they were, and of those
it changes the operation is a writer. -/
theorem WrittenByWriters.regWrite {r r' r'' : Regs} (hr : WrittenByWriters i r r') (hw : RegWrite i r' r'') :
    WrittenByWriters i r r'' := by
  cases hw with
  | smp _ hi => exact { hr with smp := fun _ => hi }
  | ms _ hi => exact { hr with ms := fun _ => hi }
  | ack _ _ hi => exact { hr with ack := fun _ => hi }
  | wst _ hi => exact { hr with wst := fun _ => hi }
  | byte _ hi => exact { hr with byte := fun _ => hi }
  | d16 _ hi => exact { hr with d16 := fun _ => hi }
  | pairT _ _ _ hi => exact { hr with pairT := fun _ => hi }
  | pairH _ _ _ hi => exact { hr with pairH := fun _ => hi }
  | celsius _ hi => exact { hr with tc := fun _ => hi, out := fun _ => by tauto }
  | out _ hi => exact { hr with out := fun _ => by tauto }

theorem WrittenByWriters.refl (i : Instr) (r : Regs) : WrittenByWriters i r r := by
  constructor <;> simp

/-- Settles O16: the registers an operation leaves are reached by writes of which it is a writer. -/
theorem eachRegisterHasItsWriters : Obligations.EachRegisterHasItsWriters := by
  intro i s t ht
  have hregs : WrittenByWriters i s.regs t.regs := by
    refine exec_keeps (P := fun _ regs _ _ => WrittenByWriters i s.regs regs) (fun h a b he ha => ?_) ht (.refl i _)
    cases he with
    | regs r hw => exact ha.regWrite hw
    | mode | latch | read | count | delayUs | delayMs => exact ha
  exact ⟨hregs.smp, hregs.ms, hregs.ack, hregs.wst, hregs.byte, hregs.d16, hregs.pairT, hregs.pairH, hregs.tc,
    hregs.out⟩

/-! ## The sensor's stream -/

/-- Two environments stand at the same place of the sensor's stream. -/
structure SameStream (e e' : Env) : Prop where
  levels : e.levels = e'.levels
  levelDraws : e.levelDraws = e'.levelDraws

theorem SameStream.trans {e e' e'' : Env} (a : SameStream e e') (b : SameStream e' e'') : SameStream e e'' :=
  ⟨a.levels.trans b.levels, a.levelDraws.trans b.levelDraws⟩

theorem SameStream.drawLevel {e e' : Env} (hs : SameStream e e') :
    (drawLevel e).1 = (drawLevel e').1 ∧ SameStream (drawLevel e).2 (drawLevel e').2 := by
  obtain ⟨hl, hd⟩ := hs
  simp only [Machine.drawLevel, hl, hd]
  cases e'.levels <;> exact ⟨rfl, rfl, rfl⟩

theorem sameStream_drawCount (e : Env) : SameStream (drawCount e).2 e := ⟨by simp, by simp⟩

@[simp] theorem drawLevels_levelDraws (n : Nat) (e : Env) : (drawLevels n e).2.levelDraws = e.levelDraws + n := by
  induction n generalizing e with
  | zero => rfl
  | succ n ih => rw [drawLevels, ih, drawLevel_levelDraws, Nat.add_assoc, Nat.add_comm 1]

/-- The levels of some events are the answers of the stream from `e` on, and `e'` stands right after them. -/
structure Answered (e : Env) (events : List Event) (e' : Env) : Prop where
  answers : readLevels events = (drawLevels (readLevels events).length e).1
  after : SameStream e' (drawLevels (readLevels events).length e).2

/-- An event that is no `Read` leaves the stream where it stands. -/
theorem Answered.other {e e' e'' : Env} {events : List Event} {ev : Event} (ha : Answered e events e')
    (hev : readLevels [ev] = []) (hs : SameStream e'' e') : Answered e (events ++ [ev]) e'' := by
  have hlev : readLevels (events ++ [ev]) = readLevels events := by
    rw [readLevels, List.filterMap_append, ← readLevels, ← readLevels, hev, List.append_nil]
  exact ⟨by rw [hlev]; exact ha.answers, by rw [hlev]; exact hs.trans ha.after⟩

/-- A `Read` is answered by the stream's next level. -/
theorem Answered.read {e e' : Env} {events : List Event} (ha : Answered e events e') (p : Byte) :
    Answered e (events ++ [.read p (drawLevel e').1]) (drawLevel e').2 := by
  obtain ⟨hans, hafter⟩ := ha
  have hlev : readLevels (events ++ [.read p (drawLevel e').1]) = readLevels events ++ [(drawLevel e').1] := by
    rw [readLevels, List.filterMap_append, ← readLevels]
    rfl
  obtain ⟨hone, hnext⟩ := hafter.drawLevel
  constructor
  · rw [hlev, List.length_append, List.length_singleton, drawLevels_add, ← hans, hone]
    rfl
  · rw [hlev, List.length_append, List.length_singleton, drawLevels_add]
    exact hnext

/-- Settles O17: a `Read` takes the stream's next level, and no other effect moves the stream. -/
theorem sensorAnswersEveryRead : Obligations.SensorAnswersEveryRead := by
  intro i s t ht
  have hrun : ∃ events, t.trace = s.trace ++ events ∧ Answered s.env events t.env := by
    refine exec_keeps (P := fun _ _ trace env => ∃ events, trace = s.trace ++ events ∧ Answered s.env events env)
      ?_ ht ⟨[], by simp, rfl, rfl, rfl⟩
    rintro h a b he ⟨events, htrace, ha⟩
    have happ : ∀ ev, a.trace ++ [ev] = s.trace ++ (events ++ [ev]) := by simp [htrace]
    cases he with
    | regs => exact ⟨events, htrace, ha⟩
    | read p => exact ⟨_, happ _, ha.read _⟩
    | count => exact ⟨_, happ _, ha.other rfl (sameStream_drawCount _)⟩
    | mode | latch | delayUs | delayMs => exact ⟨_, happ _, ha.other rfl ⟨rfl, rfl⟩⟩
  obtain ⟨events, htrace, hans, hafter⟩ := hrun
  exact ⟨events, htrace, hans, hafter.levels, by rw [hafter.levelDraws, drawLevels_levelDraws]⟩

/-! ## The clock line -/

/-- Settles O19: a mode set on SCK is `OUT`, or it is that of the `SETMODE` itself. -/
theorem clockLineStaysOutput : Obligations.ClockLineStaysOutput := by
  intro i s t ht hi
  refine exec_keeps (P := fun pins _ _ _ => pins.modeC = s.pins.modeC ∨ pins.modeC = some .out)
    (fun h a b he ha => ?_) ht (.inl rfl)
  cases he with
  | mode p m hm =>
    cases p with
    | data => exact ha
    | sck =>
      rcases hm with hm | rfl | hm
      · cases hm
      · exact .inr rfl
      · exact absurd hm (hi m)
  | latch p => cases p <;> exact ha
  | read | count | delayUs | delayMs | regs => exact ha

end Sys2Proof.Machine
end

section
/-! The arguments of a run, the program and the coefficient store, which no operation writes (R33, R56, R88). -/

namespace Sys2Proof.Machine

/-- Settles O14: the ends of an operation record a stop, advance `pc` or set the handle, and the effects before them
touch neither argument of the run. -/
theorem noOperationWritesTheProgram : Obligations.NoOperationWritesTheProgram := by
  intro i s t ht
  cases execEnd_of_exec ht with
  | badOperand | noHandle | reconstruct | constructed => exact ⟨rfl, rfl⟩
  | completed h t _ hst | faulted h t _ _ hst | refused h t _ hst =>
    exact ⟨hst.sameControl.program, hst.sameControl.coeff⟩

end Sys2Proof.Machine
end

section
/-! The operation word, decoded and encoded (R57 to R63): the decoder's three checks, what each operand table and each
format's reserved bits say of the fields, and the two directions of the round trip. -/

namespace Sys2Proof

open Sys2Proof.Claims
open BitVec (extractLsb'_append_extractLsb'_eq_extractLsb')

/-! ## The decoder's checks -/

theorem decode_unassigned {w : Word} (h : ∀ m : Mnemonic, opcodeField w ≠ m.opc) :
    decode w = .error .illegalOpcode := by
  cases hm : Mnemonic.ofOpc? (opcodeField w) with
  | none => rw [decode, hm]
  | some m => exact absurd (opc_of_ofOpc _ m hm).symm (h m)

theorem decode_reservedBits {m : Mnemonic} {w : Word} (hm : opcodeField w = m.opc)
    (hr : w &&& m.format.reservedMask ≠ 0#32) : decode w = .error .reservedBits := by
  simp [decode, hm, hr]

theorem decode_badOperand {m : Mnemonic} {w : Word} (hm : opcodeField w = m.opc)
    (hr : w &&& m.format.reservedMask = 0#32) (ho : m.operands? w = none) : decode w = .error .badOperand := by
  simp [decode, hm, hr, ho]

theorem decode_ok {m : Mnemonic} {w : Word} {i : Instr} (hm : opcodeField w = m.opc)
    (hr : w &&& m.format.reservedMask = 0#32) (ho : m.operands? w = some i) : decode w = .ok i := by
  simp [decode, hm, hr, ho]

/-- A word that decodes has passed the three checks of R60. -/
theorem checks_of_decode {w : Word} {i : Instr} (h : decode w = .ok i) :
    ∃ m : Mnemonic, opcodeField w = m.opc ∧ w &&& m.format.reservedMask = 0#32 ∧ m.operands? w = some i := by
  by_cases hm : ∃ m : Mnemonic, opcodeField w = m.opc
  · obtain ⟨m, hm⟩ := hm
    refine ⟨m, hm, ?_⟩
    by_cases hr : w &&& m.format.reservedMask = 0#32
    · cases ho : m.operands? w with
      | none => rw [decode_badOperand hm hr ho] at h; cases h
      | some j => rw [decode_ok hm hr ho] at h; cases h; exact ⟨hr, rfl⟩
    · rw [decode_reservedBits hm hr] at h
      cases h
  · rw [decode_unassigned (not_exists.mp hm)] at h
    cases h

/-! ## The operand codes -/

theorem pin_code_of_ofCode {c : Byte} {p : Pin} (h : Pin.ofCode? c = some p) : p.code = c := by
  unfold Pin.ofCode? at h
  split at h <;> cases h
  all_goals exact (BitVec.eq_of_toNat_eq ‹_›).symm

theorem mode_code_of_ofCode {c : BitVec 2} {d : PinMode} (h : PinMode.ofCode? c = some d) : d.code = c := by
  unfold PinMode.ofCode? at h
  split at h <;> cases h
  all_goals exact (BitVec.eq_of_toNat_eq ‹_›).symm

theorem class_code_of_ofCode {c : BitVec 3} {v : VClass} (h : VClass.ofCode? c = some v) : v.code = c := by
  unfold VClass.ofCode? at h
  split at h <;> cases h
  all_goals exact (BitVec.eq_of_toNat_eq ‹_›).symm

/-- The illegal pin codes (R59). -/
theorem pin_ofCode_eq_none {c : Byte} : Pin.ofCode? c = none ↔ 2 ≤ c.toNat := by
  unfold Pin.ofCode?
  split <;> simp_all
  omega

/-- The illegal mode code (R59). -/
theorem mode_ofCode_eq_none {c : BitVec 2} : PinMode.ofCode? c = none ↔ c.toNat = 3 := by
  have := c.isLt
  unfold PinMode.ofCode?
  split <;> simp_all
  omega

/-- The illegal voltage classes (R21, R59). -/
theorem class_ofCode_eq_none {c : BitVec 3} : VClass.ofCode? c = none ↔ 6 ≤ c.toNat := by
  have := c.isLt
  unfold VClass.ofCode?
  split <;> simp_all
  omega

/-- The two command codes (R61). -/
theorem command_ofCode_isSome {b : Byte} : (Command.ofCode? b).isSome = true ↔ b.toNat = 0x03 ∨ b.toNat = 0x05 := by
  change _ ↔ b.toNat = Config.codeMeasT.toNat ∨ b.toNat = Config.codeMeasRH.toNat
  rw [BitVec.toNat_inj, BitVec.toNat_inj, Command.ofCode?]
  split_ifs <;> simp [*]

/-- A command operand is read as its byte, which is a command code (R59, R61). -/
theorem commandOperand_eq_some {w : Word} {c : Byte} :
    commandOperand? w = some c ↔ cmdField w = c ∧ (Command.ofCode? c).isSome = true := by
  unfold commandOperand?
  split
  · next h => exact ⟨fun hc => by cases hc; exact ⟨rfl, h⟩, fun hc => congrArg some hc.1⟩
  · next h => exact ⟨nofun, fun ⟨hc, hs⟩ => absurd (hc ▸ hs) h⟩

/-- The bytes that are no command code (R59, R61). -/
theorem commandOperand_eq_none {w : Word} :
    commandOperand? w = none ↔ (cmdField w).toNat ≠ 0x03 ∧ (cmdField w).toNat ≠ 0x05 := by
  simp [commandOperand?, command_ofCode_isSome]

theorem level_bit_ofBit (b : Bool) : (Level.ofBit b).bit = BitVec.ofBool b := by cases b <;> rfl
theorem tRes_bit_ofBit (b : Bool) : (TRes.ofBit b).bit = BitVec.ofBool b := by cases b <;> rfl
theorem hRes_bit_ofBit (b : Bool) : (HRes.ofBit b).bit = BitVec.ofBool b := by cases b <;> rfl

/-! ## The fields of a word whose reserved bits are zero -/

/-- A bit of a word is a field of width one. -/
theorem ofBool_bit (w : Word) (i : Nat) : BitVec.ofBool (w.getLsbD i) = w.extractLsb' i 1 := by
  apply BitVec.eq_of_getLsbD_eq
  intro j hj
  obtain rfl : j = 0 := by omega
  simp

/-- A field that the mask covers is zero in a word that meets the mask in zero. -/
theorem field_eq_zero {w mask : Word} (start len : Nat) (h : w &&& mask = 0#32)
    (hmask : mask.extractLsb' start len = BitVec.allOnes len) : w.extractLsb' start len = 0#len := by
  have hand : (w &&& mask).extractLsb' start len = w.extractLsb' start len := by
    rw [BitVec.extractLsb'_and, hmask, BitVec.and_allOnes]
  rw [← hand, h, BitVec.extractLsb'_zero]

/-- The operand bits are the three operand bytes (R58). -/
theorem countField_eq_bytes (w : Word) : countField w = dpinField w ++ pinField w ++ cmdField w := by
  rw [dpinField, pinField, cmdField, extractLsb'_append_extractLsb'_eq_extractLsb' (show 16 = 8 + 8 from rfl),
    extractLsb'_append_extractLsb'_eq_extractLsb' (show 8 = 0 + 8 from rfl)]
  rfl

theorem countField_formatN {w : Word} (h : w &&& Format.N.reservedMask = 0#32) : countField w = 0#24 :=
  field_eq_zero 0 24 h (by decide)

theorem countField_formatC {w : Word} (h : w &&& Format.C.reservedMask = 0#32) :
    countField w = 0#16 ++ cmdField w := by
  rw [← field_eq_zero 8 16 h (by decide), cmdField,
    extractLsb'_append_extractLsb'_eq_extractLsb' (show 8 = 0 + 8 from rfl)]
  rfl

theorem countField_formatPM {w : Word} (h : w &&& Format.PM.reservedMask = 0#32) :
    countField w = 0#8 ++ pinField w ++ (0#6 ++ w.extractLsb' 0 2) := by
  rw [countField_eq_bytes, dpinField, field_eq_zero 16 8 h (by decide), ← field_eq_zero 2 6 h (by decide),
    extractLsb'_append_extractLsb'_eq_extractLsb' (show 2 = 0 + 2 from rfl)]
  rfl

theorem countField_formatPL {w : Word} (h : w &&& Format.PL.reservedMask = 0#32) :
    countField w = 0#8 ++ pinField w ++ (0#7 ++ w.extractLsb' 0 1) := by
  rw [countField_eq_bytes, dpinField, field_eq_zero 16 8 h (by decide), ← field_eq_zero 1 7 h (by decide),
    extractLsb'_append_extractLsb'_eq_extractLsb' (show 1 = 0 + 1 from rfl)]
  rfl

theorem countField_formatP {w : Word} (h : w &&& Format.P.reservedMask = 0#32) :
    countField w = 0#8 ++ pinField w ++ 0#8 := by
  rw [countField_eq_bytes, dpinField, cmdField, field_eq_zero 16 8 h (by decide), field_eq_zero 0 8 h (by decide)]

theorem countField_formatK {w : Word} (h : w &&& Format.K.reservedMask = 0#32) :
    countField w = dpinField w ++ pinField w ++
      (0#3 ++ w.extractLsb' 2 3 ++ w.extractLsb' 1 1 ++ w.extractLsb' 0 1) := by
  rw [countField_eq_bytes, ← field_eq_zero 5 3 h (by decide),
    extractLsb'_append_extractLsb'_eq_extractLsb' (show 5 = 2 + 3 from rfl),
    extractLsb'_append_extractLsb'_eq_extractLsb' (show 2 = 1 + 1 from rfl),
    extractLsb'_append_extractLsb'_eq_extractLsb' (show 1 = 0 + 1 from rfl)]
  rfl

/-! ## From the word to the operation -/

/-- What the operand tables read from a word without a reserved bit is well formed and has the word's mnemonic and
operand bits (R58, R59). -/
theorem operation_of_operands {m : Mnemonic} {w : Word} {i : Instr} (ho : m.operands? w = some i)
    (hr : w &&& m.format.reservedMask = 0#32) :
    i.wellFormed = true ∧ i.mnemonic = m ∧ i.operandBits = countField w := by
  cases m with
  | SETMODE =>
    obtain ⟨p, hp, hmap⟩ := Option.bind_eq_some_iff.mp ho
    obtain ⟨d, hd, rfl⟩ := Option.map_eq_some_iff.mp hmap
    refine ⟨rfl, rfl, ?_⟩
    rw [countField_formatPM hr, ← pin_code_of_ofCode hp, ← mode_code_of_ofCode hd]
    rfl
  | WRITE =>
    obtain ⟨p, hp, rfl⟩ := Option.map_eq_some_iff.mp ho
    refine ⟨rfl, rfl, ?_⟩
    rw [countField_formatPL hr, ← pin_code_of_ofCode hp, ← ofBool_bit, ← level_bit_ofBit]
    rfl
  | READ =>
    obtain ⟨p, hp, rfl⟩ := Option.map_eq_some_iff.mp ho
    refine ⟨rfl, rfl, ?_⟩
    rw [countField_formatP hr, ← pin_code_of_ofCode hp]
    rfl
  | DLY_US | DLY_MS =>
    cases ho
    exact ⟨rfl, rfl, rfl⟩
  | SHIFTOUT8 =>
    cases ho
    exact ⟨rfl, rfl, (countField_formatC hr).symm⟩
  | SENDCMD | READRAW =>
    obtain ⟨c, hc, rfl⟩ := Option.map_eq_some_iff.mp ho
    obtain ⟨rfl, hwf⟩ := commandOperand_eq_some.mp hc
    exact ⟨hwf, rfl, (countField_formatC hr).symm⟩
  | CONSTRUCT =>
    obtain ⟨v, hv, rfl⟩ := Option.map_eq_some_iff.mp ho
    refine ⟨rfl, rfl, ?_⟩
    rw [countField_formatK hr, ← class_code_of_ofCode hv, ← ofBool_bit, ← ofBool_bit, ← tRes_bit_ofBit,
      ← hRes_bit_ofBit]
    rfl
  | MILLIS | START | ACK | WAIT | SHIFTIN8 | MIDACK | READ16 | CRCSKIP | CONV_C | CONV_F | CONV_RH | READ_C | READ_F
  | READ_RH =>
    cases ho
    exact ⟨rfl, rfl, (countField_formatN hr).symm⟩

/-- Settles O2: the three checks give every bit of the word back. -/
theorem decodedWordIsItsEncoding : Obligations.DecodedWordIsItsEncoding := by
  intro w i h
  obtain ⟨m, hm, hr, ho⟩ := checks_of_decode h
  obtain ⟨hwf, rfl, hbits⟩ := operation_of_operands ho hr
  refine ⟨hwf, ?_⟩
  rw [encode, hbits, ← hm]
  exact word_eq_append w

/-! ## From the operation to the word -/

/-- Every operation's word has the fixed bits of its table row. -/
theorem encode_matches (i : Instr) : Laws.EncodeMatches.Statement i := by
  cases i with
  | setmode p m => exact Laws.EncodeMatches.setmode p m
  | write p l => exact Laws.EncodeMatches.write p l
  | read p => exact Laws.EncodeMatches.read p
  | dlyUs n => exact Laws.EncodeMatches.dlyUs n
  | dlyMs n => exact Laws.EncodeMatches.dlyMs n
  | shiftout8 c => exact Laws.EncodeMatches.shiftout8 c
  | sendcmd c => exact Laws.EncodeMatches.sendcmd c
  | readraw c => exact Laws.EncodeMatches.readraw c
  | construct d k v t h => exact Laws.EncodeMatches.construct d k v t h
  | millis | start | ack | wait | shiftin8 | midack | read16 | crcskip | convC | convF | convRh | readC | readF
  | readRh => rfl

/-- The encoder sets no reserved bit (R58): the reserved bits are the fixed bits below the opcode byte, where every
table row holds zero. -/
theorem encode_reserved (i : Instr) : encode i &&& i.mnemonic.format.reservedMask = 0#32 := by
  have hmask : ∀ m : Mnemonic, m.format.reservedMask = Laws.EncodeMatches.tableMask m &&& 0x00FFFFFF#32 := by
    intro m; cases m <;> rfl
  have hmatch : ∀ m : Mnemonic, Laws.EncodeMatches.tableMatch m &&& 0x00FFFFFF#32 = 0#32 := by
    intro m; cases m <;> rfl
  rw [hmask, ← BitVec.and_assoc, encode_matches i, hmatch]

theorem opcodeField_encode (i : Instr) : opcodeField (encode i) = i.mnemonic.opc := opcodeField_append _ _

theorem cmdField_append (o c : Byte) : cmdField (o ++ (0#16 ++ c : BitVec 24) : Word) = c := by
  rw [cmdField, extract_operandBits _ _ 0 8 (by omega)]
  exact BitVec.extractLsb'_append_eq_right

/-- A bit of the low byte is that bit of the word. -/
theorem bit_cmdField (w : Word) (i : Nat) (h : i < 8) : (cmdField w).getLsbD i = w.getLsbD i := by
  simp [cmdField, h]

/-- A field of the low byte is that field of the word. -/
theorem extract_cmdField (w : Word) (start len : Nat) (h : start + len ≤ 8) :
    (cmdField w).extractLsb' start len = w.extractLsb' start len := by
  apply BitVec.eq_of_getLsbD_eq
  intro i hi
  rw [BitVec.getLsbD_extractLsb', BitVec.getLsbD_extractLsb', bit_cmdField w _ (by omega)]

/-- The low byte of format K gives its three operands back (R58, R59). -/
theorem formatK_lowByte {w : Word} {v : VClass} {t : TRes} {h : HRes}
    (hlow : cmdField w = 0#3 ++ v.code ++ t.bit ++ h.bit) :
    VClass.ofCode? (w.extractLsb' 2 3) = some v ∧ TRes.ofBit (w.getLsbD 1) = t ∧ HRes.ofBit (w.getLsbD 0) = h := by
  rw [← extract_cmdField w 2 3 (by omega), ← bit_cmdField w 1 (by omega), ← bit_cmdField w 0 (by omega), hlow]
  cases v <;> cases t <;> cases h <;> exact ⟨rfl, rfl, rfl⟩

/-- The operand bytes of `CONSTRUCT` are read as the five operands they hold (R59). -/
theorem operands_construct {w : Word} {d k : Byte} {v : VClass} {t : TRes} {h : HRes}
    (hbytes : dpinField w = d ∧ pinField w = k ∧ cmdField w = 0#3 ++ v.code ++ t.bit ++ h.bit) :
    Mnemonic.CONSTRUCT.operands? w = some (.construct d k v t h) := by
  obtain ⟨rfl, rfl, hlow⟩ := hbytes
  obtain ⟨hv, ht, hh⟩ := formatK_lowByte hlow
  simp only [Mnemonic.operands?, hv, ht, hh, Option.map_some]

/-- The operand tables read an operation back from its own word (R59). -/
theorem operands_encode {i : Instr} (hwf : i.wellFormed = true) : i.mnemonic.operands? (encode i) = some i := by
  cases i with
  | setmode p m => cases p <;> cases m <;> rfl
  | write p l => cases p <;> cases l <;> rfl
  | read p => cases p <;> rfl
  | dlyUs n => exact congrArg (fun n => some (Instr.dlyUs n)) (countField_append _ n)
  | dlyMs n => exact congrArg (fun n => some (Instr.dlyMs n)) (countField_append _ n)
  | shiftout8 c => exact congrArg (fun c => some (Instr.shiftout8 c)) (cmdField_append _ c)
  | sendcmd c | readraw c =>
    exact Option.map_eq_some_iff.mpr ⟨c, commandOperand_eq_some.mpr ⟨cmdField_append _ c, hwf⟩, rfl⟩
  | construct d k v t h => exact operands_construct (byteFields_append _ d k _)
  | millis | start | ack | wait | shiftin8 | midack | read16 | crcskip | convC | convF | convRh | readC | readF
  | readRh => rfl

/-- Settles O1: the encoded word passes the three checks. -/
theorem decodeOfEncode : Obligations.DecodeOfEncode := fun i hwf =>
  decode_ok (opcodeField_encode i) (encode_reserved i) (operands_encode hwf)

/-- The word of a well-formed operation, however it is written, decodes to it. -/
theorem decode_of_encode_eq {i : Instr} {w : Word} (hw : encode i = w) (hwf : i.wellFormed = true) :
    decode w = .ok i :=
  hw ▸ decodeOfEncode i hwf

/-! ## The checks as R60 numbers them -/

/-- The mnemonics in the order of R62. -/
def allMnemonics : List Mnemonic :=
  [.SETMODE, .WRITE, .READ, .DLY_US, .DLY_MS, .MILLIS,
   .START, .SHIFTOUT8, .ACK, .SENDCMD, .WAIT, .SHIFTIN8, .MIDACK, .READ16, .CRCSKIP, .READRAW,
   .CONV_C, .CONV_F, .CONV_RH, .CONSTRUCT, .READ_C, .READ_F, .READ_RH]

theorem mem_allMnemonics (m : Mnemonic) : m ∈ allMnemonics := by cases m <;> decide

theorem mem_assignedOpcodes {n : Nat} : n ∈ assignedOpcodes ↔ ∃ m : Mnemonic, m.opc.toNat = n := by
  rw [show assignedOpcodes = allMnemonics.map fun m => m.opc.toNat from rfl, List.mem_map]
  exact ⟨fun ⟨m, _, h⟩ => ⟨m, h⟩, fun ⟨m, h⟩ => ⟨m, mem_allMnemonics m, h⟩⟩

theorem opcodeField_toNat (w : Word) : (opcodeField w).toNat = w.toNat / 2 ^ 24 := by
  have := w.isLt
  rw [opcodeField, field_toNat]
  omega

/-- The opcode as a number and as a field (R57, R62). -/
theorem opcode_eq_iff {w : Word} {m : Mnemonic} : w.toNat / 2 ^ 24 = m.opc.toNat ↔ opcodeField w = m.opc := by
  rw [← opcodeField_toNat, BitVec.toNat_inj]

theorem assigned_iff {w : Word} : w.toNat / 2 ^ 24 ∈ assignedOpcodes ↔ ∃ m : Mnemonic, opcodeField w = m.opc := by
  simp only [mem_assignedOpcodes, ← opcode_eq_iff, eq_comm]

theorem reservedBits_opc (m : Mnemonic) : reservedBits m.opc.toNat = m.format.reservedMask := by
  cases m <;> rfl

theorem illegalOperand_iff {w : Word} {m : Mnemonic} (hm : opcodeField w = m.opc) :
    IllegalOperand w ↔ m.operands? w = none := by
  have hpin : w.toNat / 2 ^ 8 % 2 ^ 8 = (pinField w).toNat := (field_toNat w 8 8).symm
  have hcmd : w.toNat % 2 ^ 8 = (cmdField w).toNat := by simp [cmdField]
  have hmode : (w.extractLsb' 0 2).toNat = (cmdField w).toNat % 4 := by
    simp only [cmdField, field_toNat]; omega
  have hclass : (w.extractLsb' 2 3).toNat = (cmdField w).toNat / 4 % 8 := by
    simp only [cmdField, field_toNat]; omega
  rw [IllegalOperand, opcode_eq_iff.mpr hm, hpin, hcmd]
  cases m with
  | SETMODE =>
    simp only [IllegalFields, Mnemonic.opc, Mnemonic.operands?, ← pin_ofCode_eq_none, ← hmode, ← mode_ofCode_eq_none]
    cases Pin.ofCode? (pinField w) <;> simp
  | WRITE | READ => simp [IllegalFields, Mnemonic.opc, Mnemonic.operands?, pin_ofCode_eq_none]
  | SENDCMD | READRAW => simp [IllegalFields, Mnemonic.opc, Mnemonic.operands?, commandOperand_eq_none]
  | CONSTRUCT => simp [IllegalFields, Mnemonic.opc, Mnemonic.operands?, class_ofCode_eq_none, hclass]
  | DLY_US | DLY_MS | SHIFTOUT8 | MILLIS | START | ACK | WAIT | SHIFTIN8 | MIDACK | READ16 | CRCSKIP | CONV_C | CONV_F
  | CONV_RH | READ_C | READ_F | READ_RH => simp [IllegalFields, Mnemonic.opc, Mnemonic.operands?]

/-- The decode faults of an assigned opcode's words (R60 (2), (3)). -/
theorem rejectsBadWords (m : Mnemonic) : RejectsBadWords m.opc.toNat := by
  intro w hw
  have hm := opcode_eq_iff.mp hw
  rw [reservedBits_opc]
  exact ⟨decode_reservedBits hm, fun hr hi => decode_badOperand hm hr ((illegalOperand_iff hm).mp hi)⟩

/-- Settles O3: the opcode is some mnemonic's or none's, and then its two later checks decide. -/
theorem decodeChecksInOrder : Obligations.DecodeChecksInOrder := by
  intro w
  refine ⟨fun h => decode_unassigned (not_exists.mp (mt assigned_iff.mpr h)), fun h => ?_⟩
  obtain ⟨m, hm⟩ := assigned_iff.mp h
  have hopc := opcode_eq_iff.mpr hm
  obtain ⟨hreserved, hbad⟩ := rejectsBadWords m w hopc
  rw [hopc]
  refine ⟨hreserved, fun hr => ⟨hbad hr, fun hi => ?_⟩⟩
  rw [reservedBits_opc] at hr
  obtain ⟨i, ho⟩ := Option.ne_none_iff_exists'.mp (mt (illegalOperand_iff hm).mpr hi)
  exact ⟨i, decode_ok hm hr ho, (operation_of_operands ho hr).1⟩

/-! ## Words and expansions written out -/

/-- Settles O4: each word is, bit by bit, the encoding of the operation it stands for, so O1 decodes it. -/
theorem writtenOutWordsDecode : Obligations.WrittenOutWordsDecode := by
  refine ⟨?_, ?_, ?_, ?_, ?_, ?_, ?_, ?_, ?_, ?_, ?_⟩
  all_goals exact decode_of_encode_eq rfl rfl

/-- Settles O5: each expansion is a list of written-out operations, and the default operand byte of `CONSTRUCT_DEFAULT`
is 0x08 (R99). -/
theorem pseudoInstructionsExpand : Obligations.PseudoInstructionsExpand :=
  ⟨rfl, rfl, rfl, rfl, rfl, fun _ _ => rfl⟩

end Sys2Proof
end

section
/-! What the statements on single operations share (R60, R110): an operation's word decodes to it and its opcode's bad
words are rejected, and the operation takes `F_NO_HANDLE` without a handle and runs its pseudocode with one. -/

namespace Sys2Proof.Machine

open Sys2Proof.Claims

variable {i : Instr} {s t : State}

/-- An operation that comes to its state check takes the fault there; only `CONSTRUCT` has no such check (R110 (2)). -/
theorem exec_noHandle (hwf : i.wellFormed = true) (hc : i.mnemonic ≠ .CONSTRUCT) (hh : s.handle = none) :
    exec i s = .next (takeFault .noHandle s) := by
  rw [exec_eq_finish]
  cases i with
  | construct => exact absurd rfl hc
  | sendcmd b | readraw b =>
    obtain ⟨c, hb⟩ := Option.isSome_iff_exists.mp hwf
    obtain rfl := (ofCode_eq_some b c).mp hb
    exact finish_fault ((op_bind_ok (requireCommand_code c s)).trans (withHandle_none _ s hh))
  | setmode | write | read | dlyUs | dlyMs | millis | start | shiftout8 | ack | wait | shiftin8 | midack | read16
  | crcskip | convC | convF | convRh | readC | readF | readRh => exact finish_fault (withHandle_none _ s hh)

/-- A well-formed operation other than `CONSTRUCT` is spelled by its encoding and guarded by the state check. -/
theorem spelledAndGuarded {w : Word} (hw : encode i = w) (hwf : i.wellFormed = true) (hc : i.mnemonic ≠ .CONSTRUCT) :
    SpelledAndGuarded i w := by
  refine ⟨hw, decode_of_encode_eq hw hwf, ?_, fun s hh => exec_noHandle hwf hc hh⟩
  rw [← hw, opcode_eq_iff.mpr (opcodeField_encode i)]
  exact rejectsBadWords i.mnemonic

variable {h : Handle} {code : Handle → Op Unit}

/-- An operation whose pseudocode completes under the handle advances `pc` (R106 (a)). The end is a variable, so that a
state written out field by field can stand for it. -/
theorem exec_completes {u : State} (hi : body i = withHandle code) (hh : s.handle = some h)
    (hrun : code h s = .ok () t) (hu : advance t = u) : exec i s = .next u := by
  rw [exec_eq_finish, hi, ← hu]
  exact finish_ok ((withHandle_some code s h hh).trans hrun)

/-- An operation whose pseudocode raises a fault under the handle records it (R106 (b)). -/
theorem exec_faults {f : ModelFault} (hi : body i = withHandle code) (hh : s.handle = some h)
    (hrun : code h s = .error (.fault f) t) : exec i s = .next (takeFault f t) := by
  rw [exec_eq_finish, hi]
  exact finish_fault ((withHandle_some code s h hh).trans hrun)

end Sys2Proof.Machine
end

section
/-! The pin primitives (R70 to R75): each is spelled and guarded, and with a handle does what its host call does. -/

namespace Sys2Proof.Machine

/-- Settles O20: the host call of `setmode` completes in every state. -/
theorem setmodeSetsTheMode : Obligations.SetmodeSetsTheMode := fun p m =>
  ⟨spelledAndGuarded rfl rfl nofun, fun s h hh => exec_completes rfl hh (setMode_run h p m s) rfl⟩

/-- Settles O21: the pin's mode decides between the two ends of the `write` helper. -/
theorem writeDrivesAnOutputPin : Obligations.WriteDrivesAnOutputPin := fun p l =>
  ⟨spelledAndGuarded rfl rfl nofun, fun s h hh =>
    ⟨fun hm => exec_completes rfl hh (writePin_out h p l s hm) rfl,
      fun hm => exec_faults rfl hh (writePin_notOut h p l s hm)⟩⟩

/-- Settles O22: the `read` helper completes whatever the mode, and its level is then written to `SMP`. -/
theorem readSamplesInAnyMode : Obligations.ReadSamplesInAnyMode := fun p =>
  ⟨spelledAndGuarded rfl rfl nofun, fun s h hh =>
    exec_completes rfl hh ((op_bind_ok (readPin_run h p s)).trans (writeRegs_run _ _)) rfl⟩

/-- Settles O23: a delay is the appending of its event. -/
theorem delaysEmitTheirEvent : Obligations.DelaysEmitTheirEvent := fun n =>
  ⟨spelledAndGuarded rfl rfl nofun, spelledAndGuarded rfl rfl nofun, fun s _ hh =>
    ⟨exec_completes rfl hh (emit_run (.delayUs n.toNat) s) rfl,
      exec_completes rfl hh (emit_run (.delayMs n.toNat) s) rfl⟩⟩

/-- Settles O24: the count drawn is the event's, and is then written to `MS`. -/
theorem millisRecordsTheCount : Obligations.MillisRecordsTheCount :=
  ⟨spelledAndGuarded rfl rfl nofun, fun s _ hh =>
    exec_completes rfl hh ((op_bind_ok (millisBounded_run id s)).trans (writeRegs_run _ _)) rfl⟩

end Sys2Proof.Machine
end

section
/-! Where a protocol operation breaks off (R69, R111): each is the fault of the first `write` whose pin is not in `OUT`
mode, with the events before it kept. With the `_run` equations these are all the ends of the sub-operations R77 to R85
but `WAIT`, which needs no pin mode. -/

namespace Sys2Proof.Machine

open Sys2Proof.Claims

variable {h : Handle} {s : State}

/-- `SHIFTOUT8` with DATA not driven: its first `write` faults (R78). -/
theorem shiftOut8_dataNotOut (b : Byte) (hd : s.pins.modeD ≠ some .out) :
    shiftOut8 h b s = .error (.fault .pinNotOutput) s :=
  op_bind_error (edge_notOut h .data _ s hd)

/-- `SHIFTOUT8` with SCK not driven: the edge on DATA is done, the one on SCK faults (R78). -/
theorem shiftOut8_clockNotOut (b : Byte) (hd : s.pins.modeD = some .out) (hc : s.pins.modeC ≠ some .out) :
    shiftOut8 h b s = .error (.fault .pinNotOutput) { s with
      trace := s.trace ++ edgeEvents h .data (levelOfBit (b.getLsbD 7)),
      pins := { s.pins with latD := some (levelOfBit (b.getLsbD 7)) } } :=
  (op_bind_ok (edge_out h .data _ s hd)).trans (op_bind_error (edge_notOut h .sck _ _ hc))

/-- `ACK` with SCK not driven faults after releasing DATA (R79). -/
theorem ackClock_clockNotOut (hc : s.pins.modeC ≠ some .out) :
    ackClock h s = .error (.fault .pinNotOutput) { s with
      trace := s.trace ++ [.setMode h.dpin .inputPullup], pins := { s.pins with modeD := some .inputPullup } } :=
  (op_bind_ok (setMode_run h .data _ s)).trans (op_bind_error (edge_notOut h .sck _ _ hc))

/-- `SHIFTIN8` with SCK not driven: its first `write` faults (R82). -/
theorem shiftIn8_clockNotOut (hc : s.pins.modeC ≠ some .out) :
    shiftIn8 h s = .error (.fault .pinNotOutput) s :=
  op_bind_error (op_bind_error (edge_notOut h .sck _ s hc))

/-- `READ16` with SCK not driven faults after releasing DATA (R84). -/
theorem shiftIn16_clockNotOut (hc : s.pins.modeC ≠ some .out) :
    shiftIn16 h s = .error (.fault .pinNotOutput) { s with
      trace := s.trace ++ [.setMode h.dpin .inputPullup], pins := { s.pins with modeD := some .inputPullup } } :=
  (op_bind_ok (setMode_run h .data _ s)).trans (op_bind_error (shiftIn8_clockNotOut hc))

/-- An operation that drives DATA and then pulses SCK, with SCK not driven: it faults after the edge on DATA. -/
theorem driveData_clockNotOut (l : Level) (rest : Unit → Op Unit) (hc : s.pins.modeC ≠ some .out) :
    (do setMode h .data .out; edge h .data l; edge h .sck .hi >>= rest) s = .error (.fault .pinNotOutput) { s with
      trace := s.trace ++ ([.setMode h.dpin .out] ++ edgeEvents h .data l),
      pins := { s.pins with modeD := some .out, latD := some l } } := by
  rw [← List.append_assoc]
  exact (op_bind_ok (setMode_run h .data .out s)).trans
    ((op_bind_ok (edge_out h .data l _ rfl)).trans (op_bind_error (edge_notOut h .sck .hi _ hc)))

/-- `MIDACK` with SCK not driven (R83). -/
theorem midAck_clockNotOut (hc : s.pins.modeC ≠ some .out) :
    midAck h s = .error (.fault .pinNotOutput) { s with
      trace := s.trace ++ ([.setMode h.dpin .out] ++ edgeEvents h .data .lo),
      pins := { s.pins with modeD := some .out, latD := some .lo } } :=
  driveData_clockNotOut .lo _ hc

/-- `CRCSKIP` with SCK not driven (R85). -/
theorem crcSkip_clockNotOut (hc : s.pins.modeC ≠ some .out) :
    crcSkip h s = .error (.fault .pinNotOutput) { s with
      trace := s.trace ++ ([.setMode h.dpin .out] ++ edgeEvents h .data .hi),
      pins := { s.pins with modeD := some .out, latD := some .hi } } :=
  driveData_clockNotOut .hi _ hc

variable {i : Instr} {code : Handle → Op Unit}

/-- An operation whose pseudocode comes to a `write` of an undriven pin takes the fault with what it has done kept
(R69, R111). -/
theorem exec_notOutput {events : List Event} {pins : Pins} (hi : body i = withHandle code) (hh : s.handle = some h)
    (hrun : code h s = .error (.fault .pinNotOutput) { s with trace := s.trace ++ events, pins := pins }) :
    exec i s = .next (notOutput s events pins) :=
  exec_faults hi hh hrun

/-- Where that `write` is the first thing it does, the state stays as it stood. -/
theorem exec_notOutput_first (hi : body i = withHandle code) (hh : s.handle = some h)
    (hrun : code h s = .error (.fault .pinNotOutput) s) : exec i s = .next (notOutput s [] s.pins) :=
  exec_notOutput hi hh (by rw [hrun, List.append_nil])

end Sys2Proof.Machine
end

section
/-! The protocol operations that are one sub-operation (R77 to R79, R81 to R85): each is spelled and guarded, and with a
handle it ends as its sub-operation does. -/

namespace Sys2Proof.Machine

open Sys2Proof.Claims

/-- Settles O25: the sub-operation sets both modes itself, so it completes from any pin state. -/
theorem startEmitsThePattern : Obligations.StartEmitsThePattern :=
  ⟨spelledAndGuarded rfl rfl nofun, fun s h hh => exec_completes rfl hh (startSeq_run h s) rfl⟩

/-- Settles O26: by the two pin modes, of which DATA's is looked at first. -/
theorem shiftout8DrivesMsbFirst : Obligations.Shiftout8DrivesMsbFirst := fun b =>
  ⟨spelledAndGuarded rfl rfl nofun, fun s h hh =>
    ⟨fun hd hc => exec_completes rfl hh (shiftOut8_run h b s hd hc) rfl,
      fun hd => exec_notOutput_first rfl hh (shiftOut8_dataNotOut b hd),
      fun hd hc => exec_notOutput rfl hh (shiftOut8_clockNotOut b hd hc)⟩⟩

/-- Settles O27: the two levels drawn are the samples, and the first that fails its phase decides the status. -/
theorem ackReportsTheFirstFailingPhase : Obligations.AckReportsTheFirstFailingPhase := by
  refine ⟨spelledAndGuarded rfl rfl nofun, fun s h hh => ⟨fun hc => ?_, fun hc => ?_⟩⟩
  · exact ⟨_, _, _, rfl, rfl, fun h0 => by simp [ackStatus, h0], fun h0 h1 => by simp [ackStatus, h0, h1],
      fun h0 h1 => by simp [ackStatus, h0, h1], exec_completes rfl hh (op_bind_ok (ackClock_run h s hc)) rfl⟩
  · exact exec_notOutput rfl hh (op_bind_error (ackClock_clockNotOut hc))

/-- Settles O32: the byte is that of the eight samples, whose bits are the samples again. -/
theorem shiftin8AssemblesMsbFirst : Obligations.Shiftin8AssemblesMsbFirst := by
  refine ⟨spelledAndGuarded rfl rfl nofun, fun s h hh => ⟨fun hc => ?_, fun hc => ?_⟩⟩
  · exact ⟨_, bitsMsbFirst_byteOfSamples _ (drawLevels_length 8 s.env),
      exec_completes rfl hh (op_bind_ok (shiftIn8_run h s hc)) rfl⟩
  · exact exec_notOutput_first rfl hh (op_bind_error (shiftIn8_clockNotOut hc))

/-- Settles O33: the mode of SCK decides, as DATA is set to `OUT` first. -/
theorem midackDrivesDataLow : Obligations.MidackDrivesDataLow :=
  ⟨spelledAndGuarded rfl rfl nofun, fun s h hh =>
    ⟨fun hc => exec_completes rfl hh (midAck_run h s hc) rfl,
      fun hc => exec_notOutput rfl hh (midAck_clockNotOut hc)⟩⟩

/-- Settles O35: as O33, with DATA driven high. -/
theorem crcskipReadsNothing : Obligations.CrcskipReadsNothing :=
  ⟨spelledAndGuarded rfl rfl nofun, fun s h hh =>
    ⟨fun hc => exec_completes rfl hh (crcSkip_run h s hc) rfl,
      fun hc => exec_notOutput rfl hh (crcSkip_clockNotOut hc)⟩⟩

/-- The code of two bytes as arithmetic (R45, R84). -/
theorem rawOfBytes_eq_ofNat (hi lo : Byte) : rawOfBytes hi lo = BitVec.ofNat 16 (hi.toNat * 256 + lo.toNat) := by
  apply BitVec.eq_of_toNat_eq
  rw [rawOfBytes, append_toNat, BitVec.toNat_ofNat]
  omega

/-- Settles O34: sixteen draws are twice eight, and each half is the bits of its byte. -/
theorem read16IsBigEndian : Obligations.Read16IsBigEndian := by
  refine ⟨spelledAndGuarded rfl rfl nofun, fun s h hh => ⟨fun hc => ?_, fun hc => ?_⟩⟩
  · have hhi := bitsMsbFirst_byteOfSamples _ (drawLevels_length 8 s.env)
    have hlo := bitsMsbFirst_byteOfSamples _ (drawLevels_length 8 (drawLevels 8 s.env).2)
    refine ⟨byteOfSamples (drawLevels 8 s.env).1, byteOfSamples (drawLevels 8 (drawLevels 8 s.env).2).1, ?_, ?_⟩
    · rw [hhi, hlo, drawLevels_add 8 8]
    · rw [hhi, hlo, ← rawOfBytes_eq_ofNat, drawLevels_add 8 8]
      exact exec_completes rfl hh (op_bind_ok (shiftIn16_run h s hc)) rfl
  · exact exec_notOutput rfl hh (op_bind_error (shiftIn16_clockNotOut hc))

/-- The timeout test in milliseconds (R81). -/
theorem timedOut_eq_false {t0 t : Millis} : timedOut t0 t = false ↔ (t - t0).toNat < 1000 :=
  decide_eq_false_iff_not.trans not_le

theorem timedOut_eq_true {t0 t : Millis} : timedOut t0 t = true ↔ 1000 ≤ (t - t0).toNat := decide_eq_true_iff

/-- Settles O29: the two ends of a wait, with its counts in milliseconds. -/
theorem waitPollsUntilReadyOrTimeout : Obligations.WaitPollsUntilReadyOrTimeout := by
  refine ⟨spelledAndGuarded rfl rfl nofun, fun s h hh => ?_⟩
  obtain ⟨busy, env, -, hlen, hdraws, hend⟩ := waitReady_cases h s
  refine ⟨_, busy, env, rfl, hlen, hdraws, ?_⟩
  rcases hend with ⟨hlt, hearly, -, -, -, hrun⟩ | ⟨early, last, hbusy, hearly, hlast, -, -, -, hrun⟩
  · exact .inl ⟨hlt, fun t ht => timedOut_eq_false.mp (hearly t ht), exec_completes rfl hh (op_bind_ok hrun) rfl⟩
  · exact .inr ⟨early, last, hbusy, fun t ht => timedOut_eq_false.mp (hearly t ht), timedOut_eq_true.mp hlast,
      exec_completes rfl hh (op_bind_ok hrun) rfl⟩

end Sys2Proof.Machine
end

section
/-! The operations with a command operand, `SENDCMD` and `READRAW` (R59, R80, R86): a command's code passes the operand
check, and another byte is rejected by the decoder and by the meaning. -/

namespace Sys2Proof.Machine

open Sys2Proof.Claims

theorem body_sendcmd (c : Command) :
    body (.sendcmd c.code) = withHandle (fun h => do let _ ← sendCommand h c) := by
  cases c <;> rfl

theorem body_readraw (c : Command) :
    body (.readraw c.code) = withHandle (fun h => do let _ ← readRaw h c) := by
  cases c <;> rfl

/-- The bytes that are no command's code (R61). -/
theorem ofCode_eq_none {b : Byte} (ht : b ≠ 0x03#8) (hrh : b ≠ 0x05#8) : Command.ofCode? b = none := by
  simp [Command.ofCode?, Config.codeMeasT, Config.codeMeasRH, ht, hrh]

/-- The encoding of an operation whose operand value is illegal is rejected for it (R60 (3)). -/
theorem decode_encode_badOperand {i : Instr} (ho : i.mnemonic.operands? (encode i) = none) :
    decode (encode i) = .error .badOperand :=
  decode_badOperand (opcodeField_encode i) (encode_reserved i) ho

/-- A word of format C has its byte as the command operand only if that is a command's code (R59). -/
theorem commandOperand_append_eq_none (o : Byte) {b : Byte} (hb : Command.ofCode? b = none) :
    commandOperand? (o ++ (0#16 ++ b : BitVec 24) : Word) = none := by
  rw [commandOperand?, cmdField_append, hb]
  rfl

/-- The meaning's own operand check (R110 (1); log entry 14). -/
theorem exec_badOperand {i : Instr} {b : Byte} {code : Command → Op Unit} (s : State)
    (hi : body i = requireCommand b >>= code) (hb : Command.ofCode? b = none) :
    exec i s = .next { s with fault := some .badOperand } := by
  rw [exec_eq_finish, hi]
  exact finish_fault (op_bind_error (requireCommand_none b s hb))

/-- Settles O28: with a command's code the operation is `sendCommand`, and any other byte is rejected twice. -/
theorem sendcmdSendsACommand : Obligations.SendcmdSendsACommand := by
  refine ⟨fun c => ⟨spelledAndGuarded rfl (by simp [Instr.wellFormed]) nofun, fun s h hh => ⟨_, _, rfl, rfl, ?_⟩⟩,
    fun b s ht hrh => ?_⟩
  · rw [List.append_assoc, List.append_assoc, ← List.append_assoc (startEvents h)]
    exact exec_completes (body_sendcmd c) hh (op_bind_ok (sendCommand_run h c s)) rfl
  · have hb := ofCode_eq_none ht hrh
    exact ⟨decode_encode_badOperand (i := .sendcmd b) (Option.map_eq_none_iff.mpr (commandOperand_append_eq_none _ hb)),
      exec_badOperand s rfl hb⟩

end Sys2Proof.Machine
end

section
/-! The sub-operations of an exchange after its command never look at `pc`, so each does the same in place as it does as
an operation of its own, behind those before it (R15, R86). -/

namespace Sys2Proof.Machine

variable {h : Handle}

/-- An operation in progress that completes does so wherever `pc` stands, and leaves it there. -/
structure PcBlind {α : Type} (x : Op α) : Prop where
  run : ∀ {s t : State} {a : α}, x s = .ok a t → ∀ n, x { s with pc := n } = .ok a { t with pc := n }

theorem pcBlind_pure {α : Type} (a : α) : PcBlind (pure a) := ⟨fun hx n => by cases hx; rfl⟩

theorem pcBlind_bind {α β : Type} {x : Op α} {f : α → Op β} (hx : PcBlind x) (hf : ∀ a, PcBlind (f a)) :
    PcBlind (x >>= f) := by
  refine ⟨fun {s u b} hrun n => ?_⟩
  rw [op_bind] at hrun
  cases hxs : x s with
  | ok a t =>
    rw [hxs] at hrun
    rw [op_bind_ok (hx.run hxs n)]
    exact (hf a).run hrun n
  | error e t => rw [hxs] at hrun; cases hrun

theorem pcBlind_emit (e : Event) : PcBlind (emit e) := ⟨fun hx _ => by cases hx; rfl⟩

theorem pcBlind_writeRegs (f : Regs → Regs) : PcBlind (writeRegs f) := ⟨fun hx _ => by cases hx; rfl⟩

theorem pcBlind_setMode (p : Pin) (m : PinMode) : PcBlind (setMode h p m) := ⟨fun hx _ => by cases hx; rfl⟩

theorem pcBlind_readPin (p : Pin) : PcBlind (readPin h p) := ⟨fun hx _ => by cases hx; rfl⟩

theorem pcBlind_millisBounded (b : Millis → Millis) : PcBlind (millisBounded b) := ⟨fun hx _ => by cases hx; rfl⟩

theorem pcBlind_edge (p : Pin) (l : Level) : PcBlind (edge h p l) := by
  refine ⟨fun {s t a} hrun n => ?_⟩
  by_cases hm : pinMode s.pins p = some .out
  · rw [edge_out h p l s hm] at hrun
    cases hrun
    exact edge_out h p l { s with pc := n } hm
  · rw [edge_notOut h p l s hm] at hrun
    cases hrun

theorem pcBlind_waitPolls (t0 : Millis) (n : Nat) (last : Millis) : PcBlind (waitPolls h t0 n last) := by
  induction n generalizing last with
  | zero => exact pcBlind_pure _
  | succ n ih =>
    refine pcBlind_bind (pcBlind_emit _) fun _ => pcBlind_bind (pcBlind_readPin _) fun v => ?_
    split
    · exact pcBlind_pure _
    · refine pcBlind_bind (pcBlind_millisBounded _) fun t => ?_
      split
      · exact pcBlind_pure _
      · exact ih t

theorem pcBlind_waitReady : PcBlind (waitReady h) :=
  pcBlind_bind (pcBlind_setMode _ _) fun _ => pcBlind_bind (pcBlind_millisBounded _) fun _ =>
    pcBlind_bind (pcBlind_waitPolls _ _ _) fun _ => pcBlind_bind (pcBlind_writeRegs _) fun _ => pcBlind_pure _

theorem pcBlind_shiftInBits (n : Nat) (acc : Byte) : PcBlind (shiftInBits h n acc) := by
  induction n generalizing acc with
  | zero => exact pcBlind_pure _
  | succ n ih =>
    exact pcBlind_bind (pcBlind_edge _ _) fun _ => pcBlind_bind (pcBlind_readPin _) fun _ =>
      pcBlind_bind (pcBlind_edge _ _) fun _ => ih _

theorem pcBlind_shiftIn8 : PcBlind (shiftIn8 h) :=
  pcBlind_bind (pcBlind_shiftInBits _ _) fun _ => pcBlind_bind (pcBlind_writeRegs _) fun _ => pcBlind_pure _

theorem pcBlind_midAck : PcBlind (midAck h) :=
  pcBlind_bind (pcBlind_setMode _ _) fun _ => pcBlind_bind (pcBlind_edge _ _) fun _ =>
    pcBlind_bind (pcBlind_edge _ _) fun _ => pcBlind_edge _ _

theorem pcBlind_shiftIn16 : PcBlind (shiftIn16 h) :=
  pcBlind_bind (pcBlind_setMode _ _) fun _ => pcBlind_bind pcBlind_shiftIn8 fun _ =>
    pcBlind_bind pcBlind_midAck fun _ => pcBlind_bind (pcBlind_setMode _ _) fun _ =>
      pcBlind_bind pcBlind_shiftIn8 fun _ => pcBlind_bind (pcBlind_writeRegs _) fun _ => pcBlind_pure _

theorem pcBlind_crcSkip : PcBlind (crcSkip h) :=
  pcBlind_bind (pcBlind_setMode _ _) fun _ => pcBlind_bind (pcBlind_edge _ _) fun _ =>
    pcBlind_bind (pcBlind_edge _ _) fun _ => pcBlind_edge _ _

/-- An operation run for its effects, its result dropped. -/
theorem pcBlind_discard {α : Type} {x : Op α} (hx : PcBlind x) : PcBlind (do let _ ← x) :=
  pcBlind_bind hx fun _ => pcBlind_pure _

/-- A sub-operation as an operation of its own, at any `pc`. -/
theorem exec_completes_at {i : Instr} {code : Handle → Op Unit} (hi : body i = withHandle code)
    (hb : PcBlind (code h)) {s t : State} (hh : s.handle = some h) (hrun : code h s = .ok () t) (n : Nat) :
    exec i { s with pc := n } = .next { t with pc := n + 1 } :=
  exec_completes hi hh (hb.run hrun n) rfl

end Sys2Proof.Machine
end

section
/-! The exchange (R86): what it leaves is what its sub-operations leave as operations of their own, with the command's
pair written, and an unacknowledged one is its `SENDCMD` alone. -/

namespace Sys2Proof.Machine

open Sys2Proof.Claims

variable {h : Handle} {s t : State}

/-- The end of an exchange, with the pair written to a state that differs in `pc`. -/
theorem advance_recordedExchange (c : Command) (st : Status) (raw : Option Raw) {k : Nat} (hk : t.pc = k) (n : Nat) :
    advance (recordedExchange c st raw t) = { withExchange c st raw { t with pc := n } with pc := k + 1 } := by
  subst hk
  cases c <;> rfl

theorem statusOfTx_eq {tx : TxStatus} (ht : tx ≠ .ok) : statusOfTx tx = if tx = .eAck0 then .eAck0 else .eAck1 := by
  cases tx <;> simp [statusOfTx] at ht ⊢

/-- Settles O36: the sub-operations complete in turn, and the `pc` that an operation of its own would advance is the one
thing in which the exchange's states differ from theirs. -/
theorem readrawIsItsSubOperations : Obligations.ReadrawIsItsSubOperations := by
  refine ⟨fun c => ⟨spelledAndGuarded rfl (by simp [Instr.wellFormed]) nofun, fun s h hh => ?_⟩, fun b s ht hrh => ?_⟩
  · obtain ⟨tx, u, hu, fu, iu, htx⟩ := sendCommand_total h c s
    have hend : ∀ {st v}, readRaw h c s = .ok st v → exec (.readraw c.code) s = .next (advance v) :=
      fun hrun => exec_completes (body_readraw c) hh (op_bind_ok hrun) rfl
    refine ⟨advance u, tx, exec_completes (body_sendcmd c) hh (op_bind_ok hu) rfl, htx, fun hne => ?_, ?_⟩
    · rw [hend (readRaw_notAcknowledged h c s u tx hu hne), ← statusOfTx_eq hne]
      cases c <;> rfl
    rintro rfl
    obtain ⟨w, v, hv, fv, iv, hw⟩ := waitReady_total h u iu
    have fuv := fu.trans fv
    have hwait := exec_completes_at (i := .wait) rfl (pcBlind_discard pcBlind_waitReady) (fu.handle.trans hh)
      (op_bind_ok hv)
    refine ⟨_, w, hwait _, hw, ?_, ?_⟩
    · rintro rfl
      rw [hend (readRaw_timeout h c s u v hu hv), advance_recordedExchange c _ _ fuv.pc]
    · rintro rfl
      obtain ⟨d, x, hx, fx, ix, hd⟩ := shiftIn16_total h v iv
      obtain ⟨y, hy, fy, -, hyd⟩ := crcSkip_total h x ix
      have fux := fuv.trans fx
      have hread := exec_completes_at (i := .read16) rfl (pcBlind_discard pcBlind_shiftIn16) (fuv.handle.trans hh)
        (op_bind_ok hx)
      have hskip := exec_completes_at (i := .crcskip) rfl pcBlind_crcSkip (fux.handle.trans hh) hy
      refine ⟨_, _, d, hread _, hskip _, hyd.trans hd, ?_⟩
      rw [hend (readRaw_ready h c s u v x y d hu hv hx hy), advance_recordedExchange c _ _ (fux.trans fy).pc]
  · have hb := ofCode_eq_none ht hrh
    exact ⟨decode_encode_badOperand (i := .readraw b) (Option.map_eq_none_iff.mpr (commandOperand_append_eq_none _ hb)),
      exec_badOperand s rfl hb⟩

/-- The events of a `SENDCMD` (R136). -/
theorem sendEvents_length (h : Handle) (b : Byte) (a0 a1 : Level) : (sendEvents h b a0 a1).length = 71 := rfl

/-- Settles O37: the first sample fails its phase, so the exchange ends with what `SENDCMD` left. -/
theorem unacknowledgedExchangeStops : Obligations.UnacknowledgedExchangeStops := by
  intro c s h hh hhi
  have hack (a1 : Level) : ackStatus .hi a1 = .eAck0 := by simp [ackStatus]
  have hsend := sendCommand_run h c s
  simp only [hhi, hack] at hsend
  have hrun := readRaw_notAcknowledged h c s _ _ hsend (by simp)
  have htrace (a1 : Level) : s.trace ++ sendEvents h c.code .hi a1 =
      s.trace ++ startEvents h ++ commandEvents h c.code ++ ackEvents h .hi a1 := by
    simp only [sendEvents, List.append_assoc]
  have hlength (a1 : Level) : (s.trace ++ sendEvents h c.code .hi a1).length = s.trace.length + 71 := by
    rw [List.length_append, sendEvents_length]
  refine ⟨_, (drawLevel (drawLevel s.env).2).1, exec_completes (body_readraw c) hh (op_bind_ok hrun) rfl, ?_⟩
  cases c with
  | measT => exact ⟨rfl, htrace _, hlength _, rfl, rfl, rfl, fun _ => ⟨rfl, rfl⟩, nofun⟩
  | measRH => exact ⟨rfl, htrace _, hlength _, rfl, rfl, rfl, nofun, fun _ => ⟨rfl, rfl⟩⟩

end Sys2Proof.Machine
end

section
/-! An exchange whose environment is scripted (R87, R118): what the draws take off the scripts, and the wait on a clock
that host duty HD2 allows. -/

namespace Sys2Proof.Machine

variable {h : Handle}

/-! ## Scripts -/

theorem drawLevel_script {e : Env} {l : Level} {rest : List Level} (he : e.levels = l :: rest) :
    (drawLevel e).1 = l ∧ (drawLevel e).2.levels = rest := by
  simp [drawLevel, he]

theorem drawCount_script {e : Env} {t : Millis} {rest : List Millis} (he : e.counts = t :: rest) :
    (drawCount e).1 = t ∧ (drawCount e).2.counts = rest := by
  simp [drawCount, he]

@[simp] theorem drawLevels_counts (n : Nat) (e : Env) : (drawLevels n e).2.counts = e.counts := by
  induction n generalizing e with
  | zero => rfl
  | succ n ih => rw [drawLevels, ih, drawLevel_counts]

/-- Levels that stand first in the sensor's script are the levels drawn. -/
theorem drawLevels_script {n : Nat} {ls rest : List Level} {e : Env} (hn : ls.length = n) (he : e.levels = ls ++ rest) :
    (drawLevels n e).1 = ls ∧ (drawLevels n e).2.levels = rest := by
  subst hn
  induction ls generalizing e with
  | nil => exact ⟨rfl, he⟩
  | cons l ls ih =>
    obtain ⟨hl, hrest⟩ := drawLevel_script he
    obtain ⟨hls, hafter⟩ := ih hrest
    exact ⟨congrArg₂ List.cons hl hls, hafter⟩

/-! ## The wait -/

/-- A poll that sees `L` ends the wait (R81). -/
theorem waitPolls_ready (t0 last : Millis) (n : Nat) {s : State} (hl : (drawLevel s.env).1 = .lo) :
    waitPolls h t0 (n + 1) last s =
      .ok .ready { s with trace := s.trace ++ readyPollEvents h, env := (drawLevel s.env).2 } := by
  simp [waitPolls, op_bind, delayMs, emit_run, readPin_run, hl, op_pure, readyPollEvents, hostPin]

/-- A poll that sees `H` and does not time out is followed by the next one (R81). -/
theorem waitPolls_busy (t0 last : Millis) (n : Nat) {s : State} {t : Millis}
    (hl : (drawLevel s.env).1 = .hi) (ht : hd2Draw t0 last (drawCount (drawLevel s.env).2).1 = t)
    (hto : timedOut t0 t = false) :
    waitPolls h t0 (n + 1) last s = waitPolls h t0 n t { s with
      trace := s.trace ++ busyPollEvents h t, env := (drawCount (drawLevel s.env).2).2 } := by
  simp [waitPolls, op_bind, delayMs, emit_run, readPin_run, millisBounded_run, hl, ht, hto, busyPollEvents, hostPin]

/-- Host duty HD2 of an event list holds of its end. -/
theorem hostDuty2_of_append {es fs : List Event} (hd : HostDuty2 (es ++ fs)) : HostDuty2 fs :=
  fun before between after ta tb he => hd (es ++ before) between after ta tb (by rw [he, List.append_assoc])

/-- The counts of busy polls that keep HD2, none of them timed out, are one after another as HD2 allows them. -/
theorem hd2Chain_of_hostDuty2 {t0 last : Millis} {busy : List Millis} (hlast : timedOut t0 last = false)
    (hbusy : ∀ t ∈ busy, timedOut t0 t = false)
    (hd : HostDuty2 (.millis last :: busy.flatMap (busyPollEvents h))) : Hd2Chain t0 last busy := by
  induction busy generalizing last with
  | nil => trivial
  | cons t rest ih =>
    obtain ⟨ht, hrest⟩ := List.forall_mem_cons.mp hbusy
    obtain ⟨hge, hlt⟩ := hd [] [.delayMs Config.pollMs, .read h.dpin .hi] (rest.flatMap (busyPollEvents h)) last t rfl
    have hlast1000 := timedOut_eq_false.mp hlast
    have ht1000 := timedOut_eq_false.mp ht
    simp only [Config.timeoutMs] at hlt
    have hadd := elapsed_add t0 last t (by omega)
    exact ⟨hge, by simp only [Config.timeoutMs]; omega,
      ih ht hrest (hostDuty2_of_append (es := [.millis last, .delayMs Config.pollMs, .read h.dpin .hi]) hd)⟩

/-- A wait on scripts whose clock HD2 allows and that are ready before they time out: the counts drawn are the clock's,
and both scripts are consumed up to the ready poll (R81, R119). -/
theorem waitPolls_script {t0 last : Millis} {busy moreCounts : List Millis} {moreLevels : List Level} {n : Nat}
    {s : State} (hlast : timedOut t0 last = false) (hbusy : ∀ t ∈ busy, timedOut t0 t = false)
    (hchain : Hd2Chain t0 last busy) (hn : 1000 ≤ (last - t0).toNat + 10 * n)
    (hlevels : s.env.levels = List.replicate busy.length .hi ++ .lo :: moreLevels)
    (hcounts : s.env.counts = busy ++ moreCounts) :
    ∃ env, env.levels = moreLevels ∧ env.counts = moreCounts ∧
      waitPolls h t0 n last s = .ok .ready { s with
        trace := s.trace ++ busy.flatMap (busyPollEvents h) ++ readyPollEvents h, env := env } := by
  have hlast1000 := timedOut_eq_false.mp hlast
  obtain ⟨n, rfl⟩ : ∃ k, n = k + 1 := ⟨n - 1, by omega⟩
  induction busy generalizing last n s with
  | nil =>
    obtain ⟨hl, hrest⟩ := drawLevel_script hlevels
    exact ⟨_, hrest, (drawLevel_counts _).trans hcounts, by rw [waitPolls_ready t0 last n hl]; simp⟩
  | cons t rest ih =>
    obtain ⟨ht, hbusy⟩ := List.forall_mem_cons.mp hbusy
    obtain ⟨hgain, hmax, hchain⟩ := hchain
    obtain ⟨hl, hlevels⟩ := drawLevel_script hlevels
    obtain ⟨hc, hcounts⟩ := drawCount_script ((drawLevel_counts s.env).trans hcounts)
    have hdraw : hd2Draw t0 last (drawCount (drawLevel s.env).2).1 = t := by
      rw [hc]
      exact hd2Draw_allowed t0 last t (Bool.and_eq_true_iff.mpr ⟨decide_eq_true hgain, decide_eq_true hmax⟩)
    have ht1000 := timedOut_eq_false.mp ht
    simp only [Config.timeoutMs, Config.pollMs] at hmax hgain
    have hadd := elapsed_add t0 last t (by omega)
    obtain ⟨n, rfl⟩ : ∃ k, n = k + 1 := ⟨n - 1, by omega⟩
    rw [waitPolls_busy t0 last (n + 1) hl hdraw ht]
    obtain ⟨env, hle, hce, hrun⟩ := ih
      (s := { s with trace := s.trace ++ busyPollEvents h t, env := (drawCount (drawLevel s.env).2).2 })
      ht hbusy hchain ((drawCount_levels _).trans hlevels) hcounts ht1000 n (by omega)
    exact ⟨env, hle, hce, by rw [hrun]; simp⟩

/-! ## The phases of an exchange -/

/-- Appending events, driving pins, drawing, and writing the sample, wait and byte registers leave the rest alone. -/
theorem subFrame_of_engine (s : State) (events : List Event) (pins : Pins) (env : Env) (a0 a1 : Option Level)
    (txst : Option TxStatus) (wst : Option WaitStatus) (byte : Option Byte) (d16 : Option Raw) :
    SubFrame s { s with
      trace := s.trace ++ events, pins := pins, env := env
      regs := { s.regs with a0 := a0, a1 := a1, txst := txst, wst := wst, byte := byte, d16 := d16 } } :=
  ⟨rfl, rfl, rfl, rfl, rfl, rfl, rfl, rfl, rfl, rfl, rfl, rfl, rfl, rfl, events, rfl⟩

/-- What a phase of a scripted exchange leaves: its frame, SCK driven, so many events more, and the rest of the two
scripts. -/
structure PhaseLeaves (s t : State) (events : Nat) (levels : List Level) (counts : List Millis) : Prop where
  frame : SubFrame s t
  clock : t.pins.modeC = some .out
  events : t.trace.length = s.trace.length + events
  levels : t.env.levels = levels
  counts : t.env.counts = counts

/-- A `SENDCMD` that the sensor acknowledges. -/
theorem sendCommand_script (c : Command) {s : State} {levels : List Level}
    (hlevels : s.env.levels = .lo :: .hi :: levels) :
    ∃ u, sendCommand h c s = .ok .ok u ∧ PhaseLeaves s u 71 levels s.env.counts := by
  obtain ⟨h0, hrest⟩ := drawLevel_script hlevels
  obtain ⟨h1, hafter⟩ := drawLevel_script hrest
  have hack : ackStatus (drawLevel s.env).1 (drawLevel (drawLevel s.env).2).1 = .ok := by rw [h0, h1]; rfl
  refine ⟨_, (sendCommand_run h c s).trans (congrArg (EStateM.Result.ok · _) hack), ?_, rfl, ?_, hafter, by simp⟩
  · exact subFrame_of_engine ..
  · exact List.length_append

theorem busyPolls_length (busy : List Millis) : (busy.flatMap (busyPollEvents h)).length = 3 * busy.length := by
  induction busy with
  | nil => rfl
  | cons t rest ih =>
    rw [List.flatMap_cons, List.length_append, ih, List.length_cons, Nat.mul_succ, Nat.add_comm]
    rfl

/-- A `WAIT` that is ready at the poll after the busy ones. -/
theorem waitReady_script {s : State} {t0 : Millis} {busy moreCounts : List Millis} {moreLevels : List Level}
    (hclock : s.pins.modeC = some .out) (hbusy : ∀ t ∈ busy, timedOut t0 t = false)
    (hduty : HostDuty2 (.millis t0 :: busy.flatMap (busyPollEvents h)))
    (hlevels : s.env.levels = List.replicate busy.length .hi ++ .lo :: moreLevels)
    (hcounts : s.env.counts = t0 :: (busy ++ moreCounts)) :
    ∃ v, waitReady h s = .ok .ready v ∧ PhaseLeaves s v (3 * busy.length + 4) moreLevels moreCounts := by
  obtain ⟨rfl, hrest⟩ := drawCount_script hcounts
  have h0 : timedOut (drawCount s.env).1 (drawCount s.env).1 = false := by simp [timedOut, Config.timeoutMs]
  obtain ⟨env, hle, hce, hrun⟩ := waitPolls_script (n := maxPolls)
    (s := { s with
      trace := s.trace ++ [.setMode h.dpin .inputPullup] ++ [.millis (drawCount s.env).1]
      pins := { s.pins with modeD := some .inputPullup }, env := (drawCount s.env).2 })
    h0 hbusy (hd2Chain_of_hostDuty2 h0 hbusy hduty) (by simp [maxPolls, Config.timeoutMs, Config.pollMs])
    ((drawCount_levels _).trans hlevels) hrest
  refine ⟨_, (op_bind_ok (setMode_run h .data .inputPullup s)).trans ((op_bind_ok (millisBounded_run id _)).trans
    ((op_bind_ok hrun).trans (op_bind_ok (writeRegs_run _ _)))), ?_, hclock, ?_, hle, hce⟩
  · simp only [List.append_assoc]
    exact subFrame_of_engine ..
  · simp only [List.length_append, busyPolls_length]
    simp [readyPollEvents]
    omega

/-- Different bytes have different bits. -/
theorem bitsMsbFirst_injective : Function.Injective bitsMsbFirst := by
  have hlevel : ∀ {a b : Bool}, levelOfBit a = levelOfBit b → a = b := by decide
  intro a b hab
  simp only [bitsMsbFirst, List.cons.injEq] at hab
  obtain ⟨h7, h6, h5, h4, h3, h2, h1, h0, -⟩ := hab
  refine BitVec.eq_of_getLsbD_eq fun i hi => hlevel ?_
  interval_cases i <;> assumption

/-- The byte of a byte's bits is that byte. -/
theorem byteOfSamples_bitsMsbFirst (b : Byte) : byteOfSamples (bitsMsbFirst b) = b :=
  bitsMsbFirst_injective (bitsMsbFirst_byteOfSamples _ rfl)

theorem sampleEvents_length (h : Handle) (ls : List Level) : (sampleEvents h ls).length = 5 * ls.length := by
  induction ls with
  | nil => rfl
  | cons l ls ih =>
    rw [sampleEvents, List.flatMap_cons, List.length_append, ← sampleEvents, ih, List.length_cons, Nat.mul_succ,
      Nat.add_comm]
    rfl

theorem read16Events_length (h : Handle) (b0 b1 : List Level) (h0 : b0.length = 8) (h1 : b1.length = 8) :
    (read16Events h b0 b1).length = 89 := by
  simp only [read16Events, List.length_append, sampleEvents_length, h0, h1]
  rfl

/-- A `READ16` of the two bytes that stand in the script. -/
theorem shiftIn16_script {s : State} {hi lo : Byte} {moreLevels : List Level} (hclock : s.pins.modeC = some .out)
    (hlevels : s.env.levels = bitsMsbFirst hi ++ (bitsMsbFirst lo ++ moreLevels)) :
    ∃ x, shiftIn16 h s = .ok (rawOfBytes hi lo) x ∧ PhaseLeaves s x 89 moreLevels s.env.counts ∧
      x.regs.byte = some lo ∧ x.regs.d16 = some (rawOfBytes hi lo) := by
  obtain ⟨hhi, hrest⟩ := drawLevels_script (n := 8) rfl hlevels
  obtain ⟨hlo, hafter⟩ := drawLevels_script (n := 8) rfl hrest
  have hrun := shiftIn16_run h s hclock
  simp only [hhi, hlo, byteOfSamples_bitsMsbFirst] at hrun
  have hlength : (s.trace ++ read16Events h (bitsMsbFirst hi) (bitsMsbFirst lo)).length = s.trace.length + 89 := by
    rw [List.length_append, read16Events_length h _ _ rfl rfl]
  exact ⟨_, hrun, ⟨subFrame_of_engine .., hclock, hlength, hafter, by simp⟩, rfl, rfl⟩

/-- Settles O38: the phases take their levels and counts off the scripts in turn, and `CRCSKIP` takes none. -/
theorem conformingSensorIsRead : Obligations.ConformingSensorIsRead := by
  intro c s h hi lo t0 busy moreCounts moreLevels hh hlevels hcounts hbusy hduty
  have hscript : s.env.levels = .lo :: .hi :: (List.replicate busy.length .hi ++
      .lo :: (bitsMsbFirst hi ++ (bitsMsbFirst lo ++ moreLevels))) := by
    simp [hlevels, conformingScript]
  obtain ⟨u, hu, pu⟩ := sendCommand_script (h := h) c hscript
  obtain ⟨v, hv, pv⟩ := waitReady_script pu.clock (fun t ht => timedOut_eq_false.mpr (hbusy t ht)) hduty pu.levels
    (pu.counts.trans hcounts)
  obtain ⟨x, hx, px, hbyte, hd16⟩ := shiftIn16_script (h := h) pv.clock pv.levels
  have hrun := readRaw_ready h c s u v x _ _ hu hv hx (crcSkip_run h x px.clock)
  have hf := (pu.frame.trans pv.frame).trans px.frame
  have hlength : (x.trace ++ crcSkipEvents h).length = s.trace.length + (3 * (busy.length + 1) + 168) := by
    rw [List.length_append, px.events, pv.events, pu.events]
    simp [crcSkipEvents, edgeEvents]
    omega
  have hpins : ({ x.pins with modeD := some .out, latD := some .hi, latC := some .lo } : Pins) =
      { modeD := some .out, modeC := some .out, latD := some .hi, latC := some .lo } := by
    simp only [px.clock]
  refine ⟨_, exec_completes (body_readraw c) hh (op_bind_ok hrun) rfl, ?_⟩
  cases c with
  | measT =>
    exact ⟨congrArg (· + 1) hf.pc, hf.fault, hf.refused, hlength, px.levels, px.counts.trans pv.counts, hd16, hbyte,
      hpins, fun _ => ⟨rfl, rfl, hf.rstH, hf.rawH⟩, nofun⟩
  | measRH =>
    exact ⟨congrArg (· + 1) hf.pc, hf.fault, hf.refused, hlength, px.levels, px.counts.trans pv.counts, hd16, hbyte,
      hpins, nofun, fun _ => ⟨rfl, rfl, hf.rstT, hf.rawT⟩⟩

end Sys2Proof.Machine
end

section
/-! The events of the protocol operations in line changes and their delays (R76): the frames of R64 are made of whole
edges, so what an operation appends is, wherever it ends. -/

namespace Sys2Proof.Machine

open Sys2Proof.Claims

/-! ## Event lists made of whole edges -/

/-- Every `Write` is followed at once by `DelayUs(T_EDGE_US)`, and there is no other `DelayUs`. -/
def Edged : List Event → Prop
  | .write _ _ :: .delayUs n :: rest => n = Config.tEdgeUs ∧ Edged rest
  | .write _ _ :: _ => False
  | .delayUs _ :: _ => False
  | _ :: rest => Edged rest
  | [] => True

/-- An event that is neither a `Write` nor a `DelayUs` stands for itself. -/
theorem edged_cons {e : Event} {es : List Event} (hw : ∀ p l, e ≠ .write p l) (hd : ∀ n, e ≠ .delayUs n) :
    Edged (e :: es) ↔ Edged es := by
  cases e with
  | write p l => exact absurd rfl (hw p l)
  | delayUs n => exact absurd rfl (hd n)
  | setMode | read | delayMs | millis => exact Iff.rfl

theorem Edged.append {es fs : List Event} (he : Edged es) (hf : Edged fs) : Edged (es ++ fs) := by
  fun_induction Edged es with
  | case1 p l n rest ih => exact ⟨he.1, ih he.2⟩
  | case2 | case3 => exact he.elim
  | case4 e rest _ hw hd ih => exact (edged_cons hw hd).mpr (ih he)
  | case5 => exact hf

theorem edged_flatMap {α : Type} {f : α → List Event} (hf : ∀ a, Edged (f a)) (l : List α) : Edged (l.flatMap f) := by
  induction l with
  | nil => trivial
  | cons a l ih => exact (hf a).append ih

/-- An event in such a list that is a `Write` has its delay after it, and one that is a `DelayUs` is the delay of the
`Write` before it. -/
theorem Edged.neighbours {es : List Event} (he : Edged es) {before after : List Event} {e : Event}
    (hes : es = before ++ e :: after) :
    (∀ p l, e = .write p l → ∃ rest, after = .delayUs Config.tEdgeUs :: rest) ∧
    (∀ n, e = .delayUs n → n = Config.tEdgeUs ∧ ∃ rest p l, before = rest ++ [.write p l]) := by
  fun_induction Edged es generalizing before with
  | case1 p l n rest ih =>
    obtain ⟨rfl, hrest⟩ := he
    match before with
    | [] =>
      cases hes
      exact ⟨fun _ _ _ => ⟨rest, rfl⟩, nofun⟩
    | [_] =>
      cases hes
      exact ⟨nofun, fun _ hn => by cases hn; exact ⟨rfl, [], p, l, rfl⟩⟩
    | a :: b :: before =>
      obtain ⟨rfl, rfl, rfl⟩ : a = .write p l ∧ b = .delayUs Config.tEdgeUs ∧ rest = before ++ e :: after := by
        simpa [eq_comm] using hes
      obtain ⟨hwrite, hdelay⟩ := ih hrest rfl
      exact ⟨hwrite, fun n hn => (hdelay n hn).imp_right fun ⟨start, q, k, hb⟩ =>
        ⟨_ :: _ :: start, q, k, congrArg (_ :: _ :: ·) hb⟩⟩
  | case2 | case3 => exact he.elim
  | case4 e' rest _ hw hd ih =>
    match before with
    | [] =>
      cases hes
      exact ⟨fun p l he' => (hw p l he').elim, fun n he' => (hd n he').elim⟩
    | a :: before =>
      cases hes
      obtain ⟨hwrite, hdelay⟩ := ih he rfl
      exact ⟨hwrite, fun n hn => (hdelay n hn).imp_right fun ⟨start, q, k, hb⟩ =>
        ⟨_ :: start, q, k, congrArg (_ :: ·) hb⟩⟩
  | case5 => simp at hes

/-! ## The frames -/

theorem edged_edgeEvents (h : Handle) (p : Pin) (l : Level) : Edged (edgeEvents h p l) := ⟨rfl, trivial⟩

theorem edged_setMode (p : Byte) (m : PinMode) : Edged [.setMode p m] := trivial

theorem edged_startEvents (h : Handle) : Edged (startEvents h) := by
  simp [startEvents, edgeEvents, Edged]

theorem edged_commandEvents (h : Handle) (b : Byte) : Edged (commandEvents h b) :=
  edged_flatMap (fun _ => by simp [driveBitEvents, edgeEvents, Edged]) _

theorem edged_ackEvents (h : Handle) (a0 a1 : Level) : Edged (ackEvents h a0 a1) := by
  simp [ackEvents, edgeEvents, Edged]

theorem edged_sendEvents (h : Handle) (b : Byte) (a0 a1 : Level) : Edged (sendEvents h b a0 a1) :=
  ((edged_startEvents h).append (edged_commandEvents h b)).append (edged_ackEvents h a0 a1)

theorem edged_busyPolls (h : Handle) (ts : List Millis) : Edged (ts.flatMap (busyPollEvents h)) :=
  edged_flatMap (fun _ => by simp [busyPollEvents, Edged]) _

theorem edged_readyPollEvents (h : Handle) : Edged (readyPollEvents h) := by simp [readyPollEvents, Edged]

theorem edged_sampleEvents (h : Handle) (ls : List Level) : Edged (sampleEvents h ls) :=
  edged_flatMap (fun _ => by simp [sampleBitEvents, edgeEvents, Edged]) _

theorem edged_midAckEvents (h : Handle) : Edged (midAckEvents h) := by simp [midAckEvents, edgeEvents, Edged]

theorem edged_crcSkipEvents (h : Handle) : Edged (crcSkipEvents h) := by simp [crcSkipEvents, edgeEvents, Edged]

theorem edged_read16Events (h : Handle) (b0 b1 : List Level) : Edged (read16Events h b0 b1) :=
  ((((edged_setMode _ _).append (edged_sampleEvents h b0)).append (edged_midAckEvents h)).append
    (edged_setMode _ _)).append (edged_sampleEvents h b1)

/-! ## The operations -/

/-- Since some trace, whole edges have been appended. -/
def AppendsEdges (trace : List Event) (s : State) : Prop := ∃ es, s.trace = trace ++ es ∧ Edged es

variable {h : Handle} {trace : List Event}

/-- It suffices that an operation appends whole edges however it ends. -/
theorem keepsEdges_of_ends {α : Type} {x : Op α} (hx : ∀ s, ∃ es t, ((∃ a, x s = .ok a t) ∨ ∃ e, x s = .error e t) ∧
    t.trace = s.trace ++ es ∧ Edged es) : Keeps (AppendsEdges trace) x := by
  refine ⟨fun s ⟨fs, hfs, hedged⟩ => ?_⟩
  obtain ⟨es, t, hend, ht, hes⟩ := hx s
  have hend' : AppendsEdges trace t := ⟨fs ++ es, by rw [ht, hfs, List.append_assoc], hedged.append hes⟩
  rcases hend with ⟨a, ha⟩ | ⟨e, he⟩
  · rw [ha]; exact hend'
  · rw [he]; exact hend'

theorem keepsEdges_startSeq : Keeps (AppendsEdges trace) (startSeq h) :=
  keepsEdges_of_ends fun s => ⟨_, _, .inl ⟨_, startSeq_run h s⟩, rfl, edged_startEvents h⟩

theorem keepsEdges_shiftOut8 (b : Byte) : Keeps (AppendsEdges trace) (shiftOut8 h b) := by
  refine keepsEdges_of_ends fun s => ?_
  by_cases hd : s.pins.modeD = some .out
  · by_cases hc : s.pins.modeC = some .out
    · exact ⟨_, _, .inl ⟨_, shiftOut8_run h b s hd hc⟩, rfl, edged_commandEvents h b⟩
    · exact ⟨_, _, .inr ⟨_, shiftOut8_clockNotOut b hd hc⟩, rfl, edged_edgeEvents h .data _⟩
  · exact ⟨[], _, .inr ⟨_, shiftOut8_dataNotOut b hd⟩, (List.append_nil _).symm, trivial⟩

theorem keepsEdges_ackClock : Keeps (AppendsEdges trace) (ackClock h) := by
  refine keepsEdges_of_ends fun s => ?_
  by_cases hc : s.pins.modeC = some .out
  · exact ⟨_, _, .inl ⟨_, ackClock_run h s hc⟩, rfl, edged_ackEvents h _ _⟩
  · exact ⟨_, _, .inr ⟨_, ackClock_clockNotOut hc⟩, rfl, edged_setMode _ _⟩

theorem keepsEdges_sendCommand (c : Command) : Keeps (AppendsEdges trace) (sendCommand h c) :=
  keepsEdges_of_ends fun s => ⟨_, _, .inl ⟨_, sendCommand_run h c s⟩, rfl, edged_sendEvents h c.code _ _⟩

theorem keepsEdges_waitReady : Keeps (AppendsEdges trace) (waitReady h) := by
  refine keepsEdges_of_ends fun s => ?_
  have hpolls (busy : List Millis) : Edged ([.setMode h.dpin .inputPullup, .millis (drawCount s.env).1]
      ++ busy.flatMap (busyPollEvents h)) := edged_busyPolls h busy
  obtain ⟨busy, env, -, -, -, ⟨-, -, -, -, -, hrun⟩ | ⟨_, _, -, -, -, -, -, -, hrun⟩⟩ := waitReady_cases h s
  · exact ⟨_, _, .inl ⟨_, hrun⟩, by simp only [List.append_assoc], (hpolls busy).append (edged_readyPollEvents h)⟩
  · exact ⟨_, _, .inl ⟨_, hrun⟩, by simp only [List.append_assoc], hpolls busy⟩

theorem keepsEdges_shiftIn8 : Keeps (AppendsEdges trace) (shiftIn8 h) := by
  refine keepsEdges_of_ends fun s => ?_
  by_cases hc : s.pins.modeC = some .out
  · exact ⟨_, _, .inl ⟨_, shiftIn8_run h s hc⟩, rfl, edged_sampleEvents h _⟩
  · exact ⟨[], _, .inr ⟨_, shiftIn8_clockNotOut hc⟩, (List.append_nil _).symm, trivial⟩

theorem keepsEdges_midAck : Keeps (AppendsEdges trace) (midAck h) := by
  refine keepsEdges_of_ends fun s => ?_
  by_cases hc : s.pins.modeC = some .out
  · exact ⟨_, _, .inl ⟨_, midAck_run h s hc⟩, rfl, edged_midAckEvents h⟩
  · exact ⟨_, _, .inr ⟨_, midAck_clockNotOut hc⟩, rfl, edged_edgeEvents h .data .lo⟩

theorem keepsEdges_shiftIn16 : Keeps (AppendsEdges trace) (shiftIn16 h) := by
  refine keepsEdges_of_ends fun s => ?_
  by_cases hc : s.pins.modeC = some .out
  · exact ⟨_, _, .inl ⟨_, shiftIn16_run h s hc⟩, rfl, edged_read16Events h _ _⟩
  · exact ⟨_, _, .inr ⟨_, shiftIn16_clockNotOut hc⟩, rfl, edged_setMode _ _⟩

theorem keepsEdges_crcSkip : Keeps (AppendsEdges trace) (crcSkip h) := by
  refine keepsEdges_of_ends fun s => ?_
  by_cases hc : s.pins.modeC = some .out
  · exact ⟨_, _, .inl ⟨_, crcSkip_run h s hc⟩, rfl, edged_crcSkipEvents h⟩
  · exact ⟨_, _, .inr ⟨_, crcSkip_clockNotOut hc⟩, rfl, edged_edgeEvents h .data .hi⟩

theorem keepsEdges_recordExchange (c : Command) (st : Status) (raw : Option Raw) :
    Keeps (AppendsEdges trace) (recordExchange c st raw) := by
  cases c <;> exact ⟨fun _ hs => hs⟩

theorem keepsEdges_readRaw (c : Command) : Keeps (AppendsEdges trace) (readRaw h c) := by
  refine keeps_bind (keepsEdges_sendCommand c) fun tx => ?_
  split
  · exact keepsEdges_recordExchange _ _ _
  · refine keeps_bind keepsEdges_waitReady fun w => ?_
    split
    · exact keepsEdges_recordExchange _ _ _
    · exact keeps_bind keepsEdges_shiftIn16 fun _ => keeps_bind keepsEdges_crcSkip fun _ =>
        keepsEdges_recordExchange _ _ _

theorem keepsEdges_convCelsius : Keeps (AppendsEdges trace) (convCelsius h) := keeps_convCelsius fun _ _ hs => hs

theorem keepsEdges_readHumidity : Keeps (AppendsEdges trace) (readHumidity h) := by
  refine keeps_bind (keepsEdges_readRaw _) fun st => ?_
  split
  · exact ⟨fun _ hs => hs⟩
  · exact keeps_bind (keepsEdges_readRaw _) fun _ => keeps_bind keepsEdges_convCelsius fun _ =>
      keeps_convHumidity fun _ _ hs => hs

theorem keepsEdges_withHandle {code : Handle → Op Unit} (hcode : ∀ h, Keeps (AppendsEdges trace) (code h)) :
    Keeps (AppendsEdges trace) (withHandle code) := by
  refine ⟨fun s hs => ?_⟩
  cases hh : s.handle with
  | none => rw [withHandle_none code s hh]; exact hs
  | some h => rw [withHandle_some code s h hh]; exact (hcode h).ends s hs

/-- An operation run for its effects, its result dropped. -/
theorem keeps_discard {α : Type} {P : State → Prop} {x : Op α} (hx : Keeps P x) : Keeps P (do let _ ← x) :=
  keeps_bind hx fun _ => keeps_pure P _

theorem keepsEdges_body {i : Instr} (hi : isProtocol i = true) : Keeps (AppendsEdges trace) (body i) := by
  cases i with
  | setmode | write | read | dlyUs | dlyMs | millis | convC | convF | convRh | construct => cases hi
  | start => exact keepsEdges_withHandle fun _ => keepsEdges_startSeq
  | shiftout8 b => exact keepsEdges_withHandle fun _ => keepsEdges_shiftOut8 b
  | ack => exact keepsEdges_withHandle fun _ => keeps_discard keepsEdges_ackClock
  | sendcmd b =>
    exact keeps_bind (keeps_requireCommand _ b) fun c =>
      keepsEdges_withHandle fun _ => keeps_discard (keepsEdges_sendCommand c)
  | wait => exact keepsEdges_withHandle fun _ => keeps_discard keepsEdges_waitReady
  | shiftin8 => exact keepsEdges_withHandle fun _ => keeps_discard keepsEdges_shiftIn8
  | midack => exact keepsEdges_withHandle fun _ => keepsEdges_midAck
  | read16 => exact keepsEdges_withHandle fun _ => keeps_discard keepsEdges_shiftIn16
  | crcskip => exact keepsEdges_withHandle fun _ => keepsEdges_crcSkip
  | readraw b =>
    exact keeps_bind (keeps_requireCommand _ b) fun c =>
      keepsEdges_withHandle fun _ => keeps_discard (keepsEdges_readRaw c)
  | readC => exact keepsEdges_withHandle fun _ => keeps_bind (keepsEdges_readRaw _) fun _ => keepsEdges_convCelsius
  | readF =>
    exact keepsEdges_withHandle fun _ => keeps_bind (keepsEdges_readRaw _) fun _ =>
      keeps_convFahrenheit fun _ _ hs => hs
  | readRh => exact keepsEdges_withHandle fun _ => keepsEdges_readHumidity

/-- Settles O18: the events appended are whole edges among others, and so are the neighbours of each. -/
theorem protocolWritesAreEdges : Obligations.ProtocolWritesAreEdges := by
  intro i s t hi ht
  rw [exec_eq_finish] at ht
  obtain ⟨u, ⟨events, hevents, hedged⟩, hend⟩ :=
    keeps_finish (P := AppendsEdges s.trace) (keepsEdges_body hi) ⟨[], (List.append_nil _).symm, trivial⟩ ht
  refine ⟨events, ?_, fun before p l after he => (hedged.neighbours he).1 p l rfl,
    fun before n after he => (hedged.neighbours he).2 n rfl⟩
  rcases hend with rfl | ⟨f, rfl⟩ | rfl <;> exact hevents

end Sys2Proof.Machine
end

section
/-! The conversions as operations of their own (R92 to R94): each is spelled and guarded, and with a handle ends as its
pseudocode says; then the source's own formula (R89) and the default tables (R90). -/

namespace Sys2Proof.Machine

open Sys2Proof.Claims

variable {i : Instr} {s t : State} {h : Handle}

/-- An operation whose pseudocode is refused under the handle records it (R106 (c)). -/
theorem exec_refuses {code : Handle → Op Unit} (hi : body i = withHandle code) (hh : s.handle = some h)
    (hrun : code h s = .error .refuse t) : exec i s = .next (takeRefusal t) := by
  rw [exec_eq_finish, hi]
  exact finish_refuse ((withHandle_some code s h hh).trans hrun)

/-- `CONV_C` after a successful exchange, with its two coefficients. -/
theorem exec_convC_value {raw : Raw} {d1 d2 : Decimal} (hh : s.handle = some h) (hr : s.regs.rstT = some .ok)
    (hw : s.regs.rawT = some raw) (h1 : s.coeff.d1c.get h.v = some d1) (h2 : s.coeff.d2c.get h.t = some d2) :
    exec .convC s = .next { s with pc := s.pc + 1, regs := { s.regs with
      out := some (.val (affine d1 d2 raw)), tc := some (.val (affine d1 d2 raw)) } } :=
  exec_completes rfl hh (convCelsius_value h s raw hr hw _ (celsius_some _ _ _ _ d1 d2 h1 h2)) rfl

/-- Settles O40: the cases of the pseudocode are the ends of `convCelsius`, under the handle. -/
theorem convCComputesCelsius : Obligations.ConvCComputesCelsius :=
  ⟨spelledAndGuarded rfl rfl nofun, fun s h hh =>
    ⟨fun hr => exec_faults rfl hh (convCelsius_unwritten h s hr),
      fun st hr ho => exec_completes rfl hh (convCelsius_failed h s st hr ho) rfl,
      fun raw hr hw => ⟨fun _ _ h1 h2 => exec_convC_value hh hr hw h1 h2,
        fun hn => exec_refuses rfl hh (convCelsius_refused h s raw hr hw ((celsius_eq_none _ _ _ _).mpr hn))⟩⟩⟩

/-- Settles O41: as O40, with the ends of `convFahrenheit`. -/
theorem convFComputesFahrenheit : Obligations.ConvFComputesFahrenheit :=
  ⟨spelledAndGuarded rfl rfl nofun, fun s h hh =>
    ⟨fun hr => exec_faults rfl hh (convFahrenheit_unwritten h s hr),
      fun st hr ho => exec_completes rfl hh (convFahrenheit_failed h s st hr ho) rfl,
      fun raw hr hw => ⟨fun d1 d2 h1 h2 =>
          exec_completes rfl hh (convFahrenheit_value h s raw hr hw _ (fahrenheit_some _ _ _ _ d1 d2 h1 h2)) rfl,
        fun hn => exec_refuses rfl hh (convFahrenheit_refused h s raw hr hw ((fahrenheit_eq_none _ _ _ _).mpr hn))⟩⟩⟩

/-- The constant 25.0 of the compensation term is a binary32 number (R94). -/
theorem lit_compensationBase : lit compensationBase = 0x41C80000#32 := rfl

/-- The humidity class lacks a coefficient exactly where the humidity formula has no value (R109). -/
theorem humidity_eq_none_iff_not_supplied (s : State) (h : Handle) (raw : Raw) (tc : F32) :
    humidity s.coeff h.h raw tc = none ↔ humiditySupplied s h = false := by
  simp only [humidity_eq_none, humiditySupplied, Bool.and_eq_false_iff, Option.isSome_eq_false_iff,
    Option.isNone_iff_eq_none, or_assoc]

/-- Settles O42: as O40, with the ends of `convHumidity`. -/
theorem convRhComputesHumidity : Obligations.ConvRhComputesHumidity := by
  refine ⟨spelledAndGuarded rfl rfl nofun, fun s h hh =>
    ⟨fun hr => exec_faults rfl hh (convHumidity_unwritten h s hr),
      fun st tc hr ht ho => exec_completes rfl hh (convHumidity_failed h s st tc hr ht ho) rfl,
      fun raw tc hr ht hw => ⟨fun c1 c2 c3 t1 t2 h1 h2 h3 h4 h5 => ?_,
        fun hn => exec_refuses rfl hh (convHumidity_refused h s raw tc hr ht hw
          ((humidity_eq_none_iff_not_supplied s h raw tc).mpr hn))⟩⟩⟩
  rw [← lit_compensationBase]
  exact exec_completes rfl hh (convHumidity_value h s raw tc hr ht hw _
    (humidity_some _ _ _ _ c1 c2 c3 t1 t2 h1 h2 h3 h4 h5)) rfl

/-- The two literals of the source as binary32 numbers (R89, W1). -/
theorem lit_sourceCoefficients : lit ⟨true, 397, 1⟩ = 0xC21ECCCD#32 ∧ lit ⟨false, 1, 2⟩ = 0x3C23D70A#32 :=
  ⟨rfl, rfl⟩

/-- Settles O43: it is the value of `CONV_C` at the two classes, with the source's literals. -/
theorem midRangeCelsiusIsTheSourceFormula : Obligations.MidRangeCelsiusIsTheSourceFormula := by
  intro s h raw hh hv ht h1 h2 hr hw
  obtain ⟨hlit1, hlit2⟩ := lit_sourceCoefficients
  rw [← hlit1, ← hlit2]
  exact exec_convC_value hh hr hw (hv ▸ h1) (ht ▸ h2)

/-- Settles O55: entry by entry; the sixth voltage class is the one whose entry is no decimal. -/
theorem coefficientStoreHoldsTheDefaults : Obligations.CoefficientStoreHoldsTheDefaults := by
  refine ⟨fun v d => ?_, ⟨rfl, rfl⟩, ⟨rfl, rfl⟩, ⟨rfl, rfl⟩, ⟨rfl, rfl⟩, ⟨rfl, rfl⟩, ⟨rfl, rfl⟩, ⟨rfl, rfl⟩⟩
  cases v <;> simp [State.reset, defaultCoefficients, ByVoltage.get, eq_comm]

end Sys2Proof.Machine
end

section
/-! Purity (R97): a conversion is a chain of register reads and writes, so what it does is a function of the registers,
the handle and the coefficients, and it changes the registers alone. -/

namespace Sys2Proof.Machine

/-- The end of an operation carried over to another state: its registers there, and nothing else of it. -/
def carryRegs {α : Type} (s : State) : EStateM.Result Stop State α → EStateM.Result Stop State α
  | .ok a t => .ok a { s with regs := t.regs }
  | .error e t => .error e { s with regs := t.regs }

/-- An operation in progress that is a function of the registers, the handle and the coefficients, and changes the
registers alone: from a state that agrees on the three it ends alike. At one state twice, this is its frame. -/
structure RegsFunction {α : Type} (x : Op α) : Prop where
  run : ∀ {s s' : State}, s.regs = s'.regs → s.handle = s'.handle → s.coeff = s'.coeff → x s' = carryRegs s' (x s)

theorem regsFunction_bind {α β : Type} {x : Op α} {f : α → Op β} (hx : RegsFunction x) (hf : ∀ a, RegsFunction (f a)) :
    RegsFunction (x >>= f) := by
  refine ⟨fun {s s'} hr hh hk => ?_⟩
  have hframe := hx.run (s := s) rfl rfl rfl
  have hcarry := hx.run hr hh hk
  cases hxs : x s with
  | error e t =>
    rw [hxs] at hcarry
    rw [op_bind_error hxs, op_bind_error hcarry]
    rfl
  | ok a t =>
    rw [hxs] at hcarry hframe
    have ht : t = { s with regs := t.regs } := by injection hframe
    rw [op_bind_ok hxs, op_bind_ok hcarry,
      (hf a).run (s := t) (s' := { s' with regs := t.regs }) rfl ((congrArg State.handle ht).trans hh)
        ((congrArg State.coeff ht).trans hk)]
    cases f a t <;> rfl

theorem regsFunction_operandReg {α : Type} (r : Regs → Option α) : RegsFunction (operandReg r) := by
  refine ⟨fun {s s'} hr _ _ => ?_⟩
  cases hv : r s.regs with
  | none => rw [operandReg_none r s hv, operandReg_none r s' (hr ▸ hv), carryRegs, hr]
  | some v => rw [operandReg_some r s v hv, operandReg_some r s' v (hr ▸ hv), carryRegs, hr]

theorem regsFunction_writeRegs (f : Regs → Regs) : RegsFunction (writeRegs f) :=
  ⟨fun hr _ _ => by rw [writeRegs_run, writeRegs_run, carryRegs, hr]⟩

theorem regsFunction_readCoefficients : RegsFunction readCoefficients :=
  ⟨fun hr _ hk => by rw [readCoefficients, readCoefficients, carryRegs, hr, hk]⟩

theorem regsFunction_valueOrRefuse (v : Option F32) : RegsFunction (valueOrRefuse v) := by
  refine ⟨fun hr _ _ => ?_⟩
  cases v <;> simp [valueOrRefuse, refuseOpenParam, op_pure, carryRegs, hr]

theorem regsFunction_requireHandle : RegsFunction requireHandle := by
  refine ⟨fun {s s'} hr hh _ => ?_⟩
  cases hv : s.handle with
  | none => rw [requireHandle_none s hv, requireHandle_none s' (hh ▸ hv), carryRegs, hr]
  | some h => rw [requireHandle_some s h hv, requireHandle_some s' h (hh ▸ hv), carryRegs, hr]

theorem regsFunction_withHandle {code : Handle → Op Unit} (hcode : ∀ h, RegsFunction (code h)) :
    RegsFunction (withHandle code) := regsFunction_bind regsFunction_requireHandle hcode

/-- The computing part that the three conversions share: a raw code and the coefficients, a value or the refusal, and
the registers the value is written to. -/
theorem regsFunction_compute (raw : Regs → Option Raw) (formula : Raw → Coefficients → Option F32)
    (write : F32 → Regs → Regs) :
    RegsFunction (do
      let raw ← operandReg raw
      let k ← readCoefficients
      let v ← valueOrRefuse (formula raw k)
      writeRegs (write v)) :=
  regsFunction_bind (regsFunction_operandReg _) fun _ => regsFunction_bind regsFunction_readCoefficients fun _ =>
    regsFunction_bind (regsFunction_valueOrRefuse _) fun _ => regsFunction_writeRegs _

theorem regsFunction_convCelsius (h : Handle) : RegsFunction (convCelsius h) := by
  refine regsFunction_bind (regsFunction_operandReg _) fun st => ?_
  split
  · exact regsFunction_writeRegs _
  · exact regsFunction_compute _ (fun raw k => celsius k h.v h.t raw) _

theorem regsFunction_convFahrenheit (h : Handle) : RegsFunction (convFahrenheit h) := by
  refine regsFunction_bind (regsFunction_operandReg _) fun st => ?_
  split
  · exact regsFunction_writeRegs _
  · exact regsFunction_compute _ (fun raw k => fahrenheit k h.v h.t raw) _

theorem regsFunction_convHumidity (h : Handle) : RegsFunction (convHumidity h) := by
  refine regsFunction_bind (regsFunction_operandReg _) fun st =>
    regsFunction_bind (regsFunction_operandReg _) fun tc => ?_
  split
  · exact regsFunction_compute _ (fun raw k => humidity k h.h raw _) _
  · exact regsFunction_writeRegs _

/-- Its frame: no event, no pin, no draw. -/
theorem RegsFunction.keeps_frame {x : Op Unit} (hx : RegsFunction x) (s : State) :
    Keeps (fun t => t.trace = s.trace ∧ t.pins = s.pins ∧ t.env = s.env) x := by
  refine ⟨fun u hu => ?_⟩
  rw [hx.run (s := u) rfl rfl rfl]
  cases x u <;> exact hu

/-- However it ends, the registers it leaves are the same from two states that agree on its arguments. -/
theorem RegsFunction.finish_regs {x : Op Unit} (hx : RegsFunction x) {s s' t t' : State} (hr : s.regs = s'.regs)
    (hh : s.handle = s'.handle) (hk : s.coeff = s'.coeff) (ht : finish x s = .next t) (ht' : finish x s' = .next t') :
    t.regs = t'.regs := by
  have hcarry := hx.run hr hh hk
  rcases finish_cases ht with ⟨u, hu, rfl⟩ | ⟨f, u, hu, rfl⟩ | ⟨u, hu, rfl⟩ <;> rw [hu] at hcarry
  · rw [finish_ok hcarry] at ht'; cases ht'; rfl
  · rw [finish_fault hcarry] at ht'; cases ht'; rfl
  · rw [finish_refuse hcarry] at ht'; cases ht'; rfl

/-- Settles O44: each conversion is a function of the registers, the handle and the coefficients. -/
theorem conversionsArePure : Obligations.ConversionsArePure := by
  intro i s s' t t' hi ht ht'
  have hbody : RegsFunction (body i) := by
    rcases hi with rfl | rfl | rfl
    · exact regsFunction_withHandle regsFunction_convCelsius
    · exact regsFunction_withHandle regsFunction_convFahrenheit
    · exact regsFunction_withHandle regsFunction_convHumidity
  rw [exec_eq_finish] at ht ht'
  refine ⟨?_, fun hr hh hk => hbody.finish_regs hr hh hk ht ht'⟩
  obtain ⟨u, hu, rfl | ⟨f, rfl⟩ | rfl⟩ := keeps_finish (hbody.keeps_frame s) ⟨rfl, rfl, rfl⟩ ht <;> exact hu

end Sys2Proof.Machine
end

section
/-! Error contagion (R96, R104): a conversion that completes after a failed exchange, or a failed temperature
sub-reading, leaves `Invalid`; a public operation ends with its conversion, so it leaves the same. -/

namespace Sys2Proof.Machine

variable {i : Instr} {h : Handle} {s t : State}

/-- Where an operation in progress completes, its registers have a property. -/
structure Ensures {α : Type} (Q : Regs → Prop) (x : Op α) : Prop where
  completes : ∀ {s t : State} {a : α}, x s = .ok a t → Q t.regs

theorem ensures_bind {α β : Type} {Q : Regs → Prop} {x : Op α} {f : α → Op β} (hf : ∀ a, Ensures Q (f a)) :
    Ensures Q (x >>= f) := by
  refine ⟨fun {s u b} hrun => ?_⟩
  cases hxs : x s with
  | ok a t => rw [op_bind_ok hxs] at hrun; exact (hf a).completes hrun
  | error e t => rw [op_bind_error hxs] at hrun; cases hrun

/-- A property that an operation ensures holds after it where `pc` has advanced: a stop leaves `pc` (R106). -/
theorem exec_ensures {code : Handle → Op Unit} {Q : Regs → Prop} (hi : body i = withHandle code)
    (hruns : ∀ h, Runs i h (code h)) (hq : ∀ h, Ensures Q (code h)) (ht : exec i s = .next t)
    (hpc : t.pc = s.pc + 1) : Q t.regs := by
  rw [exec_eq_finish, hi] at ht
  cases hh : s.handle with
  | none =>
    rw [finish_fault (withHandle_none code s hh)] at ht
    cases ht
    simp at hpc
  | some h =>
    have hends := (hruns h).ends s
    rcases finish_cases ht with ⟨u, hu, rfl⟩ | ⟨f, u, hu, rfl⟩ | ⟨u, hu, rfl⟩ <;>
      rw [withHandle_some code s h hh] at hu
    · rw [advance_regs]; exact (hq h).completes hu
    · rw [hu] at hends; simp [hends.1.sameControl.pc] at hpc
    · rw [hu] at hends; simp [hends.1.sameControl.pc] at hpc

/-- `OUT` is no number after a failed temperature exchange. -/
def InvalidAfterFailedT (r : Regs) : Prop := r.rstT ≠ some .ok → r.out = some .invalid

/-- `OUT` is no number after a failed humidity exchange or with an invalid `TC`. -/
def InvalidAfterFailedH (r : Regs) : Prop := r.rstH ≠ some .ok ∨ r.tc = some .invalid → r.out = some .invalid

theorem ensures_convCelsius : Ensures InvalidAfterFailedT (convCelsius h) := by
  refine ⟨fun {s t _} hrun hfail => ?_⟩
  rcases convCelsius_cases h s with ⟨he, -⟩ | ⟨he, -⟩ | ⟨r, he, st, hst, hr⟩ <;> rw [he] at hrun <;> cases hrun
  exact congrArg some (hr fun ho => hfail (ho ▸ hst))

theorem ensures_convFahrenheit : Ensures InvalidAfterFailedT (convFahrenheit h) := by
  refine ⟨fun {s t _} hrun hfail => ?_⟩
  rcases convFahrenheit_cases h s with ⟨he, -⟩ | ⟨he, -⟩ | ⟨r, he, st, hst, hr⟩ <;> rw [he] at hrun <;> cases hrun
  exact congrArg some (hr fun ho => hfail (ho ▸ hst))

theorem ensures_convHumidity : Ensures InvalidAfterFailedH (convHumidity h) := by
  refine ⟨fun {s t _} hrun hfail => ?_⟩
  rcases convHumidity_cases h s with ⟨he, -⟩ | ⟨he, -⟩ | ⟨r, he, st, tc, hst, htc, hr⟩ <;>
    rw [he] at hrun <;> cases hrun
  refine congrArg some (hr (hfail.imp (fun hne ho => hne (ho ▸ hst)) fun hinv => ?_))
  exact Option.some_inj.mp (htc.symm.trans hinv)

/-- The two conversions of `READ_RH` together: a failed temperature exchange passes through `TC` (R96, R102). -/
theorem ensures_convCelsius_convHumidity :
    Ensures (fun r => InvalidAfterFailedT r ∧ InvalidAfterFailedH r) (do convCelsius h; convHumidity h) := by
  refine ⟨fun {s t _} hrun => ⟨fun hfail => ?_, (ensures_bind fun _ => ensures_convHumidity).completes hrun⟩⟩
  rcases convCelsius_cases h s with ⟨he, -⟩ | ⟨he, -⟩ | ⟨r, he, st, hst, hr⟩
  · rw [op_bind_error he] at hrun; cases hrun
  · rw [op_bind_error he] at hrun; cases hrun
  rw [op_bind_ok he] at hrun
  rcases convHumidity_cases h _ with ⟨hf, -⟩ | ⟨hf, -⟩ | ⟨r', hf, _, tc, -, htc, hr'⟩ <;> rw [hf] at hrun <;> cases hrun
  have hinvalid : r = .invalid := hr fun ho => hfail (ho ▸ hst)
  exact congrArg some (hr' (.inr ((Option.some_inj.mp htc).symm.trans hinvalid)))

theorem ensures_readHumidity :
    Ensures (fun r => InvalidAfterFailedT r ∧ InvalidAfterFailedH r) (readHumidity h) := by
  refine ensures_bind fun st => ?_
  split
  · exact ⟨fun hrun => by cases hrun; exact ⟨fun _ => rfl, fun _ => rfl⟩⟩
  · exact ensures_bind fun _ => ensures_convCelsius_convHumidity

theorem runs_readC : Runs .readC h (do let _ ← readRaw h .measT; convCelsius h) :=
  runs_bind (runs_readRaw (.inr (.inl rfl))) fun _ => runs_convCelsius (.inr (.inl rfl))

theorem runs_readF : Runs .readF h (do let _ ← readRaw h .measT; convFahrenheit h) :=
  runs_bind (runs_readRaw (.inr (.inr (.inl rfl)))) fun _ => runs_convFahrenheit (.inr rfl)

/-- Settles O45: the last conversion of each of the six operations leaves `Invalid` after the failure. -/
theorem failuresAreContagious : Obligations.FailuresAreContagious := by
  intro i s t ht hpc
  refine ⟨fun hi => ?_, fun hi => ?_, fun hi _ => ?_⟩
  · rcases hi with rfl | rfl | rfl | rfl
    · exact exec_ensures rfl (fun _ => runs_convCelsius (.inl rfl)) (fun _ => ensures_convCelsius) ht hpc
    · exact exec_ensures rfl (fun _ => runs_convFahrenheit (.inl rfl)) (fun _ => ensures_convFahrenheit) ht hpc
    · exact exec_ensures rfl (fun _ => runs_readC) (fun _ => ensures_bind fun _ => ensures_convCelsius) ht hpc
    · exact exec_ensures rfl (fun _ => runs_readF) (fun _ => ensures_bind fun _ => ensures_convFahrenheit)
        ht hpc
  · rcases hi with rfl | rfl
    · exact exec_ensures rfl (fun _ => runs_convHumidity (.inl rfl)) (fun _ => ensures_convHumidity) ht hpc
    · exact (exec_ensures rfl (fun _ => runs_readHumidity) (fun _ => ensures_readHumidity) ht hpc).2
  · subst hi
    exact (exec_ensures rfl (fun _ => runs_readHumidity) (fun _ => ensures_readHumidity) ht hpc).1

end Sys2Proof.Machine
end

section
/-! `CONSTRUCT` (R98) and the compatibility view of the results (R103). -/

namespace Sys2Proof.Machine

/-- Without a handle, `CONSTRUCT` writes it and nothing else (R98). -/
theorem constructHandle_first (h : Handle) {s : State} (hh : s.handle = none) :
    constructHandle h s = .ok () { s with handle := some h } := by
  simp [constructHandle, hh]

/-- The handle is written once (R98). -/
theorem constructHandle_again (h : Handle) {s : State} (hh : s.handle ≠ none) :
    constructHandle h s = .error (.fault .reconstruct) s := by
  obtain ⟨k, hk⟩ := Option.ne_none_iff_exists'.mp hh
  simp [constructHandle, hk]

/-- Settles O50: whether a handle is there decides between the two ends of `constructHandle`. -/
theorem constructCreatesTheHandle : Obligations.ConstructCreatesTheHandle := fun _ _ _ _ _ =>
  ⟨rfl, decode_of_encode_eq rfl rfl, rejectsBadWords .CONSTRUCT, fun _ =>
    ⟨fun hh => finish_ok (constructHandle_first _ hh), fun hh => finish_fault (constructHandle_again _ hh)⟩⟩

theorem compatRaw_ok (r : Raw) : compatRaw (some .ok) (some r) = r := rfl

theorem compatRaw_notOk {st : Option Status} (raw : Option Raw) (hst : st ≠ some .ok) :
    compatRaw st raw = Config.sentinel := if_neg hst

/-- `SENTINEL` is no 14-bit code, and its offset from the least such code does not wrap (R103, D11). -/
theorem sentinel_toNat : Config.sentinel.toNat = 0x4000 + Config.sentinelOffset.val := by
  have hlt := Config.sentinelOffset.isLt
  rw [Config.sentinel, BitVec.toNat_ofNat, Nat.mod_eq_of_lt (by omega)]

/-- Settles O54: the view of a result, the view of a raw code by its status, and the range of `SENTINEL`. -/
theorem compatibilityView : Obligations.CompatibilityView := by
  intro s
  have hlt := Config.sentinelOffset.isLt
  refine ⟨fun ho => congrArg (Option.map compatFloat) ho, fun f ho => congrArg (Option.map compatFloat) ho,
    fun r hst hr => ?_, fun r hst hr => ?_, compatRaw_notOk _, compatRaw_notOk _, ?_, ?_⟩
  · rw [compatRawT, hst, hr, compatRaw_ok]
  · rw [compatRawH, hst, hr, compatRaw_ok]
  · rw [sentinel_toNat]; omega
  · rw [sentinel_toNat]; omega

end Sys2Proof.Machine
end

section
/-! An exchange as a part of a public read (R15, R100 to R102): it is the `READRAW` of its command, which as an operation
of its own advances `pc` and otherwise leaves the same, so what follows it in place is the operation that follows
`READRAW`, with `pc` put back. -/

namespace Sys2Proof.Machine

variable {h : Handle} {s t : State}

theorem pcBlind_sendCommand (c : Command) : PcBlind (sendCommand h c) := by
  refine ⟨fun {s t a} hrun n => ?_⟩
  rw [sendCommand_run] at hrun
  cases hrun
  exact sendCommand_run h c { s with pc := n }

theorem pcBlind_recordExchange (c : Command) (st : Status) (raw : Option Raw) : PcBlind (recordExchange c st raw) := by
  cases c <;> exact pcBlind_bind (pcBlind_writeRegs _) fun _ => pcBlind_pure _

theorem pcBlind_readRaw (c : Command) : PcBlind (readRaw h c) := by
  refine pcBlind_bind (pcBlind_sendCommand c) fun tx => ?_
  split
  · exact pcBlind_recordExchange _ _ _
  refine pcBlind_bind pcBlind_waitReady fun w => ?_
  split
  · exact pcBlind_recordExchange _ _ _
  · exact pcBlind_bind pcBlind_shiftIn16 fun d => pcBlind_bind pcBlind_crcSkip fun _ => pcBlind_recordExchange _ _ _

/-- An exchange as an operation of its own. -/
theorem exec_readraw {c : Command} {st : Status} (hh : s.handle = some h) (hrun : readRaw h c s = .ok st t) :
    exec (.readraw c.code) s = .next (advance t) :=
  exec_completes (body_readraw c) hh (op_bind_ok hrun) rfl

/-- The same at any `pc`. -/
theorem exec_readraw_at {c : Command} {st : Status} (hh : s.handle = some h) (hrun : readRaw h c s = .ok st t)
    (n : Nat) : exec (.readraw c.code) { s with pc := n } = .next { t with pc := n + 1 } :=
  exec_completes_at (body_readraw c) (pcBlind_discard (pcBlind_readRaw c)) hh (op_bind_ok hrun) n

/-- Putting `pc` back after an operation that completed gives the state its pseudocode left. -/
theorem advance_at {n : Nat} (hn : t.pc = n) : { advance t with pc := n } = t := by
  subst hn
  rfl

/-- With a handle, an operation is the end of its pseudocode. -/
theorem exec_withHandle {i : Instr} {code : Handle → Op Unit} (hi : body i = withHandle code)
    (hh : s.handle = some h) : exec i s = finish (code h) s := by
  rw [exec_eq_finish, hi, finish, finish, withHandle_some code s h hh]

/-- Two operations whose pseudocode ends alike, the second from what the first has reached, end alike. -/
theorem exec_eq_exec {i j : Instr} {code code' : Handle → Op Unit} (hi : body i = withHandle code)
    (hj : body j = withHandle code') (hs : s.handle = some h) (ht : t.handle = some h)
    (hrun : code h s = code' h t) : exec i s = exec j t := by
  rw [exec_withHandle hi hs, exec_withHandle hj ht, finish, finish, hrun]

/-- A public read `i` that is a temperature exchange and then the conversion `j` (R100, R101): it ends as `j` does at the
state of the exchange, which is that of `READRAW` but for `pc`. -/
theorem exec_exchangeThenConversion {i j : Instr} {conv : Handle → Op Unit}
    (hi : body i = withHandle fun h => do let _ ← readRaw h .measT; conv h) (hj : body j = withHandle conv)
    (hh : s.handle = some h) :
    (∃ u, exec (.readraw 0x03#8) s = .next u ∧ exec i s = exec j { u with pc := s.pc }) ∧
    ∃ st raw u, exec i s = exec j (recordedExchange .measT st raw u) ∧ (raw.isSome = true ↔ st = .ok) ∧
      SubFrame s u := by
  obtain ⟨st, raw, u, hrun, hraw, frame, -⟩ := readRaw_total h .measT s
  have hend : exec i s = exec j (recordedExchange .measT st raw u) :=
    exec_eq_exec hi hj hh (frame.handle.trans hh) (op_bind_ok hrun)
  refine ⟨⟨_, exec_readraw hh hrun, ?_⟩, st, raw, u, hend, hraw, frame⟩
  have hpc : (recordedExchange .measT st raw u).pc = s.pc := frame.pc
  rw [advance_at hpc, hend]

end Sys2Proof.Machine
end

section
/-! The public temperature reads (R100, R101): the exchange, then the conversion at what it left. -/

namespace Sys2Proof.Machine

/-- Settles O51: the exchange's status decides whether `CONV_C` has a number or `Invalid` to write. -/
theorem readCIsExchangeThenConversion : Obligations.ReadCIsExchangeThenConversion := by
  refine ⟨spelledAndGuarded rfl rfl nofun, fun s h hh => ?_⟩
  obtain ⟨hparts, st, raw, u, hend, hraw, frame⟩ :=
    exec_exchangeThenConversion (i := .readC) (j := .convC) (s := s) rfl rfl hh
  have hu := frame.handle.trans hh
  refine ⟨hparts, fun d1 d2 h1 h2 => ?_⟩
  rw [hend]
  by_cases ho : st = .ok
  · subst ho
    obtain ⟨r, rfl⟩ := Option.isSome_iff_exists.mp (hraw.mpr rfl)
    rw [← frame.coeff] at h1 h2
    exact ⟨_, .ok, exec_convC_value hu rfl rfl h1 h2, congrArg (· + 1) frame.pc, frame.fault, frame.refused, rfl,
      nofun, fun _ => ⟨r, rfl, rfl, rfl⟩⟩
  · exact ⟨_, st, exec_completes rfl hu (convCelsius_failed h _ st rfl ho) rfl, congrArg (· + 1) frame.pc, frame.fault,
      frame.refused, rfl, fun _ => ⟨rfl, rfl⟩, fun hok => absurd hok ho⟩

/-- Settles O52: as O51, with `CONV_F`; neither part writes `TC`. -/
theorem readFIsExchangeThenConversion : Obligations.ReadFIsExchangeThenConversion := by
  refine ⟨spelledAndGuarded rfl rfl nofun, fun s h hh => ?_⟩
  obtain ⟨hparts, st, raw, u, hend, hraw, frame⟩ :=
    exec_exchangeThenConversion (i := .readF) (j := .convF) (s := s) rfl rfl hh
  have hu := frame.handle.trans hh
  refine ⟨hparts, fun d1 d2 h1 h2 => ?_⟩
  rw [hend]
  by_cases ho : st = .ok
  · subst ho
    obtain ⟨r, rfl⟩ := Option.isSome_iff_exists.mp (hraw.mpr rfl)
    rw [← frame.coeff] at h1 h2
    exact ⟨_, .ok, exec_completes rfl hu (convFahrenheit_value h _ r rfl rfl _ (fahrenheit_some _ _ _ _ d1 d2 h1 h2)) rfl,
      congrArg (· + 1) frame.pc, frame.fault, frame.refused, frame.tc, rfl, nofun, fun _ => ⟨r, rfl, rfl⟩⟩
  · exact ⟨_, st, exec_completes rfl hu (convFahrenheit_failed h _ st rfl ho) rfl, congrArg (· + 1) frame.pc,
      frame.fault, frame.refused, frame.tc, rfl, fun _ => rfl, fun hok => absurd hok ho⟩

end Sys2Proof.Machine
end

section
/-! `READ_RH` (R102): the humidity exchange, and after its success the temperature exchange and the two conversions. -/

namespace Sys2Proof.Machine

open Sys2Proof.Claims

variable {h : Handle} {s t u : State} {st : Status}

/-- A failed humidity exchange ends the reading. -/
theorem readHumidity_failed (hrun : readRaw h .measRH s = .ok st t) (ho : st ≠ .ok) :
    readHumidity h s = .ok () { t with regs := { t.regs with out := some .invalid } } := by
  rw [readHumidity, op_bind_ok hrun, if_pos ho, writeRegs_run]

/-- After a successful one, the two conversions run at what the temperature exchange left. -/
theorem readHumidity_ready (hH : readRaw h .measRH s = .ok .ok t) (hT : readRaw h .measT t = .ok st u) :
    readHumidity h s = (do convCelsius h; convHumidity h) u := by
  rw [readHumidity, op_bind_ok hH, if_neg (not_not.mpr rfl), op_bind_ok hT]

/-- After a temperature exchange its pair is written, so `CONV_C` has a result or lacks a coefficient. -/
theorem convCelsius_afterExchange (hst : s.regs.rstT = some st) (hraw : s.regs.rawT.isSome = true ↔ st = .ok) :
    (convCelsius h s = .error .refuse s ∧ (s.coeff.d1c.get h.v = none ∨ s.coeff.d2c.get h.t = none)) ∨
    ∃ r, convCelsius h s = .ok () { s with regs := { s.regs with out := some r, tc := some r } } := by
  rcases convCelsius_cases h s with ⟨-, hn⟩ | ⟨he, -, hn⟩ | ⟨r, he, -⟩
  · rcases hn with hn | ⟨hok, hn⟩
    · exact nomatch hst.symm.trans hn
    · exact absurd (hraw.mpr (Option.some_inj.mp (hst.symm.trans hok))) (by simp [hn])
  · exact .inl ⟨he, hn⟩
  · exact .inr ⟨r, he⟩

/-- With its operands written and its coefficients supplied, `CONV_RH` has a result. -/
theorem convHumidity_supplied (hst : s.regs.rstH = some .ok) (hraw : s.regs.rawH ≠ none) (htc : s.regs.tc ≠ none)
    (hs : humiditySupplied s h = true) :
    ∃ r, convHumidity h s = .ok () { s with regs := { s.regs with out := some r } } := by
  rcases convHumidity_cases h s with ⟨-, hn⟩ | ⟨-, -, hn⟩ | ⟨r, he, -⟩
  · rcases hn with hn | hn | ⟨-, hn⟩
    · exact nomatch hst.symm.trans hn
    · exact absurd hn htc
    · exact absurd hn hraw
  · have hnot := (humidity_eq_none_iff_not_supplied s h 0 0).mp ((humidity_eq_none s.coeff h.h 0 0).mpr hn)
    exact nomatch hs.symm.trans hnot
  · exact ⟨r, he⟩

/-- `CONV_C` does the same wherever `pc` stands, broken off or not. -/
theorem convCelsius_at (h : Handle) (s : State) (n : Nat) :
    convCelsius h { s with pc := n } = carryRegs { s with pc := n } (convCelsius h s) :=
  (regsFunction_convCelsius h).run rfl rfl rfl

/-- The two conversions at the end of `READ_RH`, in place, are `CONV_C` as an operation of its own, from any `pc`, and
then `CONV_RH` unless that is refused (R102, R109). -/
theorem exec_readRh_conversions (hh : s.handle = some h) (hrun : readHumidity h s = (do convCelsius h; convHumidity h) u)
    (hu : u.handle = some h) (hpc : u.pc = s.pc) (hr : u.refused = false) (hst : u.regs.rstT = some st)
    (hraw : u.regs.rawT.isSome = true ↔ st = .ok) (n : Nat) :
    ∃ w, exec .convC { u with pc := n } = .next w ∧
      (w.refused = true → exec .readRh s = .next { w with pc := s.pc }) ∧
      (w.refused = false → exec .readRh s = exec .convRh { w with pc := s.pc }) := by
  have hconv := convCelsius_at h u n
  rw [← hpc]
  rcases convCelsius_afterExchange (h := h) hst hraw with ⟨he, -⟩ | ⟨r, he⟩
  · rw [op_bind_error he] at hrun
    rw [he] at hconv
    exact ⟨_, exec_refuses rfl hu hconv, fun _ => exec_refuses rfl hh hrun, nofun⟩
  · rw [op_bind_ok he] at hrun
    rw [he] at hconv
    refine ⟨_, exec_completes rfl hu hconv rfl, fun hw => ?_, fun _ => exec_eq_exec rfl rfl hh hu hrun⟩
    exact absurd (hr.symm.trans hw) nofun

/-- After both exchanges, with the coefficients supplied, both conversions have a result. -/
theorem conversions_supplied (hstT : u.regs.rstT = some st) (hrawT : u.regs.rawT.isSome = true ↔ st = .ok)
    (hstH : u.regs.rstH = some .ok) (hrawH : u.regs.rawH ≠ none) (h1 : u.coeff.d1c.get h.v ≠ none)
    (h2 : u.coeff.d2c.get h.t ≠ none) (hs : humiditySupplied u h = true) :
    ∃ r r', (do convCelsius h; convHumidity h) u =
      .ok () { u with regs := { u.regs with tc := some r, out := some r' } } := by
  rcases convCelsius_afterExchange (h := h) hstT hrawT with ⟨-, hn⟩ | ⟨r, he⟩
  · exact absurd hn (not_or.mpr ⟨h1, h2⟩)
  rw [op_bind_ok he]
  obtain ⟨r', he'⟩ := convHumidity_supplied (h := h)
    (s := { u with regs := { u.regs with out := some r, tc := some r } }) hstH hrawH nofun hs
  exact ⟨r, r', he'⟩

/-- `READ_RH` after a successful humidity exchange, as the operations that follow it (R102). -/
theorem exec_readRh_ready (hh : s.handle = some h) (hH : readRaw h .measRH s = .ok .ok t) (ht : t.handle = some h)
    (hpc : t.pc = s.pc) (hr : t.refused = false) :
    ∃ v w, exec (.readraw 0x03#8) (advance t) = .next v ∧ exec .convC v = .next w ∧
      (w.refused = true → exec .readRh s = .next { w with pc := s.pc }) ∧
      (w.refused = false → exec .readRh s = exec .convRh { w with pc := s.pc }) := by
  obtain ⟨st, raw, u, hT, hraw, frame, -⟩ := readRaw_total h .measT t
  obtain ⟨w, hw, hend⟩ := exec_readRh_conversions hh (readHumidity_ready hH hT) (frame.handle.trans ht)
    (frame.pc.trans hpc) (frame.refused.trans hr) rfl hraw (t.pc + 1 + 1)
  exact ⟨_, w, exec_readraw_at ht hT (t.pc + 1), hw, hend⟩

/-- `READ_RH` after a successful humidity exchange completes where its coefficients are supplied (R102). -/
theorem readHumidity_supplied (hH : readRaw h .measRH s = .ok .ok t) (hstH : t.regs.rstH = some .ok)
    (hrawH : t.regs.rawH ≠ none) (h1 : t.coeff.d1c.get h.v ≠ none) (h2 : t.coeff.d2c.get h.t ≠ none)
    (hs : humiditySupplied t h = true) :
    ∃ v, readHumidity h s = .ok () v ∧ v.pc = t.pc ∧ v.fault = t.fault ∧ v.refused = t.refused ∧
      v.regs.out ≠ none ∧ v.regs.rstH ≠ none := by
  obtain ⟨st, raw, u, hT, hraw, frame, -⟩ := readRaw_total h .measT t
  rw [humiditySupplied, ← frame.coeff] at hs
  rw [← frame.coeff] at h1 h2
  rw [← frame.rawH] at hrawH
  have hstH' := frame.rstH.trans hstH
  obtain ⟨r, r', hrun⟩ :=
    conversions_supplied (u := recordedExchange .measT st raw u) rfl hraw hstH' hrawH h1 h2 hs
  exact ⟨_, (readHumidity_ready hH hT).trans hrun, frame.pc, frame.fault, frame.refused, nofun,
    fun hn => nomatch hstH'.symm.trans hn⟩

/-- Settles O53: the status of the humidity exchange decides whether the rest runs. -/
theorem readRhIsTwoExchangesThenConversions : Obligations.ReadRhIsTwoExchangesThenConversions := by
  refine ⟨spelledAndGuarded rfl rfl nofun, fun s h hh hrefused => ?_⟩
  obtain ⟨st, raw, u, hH, hraw, frame, -⟩ := readRaw_total h .measRH s
  have hu := frame.handle.trans hh
  have hr := frame.refused.trans hrefused
  by_cases ho : st = .ok
  · subst ho
    refine ⟨⟨_, exec_readraw hh hH, fun hne => absurd rfl hne, fun _ => exec_readRh_ready hh hH hu frame.pc hr⟩,
      fun h1 h2 hs => ?_⟩
    rw [humiditySupplied, ← frame.coeff] at hs
    rw [← frame.coeff] at h1 h2
    obtain ⟨v, hrun, hpc, hf, hr', hout, hstH⟩ :=
      readHumidity_supplied hH rfl (Option.isSome_iff_ne_none.mp (hraw.mpr rfl)) h1 h2 hs
    exact ⟨_, exec_completes rfl hh hrun rfl, congrArg (· + 1) (hpc.trans frame.pc), hf.trans frame.fault,
      hr'.trans hr, hout, hstH⟩
  · have hend := exec_completes (i := .readRh) rfl hh (readHumidity_failed hH ho) rfl
    refine ⟨⟨_, exec_readraw hh hH, fun _ => hend, fun hok => absurd (Option.some_inj.mp hok) ho⟩, fun _ _ _ => ?_⟩
    exact ⟨_, hend, congrArg (· + 1) frame.pc, frame.fault, hr, nofun, nofun⟩

end Sys2Proof.Machine
end

section
/-! How one operation word ends (R106, R110): a rejected word faults where it stands, and every operation completes,
faults or is refused, the last two for good. -/

namespace Sys2Proof.Machine

variable {i : Instr} {s t : State}

/-- Settles O10: the step law of a word that is fetched. -/
theorem rejectedWordTakesItsFault : Obligations.RejectedWordTakesItsFault := by
  intro s w hf hr hw
  have hreject : ∀ d, decode w = .error d → step s = .next (takeFault (faultOfDecode d) s) := fun d hd => by
    rw [step_fetch s w hf hr hw, hd]
  exact ⟨hreject _, hreject _, hreject _⟩

/-- The three ways of R106 that a step from a running machine `s` may end in `t`. -/
def EndsOneWay (s t : State) : Prop :=
  (t.pc = s.pc + 1 ∧ t.fault = none ∧ t.refused = false) ∨
  (t.pc = s.pc ∧ t.fault ≠ none ∧ t.refused = false ∧ ∀ u, step t ≠ .next u) ∨
  (t.pc = s.pc ∧ t.fault = none ∧ t.refused = true ∧ ∀ u, step t ≠ .next u)

theorem endsOneWay_takeFault (f : ModelFault) (hpc : t.pc = s.pc) (hr : t.refused = false) :
    EndsOneWay s (takeFault f t) :=
  .inr (.inl ⟨hpc, nofun, hr, fun _ => stoppedMachineNeverMoves _ _ (.inl nofun)⟩)

theorem endsOneWay_takeRefusal (hpc : t.pc = s.pc) (hf : t.fault = none) : EndsOneWay s (takeRefusal t) :=
  .inr (.inr ⟨hpc, hf, rfl, fun _ => stoppedMachineNeverMoves _ _ (.inr (.inl rfl))⟩)

/-- No effect of an operation moves `pc` or sets a stop record: only the end of the operation does. -/
theorem endsOneWay_of_execEnd (hu : ExecEnd i s u) (hf : s.fault = none) (hr : s.refused = false) : EndsOneWay s u := by
  cases hu with
  | badOperand | noHandle | reconstruct => exact endsOneWay_takeFault _ rfl hr
  | constructed => exact .inl ⟨rfl, hf, hr⟩
  | completed h t hh hst =>
    have hc := hst.sameControl
    exact .inl ⟨congrArg (· + 1) hc.pc, hc.fault.trans hf, hc.refused.trans hr⟩
  | faulted h t f hh hst =>
    have hc := hst.sameControl
    exact endsOneWay_takeFault f hc.pc (hc.refused.trans hr)
  | refused h t hh hst =>
    have hc := hst.sameControl
    exact endsOneWay_takeRefusal hc.pc (hc.fault.trans hf)

/-- Settles O11: a rejected word faults, and a decoded one ends as its operation does. That a `WAIT` ends at all rests
on host duty HD2 (R118) in the model's form (log entry 3). -/
theorem operationEndsInOneOfThreeWays : Obligations.OperationEndsInOneOfThreeWays := by
  intro s w hf hr hw
  rw [step_fetch s w hf hr hw]
  cases decode w with
  | error d => exact ⟨_, rfl, endsOneWay_takeFault _ rfl hr⟩
  | ok i =>
    obtain ⟨t, ht⟩ := exec_next i s
    exact ⟨t, ht, endsOneWay_of_execEnd (execEnd_of_exec ht) hf hr⟩

end Sys2Proof.Machine
end

section
/-! Host duty HD2 in a `WAIT` (R118): the counts drawn keep it against every earlier count, not only the one before, and
a clock that keeps it is drawn as it stands, up to the ready end and to the timeout end (R81, R119). -/

namespace Sys2Proof.Machine

variable {h : Handle}

/-! ## The counts of a wait keep HD2 -/

/-- Every count in an event list keeps HD2 against an earlier count `ta`, with `delay` milliseconds of delays between
`ta` and the list. -/
def KeepsDutyFrom (ta : Millis) : Nat → List Event → Prop
  | _, [] => True
  | delay, .delayMs n :: es => KeepsDutyFrom ta (delay + n) es
  | delay, .millis tb :: es =>
    (delay ≤ (tb - ta).toNat ∧ (tb - ta).toNat < 2 ^ 32 - Config.timeoutMs) ∧ KeepsDutyFrom ta delay es
  | delay, _ :: es => KeepsDutyFrom ta delay es

theorem delaySum_cons (e : Event) (es : List Event) : delaySum (e :: es) = delaySum [e] + delaySum es := by
  simp [delaySum]

theorem KeepsDutyFrom.count {ta tb : Millis} {delay : Nat} {between after : List Event}
    (hk : KeepsDutyFrom ta delay (between ++ .millis tb :: after)) :
    delay + delaySum between ≤ (tb - ta).toNat ∧ (tb - ta).toNat < 2 ^ 32 - Config.timeoutMs := by
  induction between generalizing delay with
  | nil => exact hk.1
  | cons e es ih =>
    rw [delaySum_cons, ← Nat.add_assoc]
    cases e with
    | delayMs n => exact ih hk
    | millis t => exact ih hk.2
    | setMode | write | read | delayUs => exact ih hk

/-- HD2 of a list is HD2 of its tail and of its first event against the tail. -/
theorem hostDuty2_cons {e : Event} {es : List Event} (hes : HostDuty2 es)
    (he : ∀ ta, e = .millis ta → KeepsDutyFrom ta 0 es) : HostDuty2 (e :: es) := by
  intro before between after ta tb heq
  cases before with
  | nil =>
    obtain ⟨rfl, rfl⟩ := List.cons_eq_cons.mp heq
    simpa using (he ta rfl).count
  | cons b before =>
    obtain ⟨-, htail⟩ := List.cons_eq_cons.mp heq
    exact hes before between after ta tb htail

theorem hostDuty2_nil : HostDuty2 [] := fun _ _ _ _ _ he => by simp at he

/-- Host duty HD2 of an event list holds of its beginning. -/
theorem hostDuty2_prefix {es fs : List Event} (hd : HostDuty2 (es ++ fs)) : HostDuty2 es :=
  fun before between after ta tb he => hd before between (after ++ fs) ta tb (by simp [he])

/-- A chain of counts keeps HD2 against every count `ta` that lies between the start `t0` and the latest. -/
theorem keepsDutyFrom_polls {t0 ta last : Millis} {busy : List Millis} {delay : Nat} (hchain : Hd2Chain t0 last busy)
    (hdelay : delay ≤ (last - ta).toNat) (hta : (last - ta).toNat ≤ (last - t0).toNat) :
    KeepsDutyFrom ta delay (busy.flatMap (busyPollEvents h) ++ readyPollEvents h) := by
  induction busy generalizing last delay with
  | nil => trivial
  | cons t rest ih =>
    obtain ⟨hgain, hmax, hrest⟩ := hchain
    have hsum0 := elapsed_add t0 last t (by omega)
    have hsum := elapsed_add ta last t (by omega)
    have hnext : delay + Config.pollMs ≤ (t - ta).toNat := by omega
    exact ⟨⟨hnext, by omega⟩, ih hrest hnext (by omega)⟩

theorem hostDuty2_polls {t0 last : Millis} {busy : List Millis} (hchain : Hd2Chain t0 last busy) :
    HostDuty2 (.millis last :: (busy.flatMap (busyPollEvents h) ++ readyPollEvents h)) := by
  induction busy generalizing last with
  | nil => exact hostDuty2_cons (hostDuty2_cons (hostDuty2_cons hostDuty2_nil nofun) nofun) fun _ _ => trivial
  | cons t rest ih =>
    refine hostDuty2_cons (hostDuty2_cons (hostDuty2_cons (ih hchain.2.2) nofun) nofun) fun ta hta => ?_
    cases hta
    exact keepsDutyFrom_polls hchain (Nat.zero_le _) (by simp)

/-- Settles O30: the counts of both ends are a chain that HD2 allows, and the timeout end is a beginning of the ready
one's events. -/
theorem waitKeepsHostDutyTwo : Obligations.WaitKeepsHostDutyTwo := by
  intro s t hh ht
  obtain ⟨h, hh⟩ := Option.ne_none_iff_exists'.mp hh
  obtain ⟨busy, env, hchain, -, -, hend⟩ := waitReady_cases h s
  have hduty : HostDuty2 ([.setMode h.dpin .inputPullup, .millis (drawCount s.env).1] ++
      busy.flatMap (busyPollEvents h) ++ readyPollEvents h) := hostDuty2_cons (hostDuty2_polls hchain) nofun
  rcases hend with ⟨-, -, -, -, -, hrun⟩ | ⟨-, -, -, -, -, -, -, -, hrun⟩ <;>
    cases ht.symm.trans (exec_completes rfl hh (op_bind_ok hrun) rfl)
  · exact ⟨_, by simp only [advance_trace, List.append_assoc], hduty⟩
  · exact ⟨_, List.append_assoc .., hostDuty2_prefix hduty⟩

/-! ## A clock that keeps HD2 is drawn as it stands -/

/-- A poll that sees `H` and times out ends the wait (R81). -/
theorem waitPolls_timesOut (t0 last : Millis) (n : Nat) {s : State} {t : Millis}
    (hl : (drawLevel s.env).1 = .hi) (ht : hd2Draw t0 last (drawCount (drawLevel s.env).2).1 = t)
    (hto : timedOut t0 t = true) :
    waitPolls h t0 (n + 1) last s = .ok .timeout { s with
      trace := s.trace ++ busyPollEvents h t, env := (drawCount (drawLevel s.env).2).2 } := by
  simp [waitPolls, op_bind, delayMs, emit_run, readPin_run, millisBounded_run, hl, ht, hto, op_pure, busyPollEvents,
    hostPin]

/-- A count that keeps HD2 against the one before it and against the first is drawn where it stands next in the script,
and the wait's time advances by what it gains. -/
theorem hd2Draw_script {t0 last t : Millis} {rest : List Event} (hlast : timedOut t0 last = false)
    (hmax : (t - t0).toNat < 2 ^ 32 - Config.timeoutMs)
    (hduty : HostDuty2 (.millis last :: (busyPollEvents h t ++ rest))) :
    hd2Draw t0 last t = t ∧ (last - t0).toNat + Config.pollMs ≤ (t - t0).toNat := by
  obtain ⟨hgain, hlt⟩ := hduty [] [.delayMs Config.pollMs, .read h.dpin .hi] rest last t rfl
  have hgain : Config.pollMs ≤ (t - last).toNat := hgain
  have hlast1000 := timedOut_eq_false.mp hlast
  simp only [Config.timeoutMs] at hlt
  have hadd := elapsed_add t0 last t (by omega)
  rw [hadd] at hmax ⊢
  exact ⟨hd2Draw_allowed t0 last t (Bool.and_eq_true_iff.mpr ⟨decide_eq_true hgain, decide_eq_true hmax⟩), by omega⟩

/-- A wait on scripts whose clock HD2 allows, with the sensor at `H` until the count that times out: the counts drawn
are the clock's, and both scripts are consumed up to that count. -/
theorem waitPolls_timeoutScript {t0 prev last : Millis} {early moreCounts : List Millis} {moreLevels : List Level}
    {n : Nat} {s : State} (hprev : timedOut t0 prev = false) (hearly : ∀ t ∈ early, timedOut t0 t = false)
    (hlast : timedOut t0 last = true) (hmax : (last - t0).toNat < 2 ^ 32 - Config.timeoutMs)
    (hduty : HostDuty2 (.millis prev :: (early ++ [last]).flatMap (busyPollEvents h)))
    (hn : 1000 ≤ (prev - t0).toNat + 10 * n)
    (hlevels : s.env.levels = List.replicate (early.length + 1) .hi ++ moreLevels)
    (hcounts : s.env.counts = early ++ last :: moreCounts) :
    ∃ env, env.levels = moreLevels ∧ env.counts = moreCounts ∧
      waitPolls h t0 n prev s = .ok .timeout { s with
        trace := s.trace ++ (early ++ [last]).flatMap (busyPollEvents h), env := env } := by
  have hprev1000 := timedOut_eq_false.mp hprev
  obtain ⟨n, rfl⟩ : ∃ k, n = k + 1 := ⟨n - 1, by omega⟩
  induction early generalizing prev n s with
  | nil =>
    obtain ⟨hl, hlevels⟩ := drawLevel_script hlevels
    obtain ⟨hc, hcounts⟩ := drawCount_script ((drawLevel_counts s.env).trans hcounts)
    obtain ⟨hdraw, -⟩ := hd2Draw_script hprev hmax hduty
    exact ⟨_, (drawCount_levels _).trans hlevels, hcounts,
      by rw [waitPolls_timesOut t0 prev n hl (hc ▸ hdraw) hlast]; simp⟩
  | cons t rest ih =>
    obtain ⟨ht, hearly⟩ := List.forall_mem_cons.mp hearly
    obtain ⟨hl, hlevels⟩ := drawLevel_script hlevels
    obtain ⟨hc, hcounts⟩ := drawCount_script ((drawLevel_counts s.env).trans hcounts)
    have ht1000 := timedOut_eq_false.mp ht
    obtain ⟨hdraw, hadvance⟩ := hd2Draw_script hprev (by simp only [Config.timeoutMs]; omega) hduty
    simp only [Config.pollMs] at hadvance
    obtain ⟨n, rfl⟩ : ∃ k, n = k + 1 := ⟨n - 1, by omega⟩
    rw [waitPolls_busy t0 prev (n + 1) hl (hc ▸ hdraw) ht]
    obtain ⟨env, hle, hce, hrun⟩ := ih
      (s := { s with trace := s.trace ++ busyPollEvents h t, env := (drawCount (drawLevel s.env).2).2 }) ht hearly
      (hostDuty2_of_append (es := [.millis prev, .delayMs Config.pollMs, .read h.dpin .hi]) hduty)
      ((drawCount_levels _).trans hlevels) hcounts ht1000 n (by omega)
    exact ⟨env, hle, hce, by rw [hrun]; simp⟩

/-- The state in which the loop of a wait starts: DATA released, and the first count drawn (R81). -/
def waitStart (h : Handle) (s : State) : State :=
  { s with
    trace := s.trace ++ [.setMode h.dpin .inputPullup, .millis (drawCount s.env).1]
    pins := { s.pins with modeD := some .inputPullup }
    env := (drawCount s.env).2 }

/-- `WAIT` under a handle is its loop from `waitStart` on, with the loop's result recorded (R81). -/
theorem exec_wait_of_waitPolls {s : State} {w : WaitStatus} {trace : List Event} {env : Env} (hh : s.handle = some h)
    (hrun : waitPolls h (drawCount s.env).1 maxPolls (drawCount s.env).1 (waitStart h s) =
      .ok w { waitStart h s with trace := trace, env := env }) :
    exec .wait s = .next (advance { waitStart h s with
      trace := trace, env := env, regs := { s.regs with wst := some w } }) := by
  refine exec_completes rfl hh (op_bind_ok (a := w) ?_) rfl
  have hstart : waitReady h s = ((waitPolls h (drawCount s.env).1 maxPolls (drawCount s.env).1 >>= fun w =>
      (do writeRegs fun r => { r with wst := some w }; pure w)) : Op WaitStatus) (waitStart h s) := by
    simp [waitReady, op_bind, setMode_run, readMillis, millisBounded_run, waitStart, putMode, hostPin]
  rw [hstart, op_bind_ok hrun]
  rfl

/-- Settles O31: the loop takes its counts and levels off the scripts, to the ready poll or to the count that times
out. -/
theorem everyAllowedClockIsAdmitted : Obligations.EveryAllowedClockIsAdmitted := by
  intro s h t0 early moreCounts moreLevels hh hearly
  have hearly : ∀ t ∈ early, timedOut t0 t = false := fun t ht => timedOut_eq_false.mpr (hearly t ht)
  have h0 : timedOut t0 t0 = false := timedOut_eq_false.mpr (by simp)
  have hpolls : 1000 ≤ (t0 - t0).toNat + 10 * maxPolls := by simp [maxPolls, Config.timeoutMs, Config.pollMs]
  refine ⟨fun hcounts hlevels hduty => ?_, fun last hlast hcounts hlevels hduty => ?_⟩ <;>
    obtain ⟨rfl, hrest⟩ := drawCount_script hcounts
  · obtain ⟨env, hle, hce, hrun⟩ := waitPolls_script (s := waitStart h s) h0 hearly
      (hd2Chain_of_hostDuty2 h0 hearly hduty) hpolls ((drawCount_levels _).trans hlevels) hrest
    exact ⟨_, exec_wait_of_waitPolls hh hrun, rfl, rfl, rfl, hce, hle⟩
  · obtain ⟨-, hmax⟩ := hduty [] (early.flatMap (busyPollEvents h) ++ [.delayMs Config.pollMs, .read h.dpin .hi]) []
      (drawCount s.env).1 last (by simp [busyPollEvents])
    obtain ⟨env, hle, hce, hrun⟩ := waitPolls_timeoutScript (s := waitStart h s) h0 hearly (timedOut_eq_true.mpr hlast)
      hmax hduty hpolls ((drawCount_levels _).trans hlevels) hrest
    exact ⟨_, exec_wait_of_waitPolls hh hrun, rfl, rfl, rfl, hce, hle⟩

end Sys2Proof.Machine
end

section
/-! The event counts (R136). An operation in progress whose events are fixed appends the sum of what its parts append; a
wait and an exchange have several ends, each with the polls it took (R81, R86). Conversions append nothing (R97). -/

namespace Sys2Proof.Machine

open Sys2Proof.Claims

variable {i : Instr} {h : Handle} {s t u : State} {m n : Nat}

/-! ## Operations with one count -/

/-- Where an operation in progress completes, it has appended `n` events; however it ends, `pc` stands where it did. -/
structure Appends {α : Type} (n : Nat) (x : Op α) : Prop where
  ends : ∀ s, match x s with
    | .ok _ t => t.pc = s.pc ∧ t.trace.length = s.trace.length + n
    | .error _ t => t.pc = s.pc

theorem Appends.length {α : Type} {x : Op α} {a : α} (hx : Appends n x) (hrun : x s = .ok a t) :
    t.trace.length = s.trace.length + n := by
  have hends := hx.ends s
  rw [hrun] at hends
  exact hends.2

theorem Appends.of_eq {α : Type} {x : Op α} (hx : Appends m x) (hmn : m = n) : Appends n x := hmn ▸ hx

theorem appends_pure {α : Type} (a : α) : Appends 0 (pure a) := ⟨fun _ => ⟨rfl, rfl⟩⟩

theorem appends_bind {α β : Type} {x : Op α} {f : α → Op β} (hx : Appends m x) (hf : ∀ a, Appends n (f a)) :
    Appends (m + n) (x >>= f) := by
  refine ⟨fun s => ?_⟩
  have hends := hx.ends s
  rw [op_bind]
  cases hxs : x s with
  | error e t => rw [hxs] at hends; exact hends
  | ok a t =>
    rw [hxs] at hends
    obtain ⟨hpc, hlen⟩ := hends
    have hft := (hf a).ends t
    simp only
    cases hfs : f a t with
    | error e u => rw [hfs] at hft; exact hft.trans hpc
    | ok b u =>
      rw [hfs] at hft
      exact ⟨hft.1.trans hpc, by rw [hft.2, hlen, Nat.add_assoc]⟩

/-- An operation run for its effects, its result dropped. -/
theorem appends_discard {α : Type} {x : Op α} (hx : Appends n x) : Appends n (do let _ ← x) :=
  appends_bind hx fun _ => appends_pure _

theorem appends_withHandle {code : Handle → Op Unit} (hcode : ∀ h, Appends n (code h)) :
    Appends n (withHandle code) := by
  refine ⟨fun s => ?_⟩
  cases hh : s.handle with
  | none => rw [withHandle_none code s hh]
  | some h => rw [withHandle_some code s h hh]; exact (hcode h).ends s

theorem appends_requireCommand (b : Byte) : Appends 0 (requireCommand b) := by
  unfold requireCommand
  split
  · exact appends_pure _
  · exact ⟨fun _ => rfl⟩

/-! ### Host calls: one event each (R67, R76) -/

theorem appends_emit (e : Event) : Appends 1 (emit e) := ⟨fun _ => ⟨rfl, List.length_append⟩⟩

theorem appends_writeRegs (f : Regs → Regs) : Appends 0 (writeRegs f) := ⟨fun _ => ⟨rfl, rfl⟩⟩

theorem appends_setMode (p : Pin) (m : PinMode) : Appends 1 (setMode h p m) := ⟨fun _ => ⟨rfl, List.length_append⟩⟩

theorem appends_readPin (p : Pin) : Appends 1 (readPin h p) := ⟨fun _ => ⟨rfl, List.length_append⟩⟩

theorem appends_millisBounded (b : Millis → Millis) : Appends 1 (millisBounded b) :=
  ⟨fun _ => ⟨rfl, List.length_append⟩⟩

theorem appends_writePin (p : Pin) (l : Level) : Appends 1 (writePin h p l) := by
  refine ⟨fun s => ?_⟩
  by_cases hm : pinMode s.pins p = some .out
  · rw [writePin_out h p l s hm]; exact ⟨rfl, List.length_append⟩
  · rw [writePin_notOut h p l s hm]

theorem appends_edge (p : Pin) (l : Level) : Appends 2 (edge h p l) :=
  appends_bind (appends_writePin p l) fun _ => appends_emit _

/-! ### The sub-operations of the protocol engine -/

theorem appends_startSeq : Appends 16 (startSeq h) :=
  .of_eq (appends_bind (appends_setMode _ _) fun _ => appends_bind (appends_setMode _ _) fun _ =>
    appends_bind (appends_edge _ _) fun _ => appends_bind (appends_edge _ _) fun _ =>
      appends_bind (appends_edge _ _) fun _ => appends_bind (appends_edge _ _) fun _ =>
        appends_bind (appends_edge _ _) fun _ => appends_bind (appends_edge _ _) fun _ => appends_edge _ _) rfl

theorem appends_shiftOutBits (ls : List Level) : Appends (6 * ls.length) (shiftOutBits h ls) := by
  induction ls with
  | nil => exact appends_pure _
  | cons b rest ih =>
    exact .of_eq (appends_bind (appends_edge _ _) fun _ => appends_bind (appends_edge _ _) fun _ =>
      appends_bind (appends_edge _ _) fun _ => ih) (by rw [List.length_cons]; omega)

theorem appends_shiftOut8 (b : Byte) : Appends 48 (shiftOut8 h b) := appends_shiftOutBits (bitsMsbFirst b)

theorem appends_ackClock : Appends 7 (ackClock h) :=
  .of_eq (appends_bind (appends_setMode _ _) fun _ => appends_bind (appends_edge _ _) fun _ =>
    appends_bind (appends_readPin _) fun _ => appends_bind (appends_edge _ _) fun _ =>
      appends_bind (appends_readPin _) fun _ => appends_bind (appends_writeRegs _) fun _ => appends_pure _) rfl

theorem appends_sendCommand (c : Command) : Appends 71 (sendCommand h c) :=
  appends_bind appends_startSeq fun _ => appends_bind (appends_shiftOut8 _) fun _ => appends_ackClock

theorem appends_shiftInBits (n : Nat) (acc : Byte) : Appends (5 * n) (shiftInBits h n acc) := by
  induction n generalizing acc with
  | zero => exact appends_pure _
  | succ n ih =>
    exact .of_eq (appends_bind (appends_edge _ _) fun _ => appends_bind (appends_readPin _) fun _ =>
      appends_bind (appends_edge _ _) fun _ => ih _) (by omega)

theorem appends_shiftIn8 : Appends 40 (shiftIn8 h) :=
  appends_bind (appends_shiftInBits 8 _) fun _ => appends_bind (appends_writeRegs _) fun _ => appends_pure _

theorem appends_midAck : Appends 7 (midAck h) :=
  .of_eq (appends_bind (appends_setMode _ _) fun _ => appends_bind (appends_edge _ _) fun _ =>
    appends_bind (appends_edge _ _) fun _ => appends_edge _ _) rfl

theorem appends_shiftIn16 : Appends 89 (shiftIn16 h) :=
  .of_eq (appends_bind (appends_setMode _ _) fun _ => appends_bind appends_shiftIn8 fun _ =>
    appends_bind appends_midAck fun _ => appends_bind (appends_setMode _ _) fun _ =>
      appends_bind appends_shiftIn8 fun _ => appends_bind (appends_writeRegs _) fun _ => appends_pure _) rfl

theorem appends_crcSkip : Appends 7 (crcSkip h) :=
  .of_eq (appends_bind (appends_setMode _ _) fun _ => appends_bind (appends_edge _ _) fun _ =>
    appends_bind (appends_edge _ _) fun _ => appends_edge _ _) rfl

theorem appends_constructHandle (k : Handle) : Appends 0 (constructHandle k) := by
  refine ⟨fun s => ?_⟩
  by_cases hh : s.handle = none
  · rw [constructHandle_first k hh]; exact ⟨rfl, rfl⟩
  · rw [constructHandle_again k hh]

/-- An operation that advances `pc` has completed, since a stop leaves `pc` (R106). -/
theorem exec_appends (ht : exec i s = .next t) (hpc : t.pc = s.pc + 1) (hb : Appends n (body i)) :
    ∃ m, t.trace.length = s.trace.length + m ∧ m = n := by
  have hends := hb.ends s
  rcases exec_cases ht with ⟨u, hu, rfl⟩ | ⟨f, u, hu, rfl⟩ | ⟨u, hu, rfl⟩ <;> rw [hu] at hends
  · exact ⟨n, hends.2, rfl⟩
  · simp [hends] at hpc
  · simp [hends] at hpc

/-! ## Conversions -/

/-- The trace and both exchange statuses are those of another state. -/
def SameExchanges (s t : State) : Prop :=
  t.trace = s.trace ∧ t.regs.rstT = s.regs.rstT ∧ t.regs.rstH = s.regs.rstH

theorem keepsExchanges_convCelsius : Keeps (SameExchanges s) (convCelsius h) := keeps_convCelsius fun _ _ hs => hs

theorem keepsExchanges_convFahrenheit : Keeps (SameExchanges s) (convFahrenheit h) :=
  keeps_convFahrenheit fun _ _ hs => hs

theorem keepsExchanges_convHumidity : Keeps (SameExchanges s) (convHumidity h) := keeps_convHumidity fun _ _ hs => hs

theorem finish_sameExchanges {x : Op Unit} (hx : Keeps (SameExchanges s) x) (ht : finish x s = .next t) :
    SameExchanges s t := by
  obtain ⟨u, hu, rfl | ⟨f, rfl⟩ | rfl⟩ := keeps_finish hx ⟨rfl, rfl, rfl⟩ ht <;> exact hu

theorem exec_conversion_count (hi : i = .convC ∨ i = .convF ∨ i = .convRh) (ht : exec i s = .next t) :
    ∃ m, t.trace.length = s.trace.length + m ∧ m = 0 := by
  obtain ⟨⟨htrace, -⟩, -⟩ := conversionsArePure i s s t t hi ht ht
  exact ⟨0, congrArg List.length htrace, rfl⟩

/-! ## Waits and exchanges -/

/-- The count of a wait by its status (R136). -/
def waitCount (w : Option WaitStatus) (m : Nat) : Prop :=
  (w = some .ready ∧ ∃ k, 1 ≤ k ∧ k ≤ 100 ∧ m = 3 * k + 1) ∨
  (w = some .timeout ∧ ∃ n, 1 ≤ n ∧ n ≤ 100 ∧ m = 3 * n + 2)

/-- The polls of a wait: the busy ones and, where it ends ready, one more. The bound is that of HD2 (R81, R118). -/
theorem waitReady_count {w : WaitStatus} (hrun : waitReady h s = .ok w t) :
    t.regs.wst = some w ∧ ∃ m, t.trace.length = s.trace.length + m ∧ waitCount (some w) m := by
  obtain ⟨busy, env, -, hmax, -, ⟨hlt, -, -, -, -, hready⟩ | ⟨early, last, hbusy, -, -, -, -, -, htimeout⟩⟩ :=
    waitReady_cases h s
  · cases hrun.symm.trans hready
    refine ⟨rfl, 3 * (busy.length + 1) + 1, ?_, .inl ⟨rfl, _, Nat.le_add_left .., hlt, rfl⟩⟩
    simp only [List.length_append, busyPolls_length, readyPollEvents, List.length_cons, List.length_nil]
    omega
  · cases hrun.symm.trans htimeout
    have hpos : 1 ≤ busy.length := by simp [hbusy]
    refine ⟨rfl, 3 * busy.length + 2, ?_, .inr ⟨rfl, _, hpos, hmax, rfl⟩⟩
    simp only [List.length_append, busyPolls_length, List.length_cons, List.length_nil]
    omega

theorem recordedExchange_trace (c : Command) (st : Status) (raw : Option Raw) (s : State) :
    (recordedExchange c st raw s).trace = s.trace := by cases c <;> rfl

/-- The count of an exchange is 71 for its command, then that of the wait and, where it is ready, 96 to read it out
(R86). -/
theorem readRaw_count {c : Command} {st : Status} (hrun : readRaw h c s = .ok st t) :
    ∃ m, t.trace.length = s.trace.length + m ∧ exchangeCount (some st) m := by
  obtain ⟨tx, u, hu, -, iu, -⟩ := sendCommand_total h c s
  have hulen := (appends_sendCommand c).length hu
  by_cases htx : tx = .ok
  · subst htx
    obtain ⟨w, v, hv, -, iv, -⟩ := waitReady_total h u iu
    obtain ⟨-, m, hvlen, ⟨hw, k, hk, hmax, rfl⟩ | ⟨hw, n, hn, hmax, rfl⟩⟩ := waitReady_count hv <;> cases hw
    · obtain ⟨d, x, hx, -, ix, -⟩ := shiftIn16_total h v iv
      obtain ⟨y, hy, -, -, -⟩ := crcSkip_total h x ix
      have hxlen := appends_shiftIn16.length hx
      have hylen := appends_crcSkip.length hy
      cases hrun.symm.trans (readRaw_ready h c s u v x y d hu hv hx hy)
      exact ⟨3 * k + 168, by rw [recordedExchange_trace]; omega, .inr (.inr ⟨rfl, k, hk, hmax, rfl⟩)⟩
    · cases hrun.symm.trans (readRaw_timeout h c s u v hu hv)
      exact ⟨3 * n + 73, by rw [recordedExchange_trace]; omega, .inr (.inl ⟨rfl, n, hn, hmax, rfl⟩)⟩
  · cases hrun.symm.trans (readRaw_notAcknowledged h c s u tx hu htx)
    refine ⟨71, by rw [recordedExchange_trace, hulen], .inl ⟨?_, rfl⟩⟩
    rw [statusOfTx_eq htx]
    split
    · exact .inl rfl
    · exact .inr rfl

/-- A well-formed operation other than `CONSTRUCT` completes only under a handle (R110 (2)). -/
theorem handle_of_completed (ht : exec i s = .next t) (hpc : t.pc = s.pc + 1) (hwf : i.wellFormed = true)
    (hc : i.mnemonic ≠ .CONSTRUCT) : ∃ h, s.handle = some h := by
  refine Option.ne_none_iff_exists'.mp fun hh => ?_
  cases ht.symm.trans (exec_noHandle hwf hc hh)
  simp at hpc

theorem exec_wait_count (ht : exec .wait s = .next t) (hpc : t.pc = s.pc + 1) :
    ∃ m, t.trace.length = s.trace.length + m ∧ waitCount t.regs.wst m := by
  obtain ⟨h, hh⟩ := handle_of_completed ht hpc rfl nofun
  obtain ⟨w, u, hu⟩ : ∃ w u, waitReady h s = .ok w u := by
    obtain ⟨_, _, -, -, -, ⟨-, -, -, -, -, hrun⟩ | ⟨_, _, -, -, -, -, -, -, hrun⟩⟩ := waitReady_cases h s <;>
      exact ⟨_, _, hrun⟩
  cases ht.symm.trans (exec_completes rfl hh (op_bind_ok hu) rfl)
  obtain ⟨hw, hcount⟩ := waitReady_count hu
  rw [advance_regs, hw]
  exact hcount

theorem exec_readraw_count {b : Byte} (ht : exec (.readraw b) s = .next t) (hpc : t.pc = s.pc + 1) :
    ∃ m, t.trace.length = s.trace.length + m ∧
      exchangeCount (if b = Config.codeMeasT then t.regs.rstT else t.regs.rstH) m := by
  cases hb : Command.ofCode? b with
  | none =>
    cases ht.symm.trans (exec_badOperand s rfl hb)
    simp at hpc
  | some c =>
    obtain rfl := (ofCode_eq_some b c).mp hb
    obtain ⟨h, hh⟩ := handle_of_completed ht hpc (by simp [Instr.wellFormed]) nofun
    obtain ⟨st, raw, u, hrun, -⟩ := readRaw_total h c s
    cases ht.symm.trans (exec_readraw hh hrun)
    have hcount := readRaw_count hrun
    cases c <;> exact hcount

/-! ## The public reads -/

/-- A temperature read has the count of its exchange, as the conversion after it keeps the trace and the status. -/
theorem exec_temperatureRead_count {conv : Handle → Op Unit} (ht : exec i s = .next t) (hpc : t.pc = s.pc + 1)
    (hi : body i = withHandle fun h => do let _ ← readRaw h .measT; conv h)
    (hconv : ∀ h u, Keeps (SameExchanges u) (conv h)) (hwf : i.wellFormed = true) (hc : i.mnemonic ≠ .CONSTRUCT) :
    ∃ m, t.trace.length = s.trace.length + m ∧ exchangeCount t.regs.rstT m := by
  obtain ⟨h, hh⟩ := handle_of_completed ht hpc hwf hc
  obtain ⟨st, raw, u, hrun, -⟩ := readRaw_total h .measT s
  rw [exec_withHandle hi hh, finish, op_bind_ok hrun] at ht
  obtain ⟨htrace, hst, -⟩ := finish_sameExchanges (hconv h _) ht
  rw [htrace, hst]
  exact readRaw_count hrun

/-- A humidity read has the count of its humidity exchange, and after its success that of the temperature exchange
too. -/
theorem exec_readRh_count (ht : exec .readRh s = .next t) (hpc : t.pc = s.pc + 1) :
    ∃ m, t.trace.length = s.trace.length + m ∧
      ((t.regs.rstH ≠ some .ok ∧ exchangeCount t.regs.rstH m) ∨
        (t.regs.rstH = some .ok ∧ ∃ a b, exchangeCount (some .ok) a ∧ exchangeCount t.regs.rstT b ∧ m = a + b)) := by
  obtain ⟨h, hh⟩ := handle_of_completed ht hpc rfl nofun
  obtain ⟨stH, rawH, u, hH, -⟩ := readRaw_total h .measRH s
  obtain ⟨a, hulen, ha⟩ := readRaw_count hH
  by_cases ho : stH = .ok
  · subst ho
    obtain ⟨stT, rawT, v, hT, -, frame, -⟩ := readRaw_total h .measT (recordedExchange .measRH .ok rawH u)
    obtain ⟨b, hvlen, hb⟩ := readRaw_count hT
    rw [exec_withHandle rfl hh, finish, readHumidity_ready hH hT] at ht
    obtain ⟨htrace, hstT, hstH⟩ := finish_sameExchanges
      (keeps_bind keepsExchanges_convCelsius fun _ => keepsExchanges_convHumidity) ht
    rw [htrace, hstT, hstH]
    exact ⟨a + b, by rw [hvlen, hulen, Nat.add_assoc], .inr ⟨frame.rstH, a, b, ha, hb, rfl⟩⟩
  · cases ht.symm.trans (exec_completes rfl hh (readHumidity_failed hH ho) rfl)
    exact ⟨a, hulen, .inl ⟨fun hok => ho (Option.some_inj.mp hok), ha⟩⟩

/-- Settles O39: the operations with one count by adding up their host calls, a wait and the exchanges by their ends.
That a wait has at most 100 polls rests on host duty HD2 (R118) in the model's form (log entry 3). -/
theorem eventCounts : Obligations.EventCounts := by
  intro i s t ht hpc
  cases i with
  | setmode p m => exact exec_appends ht hpc (appends_withHandle fun _ => appends_setMode p m)
  | write p l => exact exec_appends ht hpc (appends_withHandle fun _ => appends_writePin p l)
  | read p =>
    exact exec_appends ht hpc (appends_withHandle fun _ => appends_bind (appends_readPin p) fun _ => appends_writeRegs _)
  | dlyUs n | dlyMs n => exact exec_appends ht hpc (appends_withHandle fun _ => appends_emit _)
  | millis =>
    exact exec_appends ht hpc (appends_withHandle fun _ => appends_bind (appends_millisBounded _) fun _ =>
      appends_writeRegs _)
  | start => exact exec_appends ht hpc (appends_withHandle fun _ => appends_startSeq)
  | shiftout8 b => exact exec_appends ht hpc (appends_withHandle fun _ => appends_shiftOut8 b)
  | ack => exact exec_appends ht hpc (appends_withHandle fun _ => appends_discard appends_ackClock)
  | sendcmd b =>
    exact exec_appends ht hpc (.of_eq (appends_bind (appends_requireCommand b) fun c =>
      appends_withHandle fun _ => appends_discard (appends_sendCommand c)) rfl)
  | wait => exact exec_wait_count ht hpc
  | shiftin8 => exact exec_appends ht hpc (appends_withHandle fun _ => appends_discard appends_shiftIn8)
  | midack => exact exec_appends ht hpc (appends_withHandle fun _ => appends_midAck)
  | read16 => exact exec_appends ht hpc (appends_withHandle fun _ => appends_discard appends_shiftIn16)
  | crcskip => exact exec_appends ht hpc (appends_withHandle fun _ => appends_crcSkip)
  | readraw b => exact exec_readraw_count ht hpc
  | readC => exact exec_temperatureRead_count ht hpc rfl (fun _ _ => keepsExchanges_convCelsius) rfl nofun
  | readF => exact exec_temperatureRead_count ht hpc rfl (fun _ _ => keepsExchanges_convFahrenheit) rfl nofun
  | readRh => exact exec_readRh_count ht hpc
  | convC => exact exec_conversion_count (.inl rfl) ht
  | convF => exact exec_conversion_count (.inr (.inl rfl)) ht
  | convRh => exact exec_conversion_count (.inr (.inr rfl)) ht
  | construct d k v r w => exact exec_appends ht hpc (appends_constructHandle ⟨d, k, v, r, w⟩)

end Sys2Proof.Machine
end
